-- ==== Sys2Proof/Word.lean ====
section
/-! DEFINITION. Word: the unit of every exchange, and the width of a chip register address (00_scope.md R7, R9). -/

namespace Sys2Proof

/-- `DATA_W` = 8: the width of every exchanged unit, of STATUS and of every BUF cell (R7, R57). -/
abbrev Byte := BitVec 8

/-- `ADDR_W` = 5: a chip register address, 0..31 (R7, R29). -/
abbrev RegAddr := BitVec 5

/-- `zext_8` of R9: an unsigned value widened to 8 bits with zeros. -/
abbrev zext8 (a : RegAddr) : Byte := a.setWidth 8

end Sys2Proof
end

