-- ==== Sys2Proof/Config.lean ====
section
/-! DEFINITION. Config: the implementation parameters of R7 and the free values of the spec. -/

namespace Sys2Proof

/-- The parameters the spec leaves OPEN (R7; decisions D4, D5, D9, D10, D15). They are fixed before reset: `State` carries
one `Config` and no step changes it (log 4). `PIN_LEVEL_PROTOCOL` has no field, for no rule reads it (R7). -/
structure Config where
  /-- `OPC_R_REGISTER`: base of the `RDREG` opcode byte, low 5 bits zero (R8). -/
  opcRRegister : Byte
  /-- `OPC_W_REGISTER`: base of the `WRREG` opcode byte, low 5 bits zero (R8). -/
  opcWRegister : Byte
  /-- `OPC_R_RX_PAYLOAD` (R73). -/
  opcRRxPayload : Byte
  /-- `OPC_W_TX_PAYLOAD` (R73). -/
  opcWTxPayload : Byte
  /-- `OPC_FLUSH_TX` (R73). -/
  opcFlushTx : Byte
  /-- `OPC_FLUSH_RX` (R73). -/
  opcFlushRx : Byte
  /-- `OPC_NOP` (R73). -/
  opcNop : Byte
  /-- `OPC_ACTIVATE` (R73). -/
  opcActivate : Byte
  /-- `BUF_DEPTH`: the number of byte cells of BUF, at least 5 (R7, R50; D5). -/
  bufDepth : Nat
  /-- `T_SETTLE` in microseconds, at least 5000 (R7, R231; D15; log 9). -/
  tSettle : Nat
  /-- `STORE_ON_ERROR`: whether the byte of a failed exchange is stored to its destination (R7; D9, D10; log 10). -/
  storeOnError : Bool
  /-- `N_ADDR`: the width in bytes of a pipe address, 3 to 5 (R7, R177); companion data only. -/
  nAddr : Nat
  deriving DecidableEq, Repr

/-- The default of every parameter. PRESUMED (log 4): the opcode values and the depth 32 are the spec's suggested values
(R7, R72, R73), marked there as general knowledge, not source; a claim holds for every `Config` unless it names this one. -/
def Config.suggested : Config where
  opcRRegister := 0x00
  opcWRegister := 0x20
  opcRRxPayload := 0x61
  opcWTxPayload := 0xA0
  opcFlushTx := 0xE1
  opcFlushRx := 0xE2
  opcNop := 0xFF
  opcActivate := 0x50
  bufDepth := 32
  tSettle := 5000
  storeOnError := false
  nAddr := 5

/-- `LEN_W = ceil(log2(BUF_DEPTH + 1))` (R7; D5), the number of bits of the length field. For a depth of at least 1 that is
one more than the position of the depth's highest set bit. -/
def Config.lenW (c : Config) : Nat := Nat.log2 c.bufDepth + 1

/-- `ACTIVATE_KEY`, the one payload byte of ACTIVATE, fixed (R7, R77). -/
def activateKey : Byte := 0x73

/-- FREE VALUE (log 5). What STATUS holds after a reset, until the first successful opcode exchange: unspecified, never a
fixed number (R21, R42; D8; U2). The argument counts the resets the machine has taken. -/
opaque Config.statusAtReset : Nat → Byte

/-- FREE VALUE (log 7). What a cell of BUF that nothing has written since the last reset holds: unspecified (R42, R233; D17;
U5). The arguments are the count of resets and the cell's index. -/
opaque Config.bufAtReset : Nat → Nat → Byte

end Sys2Proof
end

