-- ==== Sys2Proof/Syntax.lean ====
section
/-! DEFINITION. Syntax: the eight host commands (30_encoding.md R70, R83) and the message that carries one (R34, R74). -/

namespace Sys2Proof

/-- The command code `op`, by name, in the order of R70. -/
inductive Op where
  | rdreg | wrreg | rdpay | wrpay | flushtx | flushrx | nop | activate
  deriving DecidableEq, Repr

/-- A command with the operands it uses, one constructor per row of the opcode table (R70, R83). `len` is the number of
buffer bytes; the fields a command ignores (R81) are not part of it. -/
inductive Instr where
  /-- `RDREG addr, len`: read a chip register into BUF (R130). -/
  | rdreg (addr : RegAddr) (len : Nat)
  /-- `WRREG addr, len`: write BUF to a chip register (R131). -/
  | wrreg (addr : RegAddr) (len : Nat)
  /-- `RDPAY len`: read the received payload into BUF (R140). -/
  | rdpay (len : Nat)
  /-- `WRPAY len`: write BUF to the chip's transmit queue (R141). -/
  | wrpay (len : Nat)
  /-- `FLUSHTX`: empty the chip's transmit queue (R150). -/
  | flushtx
  /-- `FLUSHRX`: empty the chip's receive queue (R151). -/
  | flushrx
  /-- `NOP`: refresh the Status Snapshot (R152). -/
  | nop
  /-- `ACTIVATE`: toggle the chip's advanced features (R153). -/
  | activate
  deriving DecidableEq, Repr

/-- The command code of a command (R70). -/
def Instr.op : Instr → Op
  | .rdreg _ _ => .rdreg
  | .wrreg _ _ => .wrreg
  | .rdpay _ => .rdpay
  | .wrpay _ => .wrpay
  | .flushtx => .flushtx
  | .flushrx => .flushrx
  | .nop => .nop
  | .activate => .activate

/-- The `addr` field of a command's message; 0 where the command ignores the field (R74, R81). -/
def Instr.addr : Instr → RegAddr
  | .rdreg a _ => a
  | .wrreg a _ => a
  | .rdpay _ | .wrpay _ | .flushtx | .flushrx | .nop | .activate => 0

/-- The `len` field of a command's message; 0 where the command ignores the field (R74, R81). -/
def Instr.len : Instr → Nat
  | .rdreg _ n => n
  | .wrreg _ n => n
  | .rdpay n => n
  | .wrpay n => n
  | .flushtx | .flushrx | .nop | .activate => 0

/-- The message `CMD(op, addr, len)` as the host offers it (R34, R74). The carriers are wider than the fields (3, 5 and
`LEN_W` bits), so decoding refuses what does not fit (R75, R76; D7). -/
structure Descriptor where
  op : Nat
  addr : Nat
  len : Nat
  deriving DecidableEq, Repr

end Sys2Proof
end

