-- ==== Sys2Proof/WellFormed.lean ====
section
/-! DEFINITION. WellFormed: which configurations are admitted (00_scope.md R7, R8; log 26) and which commands fit the
message's fields (30_encoding.md R74). Each check is a Bool of its own, so that a refused term names the check it fails. -/

namespace Sys2Proof

/-- The six opcode parameters of format FIXED (R73). -/
def Config.fixedOpcodes (c : Config) : List Byte :=
  [c.opcRRxPayload, c.opcWTxPayload, c.opcFlushTx, c.opcFlushRx, c.opcNop, c.opcActivate]

/-- R8: the low 5 bits of the two register bases are zero. -/
def Config.basesAligned (c : Config) : Bool :=
  c.opcRRegister &&& 0x1F == 0 && c.opcWRegister &&& 0x1F == 0

/-- R8: the two sets of register opcodes are disjoint. -/
def Config.basesDistinct (c : Config) : Bool :=
  c.opcRRegister != c.opcWRegister

/-- R8: no fixed opcode lies in either set of register opcodes. -/
def Config.fixedOutsideBases (c : Config) : Bool :=
  c.fixedOpcodes.all fun b => b &&& 0xE0 != c.opcRRegister && b &&& 0xE0 != c.opcWRegister

/-- R8: the six fixed opcodes are pairwise distinct. -/
def Config.fixedDistinct (c : Config) : Bool :=
  decide c.fixedOpcodes.Nodup

/-- R7: BUF has at least 5 cells. -/
def Config.depthOk (c : Config) : Bool := decide (5 ≤ c.bufDepth)

/-- R7: the settling delay is at least 5 ms. -/
def Config.settleOk (c : Config) : Bool := decide (5000 ≤ c.tSettle)

/-- R7: a pipe address has 3 to 5 bytes. -/
def Config.nAddrOk (c : Config) : Bool := decide (3 ≤ c.nAddr ∧ c.nAddr ≤ 5)

/-- A configuration the spec admits: R8 for the opcodes, R7 for the rest. -/
def Config.WellFormed (c : Config) : Bool :=
  c.basesAligned && c.basesDistinct && c.fixedOutsideBases && c.fixedDistinct && c.depthOk && c.settleOk && c.nAddrOk

/-- A command whose operands fit its message: `len` has `LEN_W` bits (R74). `addr` fits by its type. -/
def Instr.WellFormed (c : Config) (i : Instr) : Bool :=
  decide (i.len < 2 ^ c.lenW)

end Sys2Proof
end

