-- ==== Sys2Proof/Decode.lean ====
section
/-! DEFINITION. Decode: the mapper (R76), the two encodings of a command and their decoders, each total and refusing by
name; then the encoders, from the same tables of 30_encoding.md. 1. The message `CMD(op, addr, len)` (R74), also packed in
one number: `len` from bit 8 up, `op` in bits 7:5, `addr` in 4:0. 2. The wire opcode byte (R72, R73, R85), which is what
spec/opcode_table.json numbers. A table word is that byte in bits 7:0; `len`, which no wire byte carries (R79), stands from
bit 8 up, where R74 puts it (log 15). -/

namespace Sys2Proof

/-- Why a message or a word spells no command. -/
inductive DecodeError where
  /-- A command code above 7 (R75). -/
  | opAbove7 (op : Nat)
  /-- A register address above 31: refused, never masked (R76; D7). -/
  | addrAbove31 (addr : Nat)
  /-- A length that does not fit the `LEN_W` bits of its field (R74). -/
  | lenTooWide (len : Nat)
  /-- A byte that spells none of the eight commands (R78, R80). -/
  | notEmitted (b : Byte)
  deriving DecidableEq, Repr

/-! ## The mapper -/

/-- `OpcodeOf(op, addr)`, the register address-to-opcode mapper (R76). -/
def opcodeOf (c : Config) : Op → RegAddr → Byte
  | .rdreg, a => c.opcRRegister ||| zext8 a
  | .wrreg, a => c.opcWRegister ||| zext8 a
  | .rdpay, _ => c.opcRRxPayload
  | .wrpay, _ => c.opcWTxPayload
  | .flushtx, _ => c.opcFlushTx
  | .flushrx, _ => c.opcFlushRx
  | .nop, _ => c.opcNop
  | .activate, _ => c.opcActivate

/-- The opcode byte a command puts on the wire (R76). -/
def Instr.opcode (c : Config) (i : Instr) : Byte := opcodeOf c i.op i.addr

/-! ## The message -/

/-- The command of a code, 0..7 in the order of R70; nothing above 7 (R75). -/
def Op.ofCode : Nat → Option Op
  | 0 => some .rdreg
  | 1 => some .wrreg
  | 2 => some .rdpay
  | 3 => some .wrpay
  | 4 => some .flushtx
  | 5 => some .flushrx
  | 6 => some .nop
  | 7 => some .activate
  | _ => none

/-- The code of a command (R70). -/
def Op.code : Op → Nat
  | .rdreg => 0
  | .wrreg => 1
  | .rdpay => 2
  | .wrpay => 3
  | .flushtx => 4
  | .flushrx => 5
  | .nop => 6
  | .activate => 7

/-- An address carrier read as the 5-bit field: a value above 31 is refused, not masked (R76; D7). -/
def regAddr? (a : Nat) : Except DecodeError RegAddr :=
  if a < 32 then .ok (BitVec.ofNat 5 a) else .error (.addrAbove31 a)

/-- A length carrier read as the `LEN_W`-bit field (R74). -/
def len? (c : Config) (n : Nat) : Except DecodeError Nat :=
  if n < 2 ^ c.lenW then .ok n else .error (.lenTooWide n)

/-- A register command of the two fields it uses. -/
def regCommand (c : Config) (mk : RegAddr → Nat → Instr) (addr len : Nat) : Except DecodeError Instr :=
  match regAddr? addr, len? c len with
  | .ok a, .ok n => .ok (mk a n)
  | .error e, _ => .error e
  | .ok _, .error e => .error e

/-- A payload command of the one field it uses. -/
def payCommand (c : Config) (mk : Nat → Instr) (len : Nat) : Except DecodeError Instr :=
  match len? c len with
  | .ok n => .ok (mk n)
  | .error e => .error e

/-- The command of a code and its two operand fields. A field the command ignores is not looked at (R81; log 14). -/
def commandOf (c : Config) (op : Op) (addr len : Nat) : Except DecodeError Instr :=
  match op with
  | .rdreg => regCommand c .rdreg addr len
  | .wrreg => regCommand c .wrreg addr len
  | .rdpay => payCommand c .rdpay len
  | .wrpay => payCommand c .wrpay len
  | .flushtx => .ok .flushtx
  | .flushrx => .ok .flushrx
  | .nop => .ok .nop
  | .activate => .ok .activate

/-- The command a message names (R70, R74, R75). -/
def decodeDescriptor (c : Config) (d : Descriptor) : Except DecodeError Instr :=
  match Op.ofCode d.op with
  | some op => commandOf c op d.addr d.len
  | none => .error (.opAbove7 d.op)

/-- R74's packing, unpacked: `len` from bit 8 up, `op` in bits 7:5, `addr` in bits 4:0. -/
def unpackDescriptor (w : Nat) : Descriptor where
  op := w / 32 % 8
  addr := w % 32
  len := w / 256

/-- The command of a packed message: total on every number. -/
def decodeWord (c : Config) (w : Nat) : Except DecodeError Instr := decodeDescriptor c (unpackDescriptor w)

/-! ## The wire -/

/-- What an opcode byte spells (R78): the command, and its address where the byte carries one. The engine never decodes;
this is what a bus monitor or a chip does. -/
def decodeOpcode (c : Config) (b : Byte) : Option (Op × RegAddr) :=
  if b &&& 0xE0 = c.opcRRegister then some (.rdreg, b.setWidth 5)
  else if b &&& 0xE0 = c.opcWRegister then some (.wrreg, b.setWidth 5)
  else if b = c.opcRRxPayload then some (.rdpay, 0)
  else if b = c.opcWTxPayload then some (.wrpay, 0)
  else if b = c.opcFlushTx then some (.flushtx, 0)
  else if b = c.opcFlushRx then some (.flushrx, 0)
  else if b = c.opcNop then some (.nop, 0)
  else if b = c.opcActivate then some (.activate, 0)
  else none

/-- The command of an opcode byte and a length (R78, R85): total on every byte. -/
def decodeWire (c : Config) (b : Byte) (len : Nat) : Except DecodeError Instr :=
  match decodeOpcode c b with
  | some (op, a) => commandOf c op a.toNat len
  | none => .error (.notEmitted b)

/-- The command of a table word: the opcode byte in bits 7:0, `len` from bit 8 up (log 15). -/
def decodeTable (c : Config) (w : Nat) : Except DecodeError Instr :=
  decodeWire c (BitVec.ofNat 8 w) (w / 256)

/-- The instruction read from the first `nbits` bits of a table word, all higher bits 0, under the table's own opcode
values, which are the suggested defaults (R85). -/
def decodeTableWord (nbits w : Nat) : Option Instr :=
  match decodeTable Config.suggested (w % 2 ^ nbits) with
  | .ok i => some i
  | .error _ => none

/-! ## The encoders -/

/-- The message of a command; the fields it ignores are sent as 0 (R74, R81). -/
def encodeDescriptor (i : Instr) : Descriptor where
  op := i.op.code
  addr := i.addr.toNat
  len := i.len

/-- R74's packing: `len` times 2^8, `op` times 2^5, `addr`; each field stands in bits of its own. -/
def packDescriptor (d : Descriptor) : Nat := d.len * 256 + d.op * 32 + d.addr

/-- The packed message of a command. -/
def encode (i : Instr) : Nat := packDescriptor (encodeDescriptor i)

/-- The table word of a command: its opcode byte, `len` from bit 8 up (R72, R73; log 15). -/
def encodeTable (c : Config) (i : Instr) : Nat := i.len * 256 + (i.opcode c).toNat

/-- The 70 opcode bytes the engine can emit (R80): 32 for each register command, one for each of the six others. -/
def emittedOpcodes (c : Config) : List Byte :=
  (List.range 32).map (fun a => opcodeOf c .rdreg (BitVec.ofNat 5 a)) ++
  (List.range 32).map (fun a => opcodeOf c .wrreg (BitVec.ofNat 5 a)) ++ c.fixedOpcodes

end Sys2Proof
end

