-- ==== Sys2Proof/Machine/State.lean ====
section
/-! DEFINITION. State: everything the spec gives the machine (10_state.md R20, R24, R31, R42), the companion data of the
host (45_companion_codecs.md R176, R177), the channels (R34 to R39) with what the environment will do next, and the
events so far. All of it is plain data. -/

namespace Sys2Proof.Machine

/-- The level of an output line (R37). -/
inductive Level where
  | low | high
  deriving DecidableEq, Repr

/-- `PHASE`, the sequencer's program counter together with `IDX` (R24). -/
inductive Phase where
  | settle | idle | sel | opcTx | opcRx | payTx | payRx | desel | done
  deriving DecidableEq, Repr

/-- `SRC`: where the payload bytes of a command come from (R20, R26). -/
inductive Src where
  | none | buf | key
  deriving DecidableEq, Repr

/-- BUF as address and byte pairs, addresses strictly rising. A cell that is not listed has not been written since the last
reset: it holds no byte of this list's, and reads as the free value `Config.bufAtReset` (R42; D17; log 7). -/
abbrev Memory := List Host.Cell

/-! ## Companion data of the host (45_companion_codecs.md) -/

/-- A pipe that owns a full address (R177). -/
inductive FullPipe where
  | p0 | p1
  deriving DecidableEq, Repr

/-- A pipe that owns one byte and borrows the rest of its address from pipe 1 (R177). -/
inductive PartialPipe where
  | p2 | p3 | p4 | p5
  deriving DecidableEq, Repr

/-- The six pipe addresses: `2 * N_ADDR + 4` bytes and no copy of the base (R177). -/
structure Pipes where
  full0 : List Byte
  full1 : List Byte
  own2 : Byte
  own3 : Byte
  own4 : Byte
  own5 : Byte
  deriving DecidableEq, Repr

/-- A Register Descriptor `(address, rawValue)`; its width is the length of `raw` (R176). No act changes `addr` or the
width. -/
structure RegDesc where
  addr : RegAddr
  raw : List Byte
  deriving DecidableEq, Repr

/-- A bit field of a one-byte chip register, as R175's mask and shift: the `width` bits from bit `shift` up
(log 27). -/
structure Field where
  shift : Nat
  width : Nat
  deriving DecidableEq, Repr

/-- What the host keeps beside the engine (R5, R176, R177). -/
structure HostData where
  pipes : Pipes
  /-- The Register Descriptors the host has made (R176). -/
  regs : List RegDesc
  /-- The host's own copy of the bytes it had placed in BUF for its latest command: `BUF[0 .. NPAY-1]` as ACCEPT found them,
  before the command consumes them (R131, R181, R244; log 19). -/
  copy : List Byte
  deriving DecidableEq, Repr

/-! ## What the agents other than the engine do (R33) -/

/-- One act of HOST (R33). -/
inductive HostAct where
  /-- Offer a command on the port; it replaces a message that waits there (R34; log 3). -/
  | offer (d : Descriptor)
  /-- Write `BUF[i]` (R41). -/
  | writeBuf (i : Nat) (v : Byte)
  /-- Read `BUF[i]` (R41). -/
  | readBuf (i : Nat)
  /-- Read the STATUS port (R40). -/
  | readStatus
  /-- `set` of a full pipe address (R179). -/
  | setFull (p : FullPipe) (bytes : List Byte)
  /-- `set` of a partial pipe address (R180). -/
  | setOwn (p : PartialPipe) (b : Byte)
  /-- `get` of a full pipe address (R179). -/
  | getFull (p : FullPipe)
  /-- `get` of a partial pipe address (R180). -/
  | getPartial (p : PartialPipe)
  /-- Make a Register Descriptor, of 1 to 5 bytes (R176). -/
  | newReg (r : RegDesc)
  /-- `BUF[i] <- encode(BUF[i], level)` (R178 steps 2 and 3; log 30). -/
  | encodeBuf (i : Nat) (f : Field) (level : Nat)
  /-- `BUF[0] <- encode(rawValue[0], level)` of descriptor `k` (R178, the form that uses the shadow). -/
  | encodeReg (k : Nat) (f : Field) (level : Nat)
  deriving DecidableEq, Repr

/-- One event of the environment. `State.agenda` lists the events to come, the next first (log 2). -/
inductive EnvEvent where
  /-- No agent but the engine moves: the engine takes its step, or holds. -/
  | pass
  /-- ENV delivers `RESET` (R39, R230). -/
  | reset
  /-- TIMER delivers `SETTLED`, `us` microseconds after the reset (R38, R231). -/
  | settled (us : Nat)
  /-- XPORT answers the outstanding request: `XRSP(rx, err)` (R36). -/
  | xrsp (rx : Byte) (err : Bool)
  /-- XPORT answers a request that a reset abandoned (R42, R230). -/
  | xrspLate (rx : Byte) (err : Bool)
  /-- HOST acts, at the next point where the engine has no step of its own. -/
  | host (a : HostAct)
  /-- HOST acts at once, whatever the engine is about to do: "at any time" (R40), in every phase, between any two of its
  steps (log 2). -/
  | hostNow (a : HostAct)
  deriving DecidableEq, Repr

/-- One visible event (R11), as `State.trace` records it. -/
inductive Obs where
  /-- The engine consumes the `CMD` message of this command (R101). -/
  | cmd (i : Instr)
  /-- Chip-select is driven to a level (R37). -/
  | csn (l : Level)
  /-- `XREQ(tx)` (R36). -/
  | xreq (tx : Byte)
  /-- `XRSP(rx, err)` (R36). -/
  | xrsp (rx : Byte) (err : Bool)
  /-- `RSP(status, err)` (R35). -/
  | rsp (status : Byte) (err : Bool)
  /-- `RESET` (R39). -/
  | reset
  /-- `SETTLED` (R38). -/
  | settled
  /-- What the STATUS port showed the host (R40). -/
  | statusRead (v : Byte)
  /-- What the BUF port showed the host (R41). -/
  | bufRead (i : Nat) (v : Byte)
  /-- The result of `get` of a pipe address (R179, R180). -/
  | pipeAddr (bytes : List Byte)
  /-- `encode` reported RangeError to the host (R202). -/
  | rangeError
  deriving DecidableEq, Repr

/-! ## How a step can stop -/

/-- The machine stops with a fault. -/
inductive Fault where
  /-- An access to a BUF index at or above `BUF_DEPTH`, which does not exist (R50, R60). Raised by a host act on the BUF
  port (log 13), and by PAY_TX and PAY_RX in states that break R43, which no run reaches. Safe: the machine stops. -/
  | bufIndexOutOfRange (i : Nat)
  deriving DecidableEq, Repr

/-- The model gives no next state. -/
inductive Refusal where
  /-- Raised by an arm of `exec` whose instruction has no meaning yet; this model has none. Safe. -/
  | notModelled (mnemonic : String)
  /-- Raised when the engine is IDLE and the offered message spells no command: its carrier holds a value that does not fit
  the field (R75, R76; D7). Safe. -/
  | badCommand (e : DecodeError)
  /-- Raised by a host access to `BUF[i]`, `i < NPAY`, between ACCEPT and RSP, which the spec leaves unspecified (R65, R243;
  D16; U6; log 12). Safe. -/
  | hostTouchedOwnedBuffer (i : Nat)
  /-- Raised by `set` of a full pipe address with a number of bytes other than `N_ADDR` (R179; D26; log 20). Safe. -/
  | pipeAddressWrongLength (n : Nat)
  /-- Raised by making a Register Descriptor of a width no register has, `n` bytes, `n` not from 1 to 5 (R176; log 31).
  Safe. -/
  | registerWidth (n : Nat)
  /-- Raised by an encode act of the host for a field that names no mask inside a one-byte register: no bit, or a bit above
  bit 7 (R175; DESIGN CHOICE, log 32). Safe. -/
  | fieldOutsideByte (f : Field)
  deriving DecidableEq, Repr

/-! ## The state -/

/-- The machine. The registers are R20's; `xreq` is R31's exchange in flight; `cmd`, `rsp` are the channels of R34 and R35;
`agenda`, `trace` and `resets` are the model's own (log 2, 16, 5). Codes are held by name, lengths and indices as numbers
(log 28). -/
structure State where
  /-- The parameters, fixed before reset (R7, R32; log 4). -/
  cfg : Config
  /-- `STATUS`, the Status Snapshot (R21). -/
  status : Byte
  /-- `CSN`, the chip-select level, active low (R22). -/
  csn : Level
  /-- `CE`, the chip-enable level (R23). -/
  ce : Level
  /-- `PHASE` (R24). -/
  phase : Phase
  /-- `IDX`, the index of the payload byte being exchanged (R25). -/
  idx : Nat
  /-- `OP`, the command code of the latch (R26). -/
  op : Op
  /-- `OPC`, the opcode byte of the latch (R26). -/
  opc : Byte
  /-- `NPAY`, the payload length of the latch (R26). -/
  npay : Nat
  /-- `SRC`, the payload source of the latch (R26). -/
  src : Src
  /-- `ERR`, the one flag (R27). -/
  err : Bool
  /-- `BUF` (R50). -/
  buf : Memory
  /-- The request XPORT has not answered yet (R31, R36). -/
  xreq : Option Byte
  /-- The message the host offers on the command channel (R34). -/
  cmd : Option Descriptor
  /-- The last message of the result channel since the reset (R35; log 17). -/
  rsp : Option (Byte × Bool)
  /-- The companion data of the host (R176, R177). -/
  host : HostData
  /-- MODEL'S OWN: what the other agents will do, the next event first (log 2). -/
  agenda : List EnvEvent
  /-- MODEL'S OWN: the visible events so far, the oldest first (R11; log 16). -/
  trace : List Obs
  /-- MODEL'S OWN: how many `RESET` events the machine has taken, the counter of the free values (log 5). -/
  resets : Nat
  deriving DecidableEq, Repr

/-- The companion data as initialisation leaves it: all pipe addresses zero (R42, R183), no descriptor and an empty copy
(R181; log 19). -/
def HostData.initial (c : Config) : HostData where
  pipes := { full0 := List.replicate c.nAddr 0, full1 := List.replicate c.nAddr 0, own2 := 0, own3 := 0, own4 := 0, own5 := 0 }
  regs := []
  copy := []

/-- The machine after its `n`th reset (R42): chip-select high, chip-enable low, SETTLE, ERR 0, no exchange outstanding.
STATUS and BUF are unspecified (free values; log 5, 7). No step reads IDX or the latch before ACCEPT; DESIGN CHOICE (log 6):
they are 0, with OP at code 0 and SRC at NONE. -/
def State.afterReset (c : Config) (n : Nat) : State where
  cfg := c
  status := Config.statusAtReset n
  csn := .high
  ce := .low
  phase := .settle
  idx := 0
  op := .rdreg
  opc := 0
  npay := 0
  src := .none
  err := false
  buf := []
  xreq := none
  cmd := none
  rsp := none
  host := HostData.initial c
  agenda := []
  trace := []
  resets := n

/-- The machine right after reset (R42), under the suggested parameters. -/
def State.reset : State := State.afterReset Config.suggested 0

end Sys2Proof.Machine
end

