-- ==== Sys2Proof/Machine/Operands.lean ====
section
/-! DEFINITION. Operands: the payload plan of a command (30_encoding.md R77), its admission (R56, R101) and the one byte
operand form, `BUF[IDX]` or the key (R105). The opcode operand is `opcodeOf` of Decode.lean. -/

namespace Sys2Proof.Machine

/-- `PayloadOf(op, len)`, the payload plan `(SRC, NPAY)` (R77). -/
def payloadOf : Op → Nat → Src × Nat
  | .rdreg, n => (.buf, n)
  | .wrreg, n => (.buf, n)
  | .rdpay, n => (.buf, n)
  | .wrpay, n => (.buf, n)
  | .flushtx, _ => (.none, 0)
  | .flushrx, _ => (.none, 0)
  | .nop, _ => (.none, 0)
  | .activate, _ => (.key, 1)

/-- The payload plan of a command (R77). -/
def plan (i : Instr) : Src × Nat := payloadOf i.op i.len

/-- The engine admits a command unless its payload is longer than BUF (R56, R101; D6). -/
def admitted (c : Config) (i : Instr) : Bool :=
  match plan i with
  | (.buf, n) => decide (n ≤ c.bufDepth)
  | (.key, _) | (.none, _) => true

/-! ## BUF (20_memory.md) -/

/-- The byte listed for a cell. -/
def Memory.lookup : Memory → Nat → Option Byte
  | [], _ => none
  | (k, v) :: m, i => if k = i then some v else Memory.lookup m i

/-- A memory with one cell written; addresses stay strictly rising. -/
def Memory.store : Memory → Nat → Byte → Memory
  | [], i, v => [(i, v)]
  | (k, w) :: m, i, v =>
    if i < k then (i, v) :: (k, w) :: m
    else if i = k then (i, v) :: m
    else (k, w) :: Memory.store m i v

/-- The canonical form of BUF: addresses strictly rising, each below the depth (R50). -/
def Memory.wf (depth : Nat) (m : Memory) : Bool :=
  decide (m.Pairwise (fun a b => a.1 < b.1)) && m.all (fun c => decide (c.1 < depth))

/-- What the cell `BUF[i]` holds: the byte written since the last reset, or the free value (R42; D17; log 7). -/
def State.bufByte (s : State) (i : Nat) : Byte :=
  match Memory.lookup s.buf i with
  | some v => v
  | none => Config.bufAtReset s.resets i

/-- `MemRead(i, 1)` (R50): nothing where the index does not exist. -/
def State.memRead (s : State) (i : Nat) : Option Byte :=
  if i < s.cfg.bufDepth then some (s.bufByte i) else none

/-- `MemWrite(i, 1, v)` (R50): nothing where the index does not exist. -/
def State.memWrite (s : State) (i : Nat) (v : Byte) : Option State :=
  if i < s.cfg.bufDepth then some { s with buf := Memory.store s.buf i v } else none

/-- `BUF[0 .. n-1]`, index 0 first. -/
def State.bufPrefix (s : State) (n : Nat) : List Byte := (List.range n).map s.bufByte

/-- The payload bytes the host has placed in BUF for a command with this payload plan (R131, R181). -/
def State.placed (s : State) : Src → Nat → List Byte
  | .buf, n => s.bufPrefix n
  | .key, _ | .none, _ => []

/-- The byte PAY_TX sends: `(SRC = BUF) ? MemRead(IDX, 1) : ACTIVATE_KEY` (R105). -/
def State.payByte (s : State) : Option Byte :=
  match s.src with
  | .buf => s.memRead s.idx
  | .key | .none => some activateKey

end Sys2Proof.Machine
end

