-- ==== Sys2Proof/Machine/Companion.lean ====
section
/-! DEFINITION. Companion: the host's pure data helpers (45_companion_codecs.md): the BitField codec (R171 to R175), the
Pipe Address Model (R177 to R183) and the Register Descriptor (R176, R181). They touch no engine state. -/

namespace Sys2Proof.Machine

/-! ## BitField codec -/

/-- The one error of the codec, RangeError, also called OutOfRange (R12, R202). -/
inductive RangeError where
  | outOfRange
  deriving DecidableEq, Repr

/-- `M >> s` of R175: the largest value of the field. -/
def Field.max (f : Field) : Nat := 2 ^ f.width - 1

/-- `M` of R175: the field's bits set. -/
def Field.mask (f : Field) : Byte := BitVec.ofNat 8 f.max <<< f.shift

/-- A field of a one-byte register: at least one bit, all inside the byte (R175). -/
def Field.WellFormed (f : Field) : Bool := decide (1 ≤ f.width ∧ f.shift + f.width ≤ 8)

/-- `decode(raw) = (raw & M) >> s` (R172, R175); total. -/
def Field.decode (f : Field) (raw : Byte) : Nat := ((raw &&& f.mask) >>> f.shift).toNat

/-- `encode(current, v)`: RangeError where `v > (M >> s)`, else `(current & ~M) | (v << s)` (R173, R175). -/
def Field.encode (f : Field) (current : Byte) (v : Nat) : Except RangeError Byte :=
  if v > f.max then .error .outOfRange
  else .ok ((current &&& ~~~f.mask) ||| (BitVec.ofNat 8 v <<< f.shift))

/-- The Power Level field, bits 2:1 (R171). -/
def powerLevelField : Field := { shift := 1, width := 2 }

/-- The four logical power levels (R171). -/
inductive PowerLevel where
  | min | low | medium | max
  deriving DecidableEq, Repr

/-- Their ordinals (R171). -/
def PowerLevel.ordinal : PowerLevel → Nat
  | .min => 0
  | .low => 1
  | .medium => 2
  | .max => 3

/-! ## Pipe Address Model -/

/-- The address of a full pipe: `get()` (R179). -/
def Pipes.getFull (p : Pipes) : FullPipe → List Byte
  | .p0 => p.full0
  | .p1 => p.full1

/-- `set(bytes)` of a full pipe "replaces it wholesale" (R179). -/
def Pipes.setFull (p : Pipes) : FullPipe → List Byte → Pipes
  | .p0, a => { p with full0 := a }
  | .p1, a => { p with full1 := a }

/-- The own byte of a partial pipe (R177). -/
def Pipes.own (p : Pipes) : PartialPipe → Byte
  | .p2 => p.own2
  | .p3 => p.own3
  | .p4 => p.own4
  | .p5 => p.own5

/-- `set(byte)` of a partial pipe "mutates only that byte" (R180). -/
def Pipes.setOwn (p : Pipes) : PartialPipe → Byte → Pipes
  | .p2, b => { p with own2 := b }
  | .p3, b => { p with own3 := b }
  | .p4, b => { p with own4 := b }
  | .p5, b => { p with own5 := b }

/-- `get()` of a partial pipe: `full[1][1:] ++ [own[p]]`, computed on demand (R180; 90_conflicts.md C2). -/
def Pipes.getPartial (p : Pipes) (q : PartialPipe) : List Byte := p.full1.drop 1 ++ [p.own q]

/-! ## Register Descriptor -/

/-- The widths a register can have: "1 byte for most control registers, up to 5 for address registers" (R176). -/
def RegDesc.WellFormed (r : RegDesc) : Bool := decide (1 ≤ r.raw.length ∧ r.raw.length ≤ 5)

/-- `rawValue <- v`, for a `v` of the register's own width, which is fixed (R176). -/
def RegDesc.hold (r : RegDesc) (v : List Byte) : RegDesc := if v.length = r.raw.length then { r with raw := v } else r

/-- `rawValue` after a command with code `op` and opcode byte `opc` that ends with `err`: after a successful RDREG of this
address and width the bytes it has left in BUF, `left`; after a successful WRREG the bytes the host had placed there,
`placed`; after any other command, or an error, unchanged (R181). -/
def RegDesc.result (c : Config) (op : Op) (opc : Byte) (err : Bool) (left placed : List Byte) (r : RegDesc) : RegDesc :=
  if err then r
  else
    match op with
    | .rdreg => if opc = opcodeOf c .rdreg r.addr then r.hold left else r
    | .wrreg => if opc = opcodeOf c .wrreg r.addr then r.hold placed else r
    | .rdpay | .wrpay | .flushtx | .flushrx | .nop | .activate => r

end Sys2Proof.Machine
end

