-- ==== Sys2Proof/Machine/Flags.lean ====
section
/-! DEFINITION. Flags: `ERR`, the block's only flag (10_state.md R27), and the predicates that play a flag's part: busy
(R28), waiting for XPORT (R31), buffer ownership (20_memory.md R65). There are no condition codes. -/

namespace Sys2Proof.Machine

/-- ERR cleared, by ACCEPT (R27). -/
def State.clearErr (s : State) : State := { s with err := false }

/-- ERR set, by a failed exchange (R27, R201). -/
def State.setErr (s : State) : State := { s with err := true }

/-- Busy: `PHASE != IDLE` (R28). -/
def State.busy (s : State) : Bool := s.phase != .idle

/-- A command is in progress: accepted, not yet reported (R24). -/
def Phase.inFrame : Phase → Bool
  | .settle | .idle => false
  | .sel | .opcTx | .opcRx | .payTx | .payRx | .desel | .done => true

/-- The phases in which chip-select is low (R24, R43). -/
def Phase.selected : Phase → Bool
  | .opcTx | .opcRx | .payTx | .payRx | .desel => true
  | .settle | .idle | .sel | .done => false

/-- The phases that hold until XPORT answers (R24, R115). -/
def Phase.waiting : Phase → Bool
  | .opcRx | .payRx => true
  | .settle | .idle | .sel | .opcTx | .payTx | .desel | .done => false

/-- The phases of the payload loop (R25). -/
def Phase.payload : Phase → Bool
  | .payTx | .payRx => true
  | .settle | .idle | .sel | .opcTx | .opcRx | .desel | .done => false

/-- The engine owns `BUF[i]`: from ACCEPT to RSP, for the cells of the payload (R65). -/
def State.owns (s : State) (i : Nat) : Bool :=
  s.phase.inFrame && s.src == .buf && decide (i < s.npay)

end Sys2Proof.Machine
end

