-- ==== Sys2Proof/Machine/Ops.lean ====
section
/-! DEFINITION. Ops: the named operations the steps are made of: the two lines, the exchange, the STATUS capture, the store
of a returned byte, the command latch, the error path (taking a BusError) and the return from it, what the host keeps of its
command, and RESET. -/

namespace Sys2Proof.Machine

/-- The outcome of one step. -/
abbrev Out := Host.Outcome State Fault Refusal

/-- One more visible event (R11). -/
def State.emit (s : State) (o : Obs) : State := { s with trace := s.trace ++ [o] }

/-- `PHASE <- p` (R10). -/
def State.goto (s : State) (p : Phase) : State := { s with phase := p }

/-- `chipSelect.setLow()`, `chipSelect.setHigh()`: drive CSN (R10, R37; log 21). -/
def State.driveCsn (s : State) (l : Level) : State := { s.emit (.csn l) with csn := l }

/-- Emit `XREQ(tx)`: one exchange is now outstanding (R36). -/
def State.request (s : State) (tx : Byte) : State := { s.emit (.xreq tx) with xreq := some tx }

/-- Consume `XRSP(rx, e)`: no exchange is outstanding (R36). -/
def State.answered (s : State) (rx : Byte) (e : Bool) : State := { s.emit (.xrsp rx e) with xreq := none }

/-- `STATUS <- rx` (R21). -/
def State.capture (s : State) (rx : Byte) : State := { s with status := rx }

/-- `IDX <- i` (R25). -/
def State.setIdx (s : State) (i : Nat) : State := { s with idx := i }

/-- Store a returned payload byte over the byte just sent: `BUF[IDX] <- rx` where the payload is the buffer, dropped
otherwise (R58, R106; D12). -/
def State.storeReturned (s : State) (rx : Byte) : Option State :=
  match s.src with
  | .buf => s.memWrite s.idx rx
  | .key | .none => some s

/-- TAKING A BUSERROR, the error path (R204): ERR set, no further request, on to DESELECT. Nothing is saved and nothing is
vectored. The way back is `deselect` and `respond` of Sequencer.lean, as after success (R207). -/
def State.busError (s : State) : State := s.setErr.goto .desel

/-- The command latch (R26), written once, by ACCEPT: `OP`, `OPC = OpcodeOf(op, addr)`, `(SRC, NPAY) = PayloadOf(op, len)`.
-/
def State.latch (s : State) (i : Instr) : State :=
  { s with op := i.op, opc := i.opcode s.cfg, src := (plan i).1, npay := (plan i).2 }

/-- The host keeps its own copy of the bytes it placed for the command of the latch (R131, R181, R244; log 19). -/
def State.keepPlaced (s : State) : State := { s with host := { s.host with copy := s.placed s.src s.npay } }

/-- The host brings its Register Descriptors up to date with the command of the latch, as its result comes (R181; log 19).
-/
def State.noteResult (s : State) : State :=
  { s with host := { s.host with
      regs := s.host.regs.map (RegDesc.result s.cfg s.op s.opc s.err (s.bufPrefix s.npay) s.host.copy) } }

/-- `RESET` (R230): CSN high (a visible edge where it was low), CE low, ERR 0, SETTLE; an outstanding request abandoned; no
`RSP`. What R42 leaves unspecified is as in `State.afterReset` (log 5 to 8). A message on the port stays offered (log 8). -/
def State.takeReset (s : State) : State :=
  { State.afterReset s.cfg (s.resets + 1) with
    cmd := s.cmd
    agenda := s.agenda
    trace := s.trace ++ [.reset] ++ (if s.csn = .low then [.csn .high] else []) }

end Sys2Proof.Machine
end

