-- ==== Sys2Proof/Machine/HostPort.lean ====
section
/-! DEFINITION. HostPort: what HOST can do (10_state.md R33): offer a command (R34), read STATUS (R40), read and write BUF
(R41), and use its companion data (45_companion_codecs.md). -/

namespace Sys2Proof.Machine

/-- A host access to `BUF[i]`: the index must exist (log 13), and the engine must not own the cell (R65, R243; log 12). -/
def hostBuf (i : Nat) (s : State) (act : Out) : Out :=
  if s.cfg.bufDepth ≤ i then .fault (.bufIndexOutOfRange i)
  else if s.owns i then .refused (.hostTouchedOwnedBuffer i)
  else act

/-- `BUF[i] <- v` by the host (R41). -/
def hostWrite (i : Nat) (v : Byte) (s : State) : Out :=
  hostBuf i s (.next { s with buf := Memory.store s.buf i v })

/-- Steps 2 and 3 of R178, in that order: `new = encode(cur, level)`, with RangeError and nothing changed where the level is
out of range (R173, R202), whoever owns the cell then; only after it `BUF[i] <- new`, a host write. DESIGN CHOICE: a field
that names no mask inside the byte is refused before that (R175 says nothing of one; log 32). -/
def hostEncode (i : Nat) (f : Field) (cur : Byte) (level : Nat) (s : State) : Out :=
  if f.WellFormed then
    match f.encode cur level with
    | .ok b => hostWrite i b s
    | .error _ => .next (s.emit .rangeError)
  else .refused (.fieldOutsideByte f)

/-- One act of the host. `encodeBuf` starts with a host read of the cell, so a cell that does not exist or that the engine
owns stops it before its level is looked at; `encodeReg` starts from the shadow and touches BUF only to write (DESIGN
CHOICE, log 30). -/
def hostStep (a : HostAct) (s : State) : Out :=
  match a with
  | .offer d => .next { s with cmd := some d }
  | .writeBuf i v => hostWrite i v s
  | .readBuf i => hostBuf i s (.next (s.emit (.bufRead i (s.bufByte i))))
  | .readStatus => .next (s.emit (.statusRead s.status))
  | .setFull p bytes =>
    if bytes.length = s.cfg.nAddr then .next { s with host := { s.host with pipes := s.host.pipes.setFull p bytes } }
    else .refused (.pipeAddressWrongLength bytes.length)
  | .setOwn p b => .next { s with host := { s.host with pipes := s.host.pipes.setOwn p b } }
  | .getFull p => .next (s.emit (.pipeAddr (s.host.pipes.getFull p)))
  | .getPartial p => .next (s.emit (.pipeAddr (s.host.pipes.getPartial p)))
  | .newReg r =>
    if r.WellFormed then .next { s with host := { s.host with regs := s.host.regs ++ [r] } }
    else .refused (.registerWidth r.raw.length)
  | .encodeBuf i f level => hostBuf i s (hostEncode i f (s.bufByte i) level s)
  | .encodeReg k f level =>
    match s.host.regs[k]? with
    | some { raw := cur :: _, .. } => hostEncode 0 f cur level s
    | _ => .next s

end Sys2Proof.Machine
end

