-- ==== Sys2Proof/Machine/Sequencer.lean ====
section
/-! DEFINITION. Sequencer: the atomic steps of the Command Pump (40_pump_sequencer.md R101 to R108), the environment's
events between them, and the run of one command's frame (R100). -/

namespace Sys2Proof.Machine

/-! ## The engine's steps -/

/-- ACCEPT (R101): consume the message, latch the command, clear ERR; the host keeps its copy of what it placed in BUF. The
guard is `canAccept`. -/
def accept (i : Instr) (s : State) : State :=
  ({ (s.latch i).keepPlaced.clearErr.emit (.cmd i) with cmd := none }).goto .sel

/-- The guard of ACCEPT (R101): IDLE, and the command is admitted. -/
def canAccept (i : Instr) (s : State) : Bool := s.phase == .idle && admitted s.cfg i

/-- SELECT (R102): chip-select low. -/
def select (s : State) : State := (s.driveCsn .low).goto .opcTx

/-- OPC_TX (R103): send the opcode byte. -/
def opcTx (s : State) : State := (s.request s.opc).goto .opcRx

/-- OPC_RX (R104), on `XRSP(rx, e)`: capture STATUS and go to the last payload index, or to DESELECT where there is no
payload; on an error take the error path. STATUS then keeps its value unless `STORE_ON_ERROR` (D9; log 10). -/
def opcRx (rx : Byte) (e : Bool) (s : State) : State :=
  let t := s.answered rx e
  if e then (if t.cfg.storeOnError then t.capture rx else t).busError
  else if 1 ≤ t.npay then ((t.capture rx).setIdx (t.npay - 1)).goto .payTx
  else (t.capture rx).goto .desel

/-- PAY_TX (R105): send `BUF[IDX]` or the key. -/
def payTx (s : State) : Out :=
  match s.payByte with
  | some tx => .next ((s.request tx).goto .payRx)
  | none => .fault (.bufIndexOutOfRange s.idx)

/-- PAY_RX (R106), on `XRSP(rx, e)`: store the returned byte at the same index and go to the next lower one, or to DESELECT
after index 0; on an error take the error path. `BUF[IDX]` then keeps the sent byte unless `STORE_ON_ERROR` (D10; log 10).
-/
def payRx (rx : Byte) (e : Bool) (s : State) : Out :=
  let t := s.answered rx e
  if e && !t.cfg.storeOnError then .next t.busError
  else
    match t.storeReturned rx with
    | none => .fault (.bufIndexOutOfRange s.idx)
    | some u =>
      if e then .next u.busError
      else if u.idx = 0 then .next (u.goto .desel)
      else .next ((u.setIdx (u.idx - 1)).goto .payTx)

/-- DESELECT (R107): chip-select high, on every path. -/
def deselect (s : State) : State := (s.driveCsn .high).goto .done

/-- RESPOND (R108): report `RSP(STATUS, ERR)`, with which the host brings its descriptors up to date (R181); the host owns
BUF again. -/
def respond (s : State) : State :=
  ({ s.noteResult.emit (.rsp s.status s.err) with rsp := some (s.status, s.err) }).goto .idle

/-- SETTLED (R231), delivered `us` microseconds after the reset: SETTLE ends, if `T_SETTLE` has passed (R38; log 9). In any
other phase the event does not exist and is dropped. -/
def settled (us : Nat) (s : State) : State :=
  if s.phase = .settle ∧ s.cfg.tSettle ≤ us then (s.emit .settled).goto .idle else s

/-! ## Whose turn it is -/

/-- What happens next: a command is accepted, or one atomic step is taken. -/
inductive Turn where
  | command (i : Instr) (s : State)
  | atomic (o : Out)

/-- The one step the engine can take of its own (R110: at most one in every phase); `none` where it holds: in SETTLE, in
OPC_RX and PAY_RX until XPORT answers (R115), in IDLE until an admitted command is offered (R101). A message that spells no
command stops the machine there (R75; log 25). -/
def engineTurn (s : State) : Option Turn :=
  match s.phase with
  | .settle | .opcRx | .payRx => none
  | .idle =>
    match s.cmd with
    | none => none
    | some d =>
      match decodeDescriptor s.cfg d with
      | .ok i => if admitted s.cfg i then some (.command i s) else none
      | .error e => some (.atomic (.refused (.badCommand e)))
  | .sel => some (.atomic (.next (select s)))
  | .opcTx => some (.atomic (.next (opcTx s)))
  | .payTx => some (.atomic (payTx s))
  | .desel => some (.atomic (.next (deselect s)))
  | .done => some (.atomic (.next (respond s)))

/-- The engine takes its step, or holds (R120: the state stays as it is). -/
def engineMove (s : State) : Turn :=
  match engineTurn s with
  | some t => t
  | none => .atomic (.next s)

/-- One event of the environment, taken off the agenda. An `XRSP` that answers no outstanding
request is discarded (R42, R230; log 11). -/
def envStep (e : EnvEvent) (s : State) : Out :=
  match e with
  | .pass => .next s
  | .reset => .next s.takeReset
  | .settled us => .next (settled us s)
  | .xrsp rx err =>
    match s.phase with
    | .opcRx => .next (opcRx rx err s)
    | .payRx => payRx rx err s
    | .settle | .idle | .sel | .opcTx | .payTx | .desel | .done => .next s
  | .xrspLate _ _ => .next s
  | .host a | .hostNow a => hostStep a s

/-- The next event of an agenda does not come before the engine's own step: it is no reset, no `pass` and no immediate act
of the host. -/
def calm : List EnvEvent → Bool
  | .reset :: _ | .pass :: _ | .hostNow _ :: _ => false
  | _ => true

/-- The agenda's next event, if it is due. RESET overrides everything (R206); the host may act at once, as R40 lets it read
STATUS; `pass` gives the engine the move; any other event waits while the engine has a step of its own (log 2). -/
def turn (s : State) : Turn :=
  match s.agenda with
  | [] => engineMove s
  | .reset :: r => .atomic (envStep .reset { s with agenda := r })
  | .hostNow a :: r => .atomic (envStep (.hostNow a) { s with agenda := r })
  | .pass :: r => engineMove { s with agenda := r }
  | e :: r =>
    match engineTurn s with
    | some t => t
    | none => .atomic (envStep e { s with agenda := r })

/-- One atomic step of the whole system: a step of R110, or an event of another agent. -/
def tick (s : State) : Out :=
  match turn s with
  | .command i t => .next (accept i t)
  | .atomic o => o

/-! ## One command -/

/-- XPORT does not answer for now: nothing more happens, or the host acts first. -/
def silent : List EnvEvent → Bool
  | [] => true
  | .host _ :: _ => true
  | _ => false

/-- The host acts before anything else happens. -/
def interrupted : List EnvEvent → Bool
  | .hostNow _ :: _ => true
  | _ => false

/-- The frame goes no further for now: the host acts at once, by a step of its own; or the engine waits for XPORT, and XPORT
is silent (R115). -/
def State.stalled (s : State) : Bool := interrupted s.agenda || (s.phase.waiting && silent s.agenda)

/-- The atomic steps of an accepted command, at most `k` of them: until it has been reported (IDLE) or cut by a reset
(SETTLE), or until it stalls. -/
def runFrame : Nat → State → Out
  | 0, s => .next s
  | k + 1, s =>
    if !s.phase.inFrame || s.stalled then .next s
    else
      match tick s with
      | .next t => runFrame k t
      | .fault f => .fault f
      | .refused r => .refused r

/-- As many atomic steps as a command just accepted can take: one for SELECT, two for each exchange, two for DESELECT and
RESPOND, and one for each event of the agenda. -/
def frameFuel (s : State) : Nat := s.agenda.length + 2 * s.npay + 5

/-- The meaning all eight commands share (R100: "execute exactly one SPI-level transaction per invocation"): where ACCEPT is
enabled, accept the command and run its frame; otherwise the message is not consumed and nothing happens (R101; log 24). -/
def runCommand (i : Instr) (s : State) : Out :=
  if canAccept i s then runFrame (frameFuel (accept i s)) (accept i s) else .next s

end Sys2Proof.Machine
end

