-- ==== Sys2Proof/Machine/ControlCommands.lean ====
section
/-! DEFINITION. The control commands (43_control_commands.md). -/

namespace Sys2Proof.Machine

/-- `FLUSHTX` (R150): `Pump(OPC_FLUSH_TX, NONE, 0)`. -/
def execFlushtx (s : State) : Out := runCommand .flushtx s

/-- `FLUSHRX` (R151): `Pump(OPC_FLUSH_RX, NONE, 0)`. -/
def execFlushrx (s : State) : Out := runCommand .flushrx s

/-- `NOP` (R152): `Pump(OPC_NOP, NONE, 0)`. -/
def execNop (s : State) : Out := runCommand .nop s

/-- `ACTIVATE` (R153): `Pump(OPC_ACTIVATE, KEY, 1)`. -/
def execActivate (s : State) : Out := runCommand .activate s

end Sys2Proof.Machine
end

