-- ==== Sys2Proof/Machine/PayloadCommands.lean ====
section
/-! DEFINITION. The payload commands (42_payload_commands.md). -/

namespace Sys2Proof.Machine

/-- `RDPAY len` (R140): `Pump(OPC_R_RX_PAYLOAD, BUF, L)`. -/
def execRdpay (len : Nat) (s : State) : Out := runCommand (.rdpay len) s

/-- `WRPAY len` (R141): `Pump(OPC_W_TX_PAYLOAD, BUF, L)`. -/
def execWrpay (len : Nat) (s : State) : Out := runCommand (.wrpay len) s

end Sys2Proof.Machine
end

