-- ==== Sys2Proof/Machine/RegisterCommands.lean ====
section
/-! DEFINITION. The register commands (41_register_commands.md). -/

namespace Sys2Proof.Machine

/-- `RDREG addr, len` (R130): `Pump(OPC_R_REGISTER | zext_8(addr), BUF, L)`. -/
def execRdreg (addr : RegAddr) (len : Nat) (s : State) : Out := runCommand (.rdreg addr len) s

/-- `WRREG addr, len` (R131): `Pump(OPC_W_REGISTER | zext_8(addr), BUF, L)`. -/
def execWrreg (addr : RegAddr) (len : Nat) (s : State) : Out := runCommand (.wrreg addr len) s

end Sys2Proof.Machine
end

