-- ==== Sys2Proof/Machine/Dispatch.lean ====
section
/-! DEFINITION. Dispatch: one arm per command, each one call of its meaning. -/

namespace Sys2Proof.Machine

def exec (i : Instr) (s : State) : Host.Outcome State Fault Refusal :=
  match i with
  | .rdreg addr len => Sys2Proof.Machine.execRdreg addr len s
  | .wrreg addr len => Sys2Proof.Machine.execWrreg addr len s
  | .rdpay len => Sys2Proof.Machine.execRdpay len s
  | .wrpay len => Sys2Proof.Machine.execWrpay len s
  | .flushtx => Sys2Proof.Machine.execFlushtx s
  | .flushrx => Sys2Proof.Machine.execFlushrx s
  | .nop => Sys2Proof.Machine.execNop s
  | .activate => Sys2Proof.Machine.execActivate s

end Sys2Proof.Machine
end

