-- ==== Sys2Proof/Machine/Fetch.lean ====
section
/-! DEFINITION. Fetch: how a command given from outside comes to stand where the engine takes its next one, the command
port (10_state.md R34). -/

namespace Sys2Proof.Machine

/-- The message for a table word. The engine decodes no wire byte (R78), so the port gets the message of the command the
word spells; for a word that spells none, a message with command code 8, which the engine refuses by name (R75; log 15). -/
def offerOfTableWord (nbits w : Nat) : Descriptor :=
  match decodeTableWord nbits w with
  | some i => encodeDescriptor i
  | none => { op := 8, addr := 0, len := 0 }

/-- The engine idle, with a message on the port, and neither a RESET nor an act of the host before it is looked at. -/
def State.withOffer (s : State) (d : Descriptor) : State :=
  { s with
    phase := .idle
    cmd := some d
    agenda := match s.agenda with
      | .reset :: _ | .hostNow _ :: _ => .pass :: s.agenda
      | _ => s.agenda }

end Sys2Proof.Machine
end

