-- ==== Sys2Proof/Machine/Step.lean ====
section
/-! DEFINITION. Step: one step of the machine, and where a command is put so that the next step runs it. -/

namespace Sys2Proof.Machine

/-- One step: the command the engine accepts is run, its whole frame; otherwise one atomic step is taken (log 1). -/
def step (s : State) : Host.Outcome State Fault Refusal :=
  match turn s with
  | .command i t => exec i t
  | .atomic o => o

/-- The command of a table word offered on the command port of an idle engine (log 15). -/
def State.withFetchWord (s : State) (nbits w : Nat) : State := s.withOffer (offerOfTableWord nbits w)

end Sys2Proof.Machine
end

