-- ==== Sys2Proof/Safety.lean ====
section
/-! DEFINITION. Safety: what the claims are stated in. The reachable-state invariant of R43; the complete transition table
of R110; the wire protocol, as a monitor that reads the visible events; the pump of R100 as one procedure over XPORT's
answers, with no phases; the order of the bytes on the wire; and the events of an undisturbed frame. No definition here is
used by the machine. -/

namespace Sys2Proof.Machine

/-! ## The invariant of R43 -/

/-- R43, clause by clause, with BUF in its canonical form (R50). `empty` is the one clause R43 does not list: a plan without
a source has no payload (R77). -/
structure Inv (s : State) : Prop where
  csn : s.csn = .low ↔ s.phase.selected = true
  outstanding : s.xreq.isSome = true ↔ s.phase.waiting = true
  payload : s.phase.payload = true → s.src ≠ .none ∧ 1 ≤ s.npay ∧ s.idx < s.npay
  depth : s.src = .buf → s.npay ≤ s.cfg.bufDepth
  key : s.src = .key → s.npay = 1
  empty : s.src = .none → s.npay = 0
  ce : s.ce = .low
  buf : Memory.wf s.cfg.bufDepth s.buf = true

/-- The two full pipe addresses have `N_ADDR` bytes (R177). -/
abbrev PipesOk (s : State) : Prop :=
  s.host.pipes.full0.length = s.cfg.nAddr ∧ s.host.pipes.full1.length = s.cfg.nAddr

/-- Every Register Descriptor has a width a register can have (R176). -/
abbrev RegsOk (s : State) : Prop := ∀ r ∈ s.host.regs, r.WellFormed = true

/-! ## The host's turn -/

/-- The host takes its act `a` next, and `r` is what comes after it: at once, in any phase, or where the engine holds. -/
abbrev HostTurn (s : State) (a : HostAct) (r : List EnvEvent) : Prop :=
  s.agenda = .hostNow a :: r ∨ (s.agenda = .host a :: r ∧ engineTurn s = none)

/-! ## The transition table of R110 -/

/-- One line of R110's table, from `p` to `q`, with its condition on the event and on `NPAY` and `IDX` where it has one. -/
inductive Transition (s : State) : Phase → Phase → Prop where
  | settled (us : Nat) (r : List EnvEvent) : s.agenda = .settled us :: r → s.cfg.tSettle ≤ us → Transition s .settle .idle
  | accept (d : Descriptor) (i : Instr) : s.cmd = some d → decodeDescriptor s.cfg d = .ok i → admitted s.cfg i = true →
      Transition s .idle .sel
  | select : Transition s .sel .opcTx
  | opcTx : Transition s .opcTx .opcRx
  | opcRxPayload (rx : Byte) (r : List EnvEvent) : s.agenda = .xrsp rx false :: r → 1 ≤ s.npay → Transition s .opcRx .payTx
  | opcRxEmpty (rx : Byte) (r : List EnvEvent) : s.agenda = .xrsp rx false :: r → s.npay = 0 → Transition s .opcRx .desel
  | opcRxError (rx : Byte) (r : List EnvEvent) : s.agenda = .xrsp rx true :: r → Transition s .opcRx .desel
  | payTx : Transition s .payTx .payRx
  | payRxNext (rx : Byte) (r : List EnvEvent) : s.agenda = .xrsp rx false :: r → 1 ≤ s.idx → Transition s .payRx .payTx
  | payRxLast (rx : Byte) (r : List EnvEvent) : s.agenda = .xrsp rx false :: r → s.idx = 0 → Transition s .payRx .desel
  | payRxError (rx : Byte) (r : List EnvEvent) : s.agenda = .xrsp rx true :: r → Transition s .payRx .desel
  | deselect : Transition s .desel .done
  | respond : Transition s .done .idle
  | reset (p : Phase) (r : List EnvEvent) : s.agenda = .reset :: r → Transition s p .settle

/-- The atomic steps of `tick`, `n` of them. -/
def ticks : Nat → State → Out
  | 0, s => .next s
  | n + 1, s =>
    match tick s with
    | .next t => ticks n t
    | .fault f => .fault f
    | .refused r => .refused r

/-! ## The wire protocol, as a monitor of the visible events -/

/-- Where a bus monitor stands. `k` counts the exchanges of the frame that have succeeded, `first` is the byte returned by
the opcode exchange, `n` the number of payload bytes. -/
inductive Stage where
  /-- After a reset: nothing is accepted. -/
  | settling
  | idle
  /-- A command has been consumed; chip-select is still high. -/
  | accepted (opc : Byte) (src : Src) (n : Nat)
  /-- Chip-select is low; nothing has been sent. -/
  | selected (opc : Byte) (src : Src) (n : Nat)
  /-- The opcode byte is out. -/
  | sentOpcode (src : Src) (n : Nat)
  /-- A payload byte is out. -/
  | sentPayload (src : Src) (n k : Nat) (first : Byte)
  /-- The last exchange succeeded. -/
  | answered (src : Src) (n k : Nat) (first : Byte)
  /-- An exchange failed. -/
  | failed
  /-- Chip-select is high again: `some first` after full success, `none` after a failure. -/
  | released (ok : Option Byte)
  /-- A reset has come while chip-select was low. -/
  | cut
  deriving DecidableEq, Repr

/-- A reset, seen from a stage: chip-select must rise at once where it is low (R230). -/
def Stage.onReset : Stage → Option Stage
  | .cut => none
  | .selected _ _ _ | .sentOpcode _ _ | .sentPayload _ _ _ _ | .answered _ _ _ _ | .failed => some .cut
  | .settling | .idle | .accepted _ _ _ | .released _ => some .settling

/-- A command consumed, seen from a stage (R101). -/
def Stage.onCmd (c : Config) (i : Instr) : Stage → Option Stage
  | .idle => some (.accepted (i.opcode c) (plan i).1 (plan i).2)
  | _ => none

/-- Chip-select falling, seen from a stage (R102). -/
def Stage.onLow : Stage → Option Stage
  | .accepted opc src n => some (.selected opc src n)
  | _ => none

/-- Chip-select rising, seen from a stage (R107, R118, R230). -/
def Stage.onHigh : Stage → Option Stage
  | .answered _ n k first => if k = n + 1 then some (.released (some first)) else none
  | .failed => some (.released none)
  | .cut => some .settling
  | _ => none

/-- A request, seen from a stage (R103, R105). -/
def Stage.onRequest (tx : Byte) : Stage → Option Stage
  | .selected opc src n => if tx = opc then some (.sentOpcode src n) else none
  | .answered src n k first =>
    if k ≤ n ∧ (src = .key → tx = activateKey) then some (.sentPayload src n k first) else none
  | _ => none

/-- An answer, seen from a stage (R104, R106). -/
def Stage.onAnswer (rx : Byte) (err : Bool) : Stage → Option Stage
  | .sentOpcode src n => some (if err then .failed else .answered src n 1 rx)
  | .sentPayload src n k first => some (if err then .failed else .answered src n (k + 1) first)
  | _ => none

/-- A result, seen from a stage (R108). -/
def Stage.onResult (st : Byte) (err : Bool) : Stage → Option Stage
  | .released ok => if (if err then ok = none else ok = some st) then some .idle else none
  | _ => none

/-- The settling delay over, seen from a stage (R231). -/
def Stage.onSettled : Stage → Option Stage
  | .settling => some .idle
  | _ => none

/-- The monitor takes one event; `none` where the protocol does not allow it. A command is consumed only in idle (R101);
chip-select falls once, before any request (R102, R114); the opcode byte goes first (R53, R103); every request follows the
answer to the one before (R36, R61); the key byte is `0x73` (R77); exactly `1 + n` exchanges on success (R118), and none
after a failure (R201); chip-select rises once (R107), and only then is the result reported (R35): with the byte of the
opcode exchange, or an error (R108). A reset may come at any point (R39). What the host reads changes nothing (R40). -/
def watch (c : Config) (g : Stage) : Obs → Option Stage
  | .reset => g.onReset
  | .settled => g.onSettled
  | .cmd i => g.onCmd c i
  | .csn .low => g.onLow
  | .csn .high => g.onHigh
  | .xreq tx => g.onRequest tx
  | .xrsp rx err => g.onAnswer rx err
  | .rsp st err => g.onResult st err
  | .statusRead _ | .bufRead _ _ | .pipeAddr _ | .rangeError => some g

/-- The monitor takes a list of events. -/
def watchAll (c : Config) : Stage → List Obs → Option Stage
  | g, [] => some g
  | g, o :: os =>
    match watch c g o with
    | some h => watchAll c h os
    | none => none

/-- Where the monitor must stand, read off the registers. -/
def stageOf (s : State) : Stage :=
  match s.phase with
  | .settle => .settling
  | .idle => .idle
  | .sel => .accepted s.opc s.src s.npay
  | .opcTx => .selected s.opc s.src s.npay
  | .opcRx => .sentOpcode s.src s.npay
  | .payTx => .answered s.src s.npay (s.npay - s.idx) s.status
  | .payRx => .sentPayload s.src s.npay (s.npay - s.idx) s.status
  | .desel => if s.err then .failed else .answered s.src s.npay (s.npay + 1) s.status
  | .done => .released (if s.err then none else some s.status)

/-- The events so far obey the protocol, and the monitor stands where the registers say. -/
abbrev OnProtocol (s : State) : Prop := watchAll s.cfg .settling s.trace = some (stageOf s)

/-- A command in progress holds ERR clear until an exchange has failed (R27). -/
abbrev ErrOk (s : State) : Prop := s.phase.inFrame = true → s.phase ≠ .desel → s.phase ≠ .done → s.err = false

/-! ## The order of the payload bytes on the wire -/

/-- The bytes sent since the latest `CMD` was consumed, the first sent first. -/
def sentSinceCommand : List Obs → List Byte → List Byte
  | [], bs => bs
  | .cmd _ :: os, _ => sentSinceCommand os []
  | .xreq tx :: os, bs => sentSinceCommand os (bs ++ [tx])
  | _ :: os, bs => sentSinceCommand os bs

/-- The bytes of the whole frame in the order of the wire: the opcode byte (R53), then the payload the host placed, the last
index first (R52), or the key (R77). -/
def State.frameBytes (s : State) : List Byte :=
  s.opc :: (match s.src with
    | .buf => s.host.copy.reverse
    | .key => [activateKey]
    | .none => [])

/-- The frame in progress sends the bytes of `frameBytes`, in that order: `k` of them so far, a number that PHASE and IDX
tell, and all of them where it has come to its end without an error. The cells of the payload not yet exchanged hold what
the host placed in them. -/
structure InOrder (s : State) : Prop where
  placed : s.phase.inFrame = true → s.src = .buf → s.host.copy.length = s.npay
  unsent : s.phase.inFrame = true → s.phase ≠ .desel → s.phase ≠ .done → s.src = .buf →
    ∀ j, j < s.npay → (s.phase.payload = true → j ≤ s.idx) → s.host.copy[j]? = some (s.bufByte j)
  sent : s.phase.inFrame = true → ∃ k, k ≤ s.npay + 1 ∧ sentSinceCommand s.trace [] = s.frameBytes.take k ∧
    (s.phase = .sel ∨ s.phase = .opcTx → k = 0) ∧ (s.phase = .opcRx → k = 1) ∧
    (s.phase = .payTx → k + s.idx = s.npay) ∧ (s.phase = .payRx → k + s.idx = s.npay + 1) ∧
    (s.phase = .desel ∨ s.phase = .done → s.err = false → k = s.npay + 1)

/-! ## Which opcode answer was the latest -/

/-- Reads the events in order: whether the next answer is the one to an opcode byte (chip-select has just fallen), and the
latest byte a successful opcode exchange returned since the last reset (R61 e). -/
def opcodeAnswer : List Obs → Bool × Option Byte → Bool × Option Byte
  | [], a => a
  | .csn .low :: os, (_, l) => opcodeAnswer os (true, l)
  | .xrsp rx false :: os, (true, _) => opcodeAnswer os (false, some rx)
  | .xrsp _ true :: os, (true, l) => opcodeAnswer os (false, l)
  | .reset :: os, _ => opcodeAnswer os (false, none)
  | _ :: os, a => opcodeAnswer os a

/-- The latest successful opcode answer since the last reset. -/
def latestSnapshot (os : List Obs) : Option Byte := (opcodeAnswer os (false, none)).2

/-- STATUS holds the byte of the latest successful opcode exchange (R21, R61 e). -/
abbrev StatusCurrent (s : State) : Prop :=
  (opcodeAnswer s.trace (false, none)).1 = (s.phase == .opcTx || s.phase == .opcRx) ∧
  ∀ b, latestSnapshot s.trace = some b → s.status = b

/-! ## The pump of R100, as one procedure -/

/-- What an invocation of the pump does: its wire events from `CSN <- 0` on, the bytes stored (index and byte), STATUS, the
error, whether it came to its end (or hangs on an exchange that is never answered), and the answers left. -/
structure Pumped where
  events : List Obs
  stored : List (Nat × Byte)
  status : Byte
  err : Bool
  ended : Bool
  left : List (Byte × Bool)

/-- Step 3 of R100: indices `n-1 .. 0`, the first failure ending the loop. `tx i` is the byte sent at index `i`. -/
def pumpLoop (tx : Nat → Byte) (st : Byte) : Nat → List (Byte × Bool) → Pumped
  | 0, as => { events := [], stored := [], status := st, err := false, ended := true, left := as }
  | i + 1, [] => { events := [.xreq (tx i)], stored := [], status := st, err := false, ended := false, left := [] }
  | i + 1, (rx, true) :: as =>
    { events := [.xreq (tx i), .xrsp rx true], stored := [], status := st, err := true, ended := true, left := as }
  | i + 1, (rx, false) :: as =>
    let p := pumpLoop tx st i as
    { p with events := .xreq (tx i) :: .xrsp rx false :: p.events, stored := (i, rx) :: p.stored }

/-- `Pump(OPC, SRC, NPAY)` (R100), for `STORE_ON_ERROR` false: `st` is STATUS before, `n` is `NPAY`. -/
def pump (opc : Byte) (tx : Nat → Byte) (n : Nat) (st : Byte) : List (Byte × Bool) → Pumped
  | [] => { events := [.csn .low, .xreq opc], stored := [], status := st, err := false, ended := false, left := [] }
  | (rx, true) :: as =>
    { events := [.csn .low, .xreq opc, .xrsp rx true, .csn .high, .rsp st true], stored := [], status := st, err := true,
      ended := true, left := as }
  | (rx, false) :: as =>
    let p := pumpLoop tx rx n as
    { p with
      events := [.csn .low, .xreq opc, .xrsp rx false] ++ p.events ++
        (if p.ended then [.csn .high, .rsp p.status p.err] else []) }

/-- XPORT's answers as events of the agenda. -/
def answers (as : List (Byte × Bool)) : List EnvEvent := as.map fun a => .xrsp a.1 a.2

/-- XPORT answering each request with success. -/
def successes (rs : List Byte) : List EnvEvent := rs.map fun r => .xrsp r false

/-! ## A frame that ends -/

/-- The payload exchanges of a frame that succeed, from index `n-1` down: `tx i` sent, the next byte of the list returned
(R52, R71). -/
def exchanges (tx : Nat → Byte) : Nat → List Byte → List Obs
  | n + 1, r :: rs => .xreq (tx n) :: .xrsp r false :: exchanges tx n rs
  | _, _ => []

/-- The byte sent at index `i` (R105): of the buffer as the command found it, or the key. -/
def sentByte (s : State) : Src → Nat → Byte
  | .buf, i => s.bufByte i
  | .key, _ | .none, _ => activateKey

/-- `t` is what `s` becomes by a command whose frame ends: the latch holds the command, STATUS is `st`, the result `(st,
err)` is reported, chip-select is high, the engine IDLE; `events` are the exchanges between the two edges, and `rest` is
what is left of the agenda. The host has its copy of the bytes it had placed, and the Register Descriptors follow the result
(R181; log 19). Nothing else changes but IDX, which is unspecified now (R25), and BUF, of which this says nothing. -/
def endsAs (s t : State) (i : Instr) (opc : Byte) (src : Src) (n : Nat) (st : Byte) (err : Bool) (events : List Obs)
    (rest : List EnvEvent) : Prop :=
  t = { s with
    op := i.op, opc := opc, src := src, npay := n, cmd := none, status := st, err := err, csn := .high, phase := .idle,
    xreq := none, rsp := some (st, err), agenda := rest, idx := t.idx, buf := t.buf,
    host := { s.host with
      copy := s.placed src n, regs := s.host.regs.map (RegDesc.result s.cfg i.op opc err (t.bufPrefix n) (s.placed src n)) },
    trace := s.trace ++ [.cmd i, .csn .low] ++ events ++ [.csn .high, .rsp st err] }

/-- BUF after a frame that succeeds: where the payload is the buffer, `BUF[0 .. n-1]` holds the returned bytes, the first
returned at the highest index, and the other cells are as before; otherwise BUF is unchanged (R52, R58, R111). -/
def bufTaken (s t : State) (src : Src) (rs : List Byte) : Prop :=
  (src = .buf → ∀ j, t.bufByte j = (rs.reverse[j]?).getD (s.bufByte j)) ∧ (src ≠ .buf → t.buf = s.buf)

/-- `t` is what `s` becomes by a command all of whose exchanges succeed, XPORT answering `r0` and then `rs` (R111). -/
def succeedsAs (s t : State) (i : Instr) (opc : Byte) (src : Src) (n : Nat) (r0 : Byte) (rs : List Byte)
    (rest : List EnvEvent) : Prop :=
  endsAs s t i opc src n r0 false (.xreq opc :: .xrsp r0 false :: exchanges (sentByte s src) n rs) rest ∧ bufTaken s t src rs

end Sys2Proof.Machine
end

