-- ==== Sys2Proof/Certificates/Slice0/Obligations.lean ====
section
/-! DEFINITION. The statements for the provers. Each docstring says which statement of the spec it formalises. A statement
about every state is meant for every agenda and every configuration, unless it names one. -/

open Sys2Proof
open Sys2Proof.Machine

/-! ## Reset and configuration -/

/-- 10_state.md R42, the values the spec gives: after reset CSN is 1, CE is 0, PHASE is SETTLE, ERR is 0, no exchange is
outstanding, and all bytes of the six pipe addresses are zero, whatever their number (`N_ADDR`, a parameter R7 leaves open,
log 4). Nothing is said of what R42 leaves unspecified. -/
def Obligations.ResetLeavesLinesAndPhase : Prop :=
  State.reset.csn = .high ∧ State.reset.ce = .low ∧ State.reset.phase = .settle ∧ State.reset.err = false ∧
  State.reset.xreq = none ∧
  State.reset.host.pipes = {
    full0 := List.replicate State.reset.cfg.nAddr 0, full1 := List.replicate State.reset.cfg.nAddr 0,
    own2 := 0, own3 := 0, own4 := 0, own5 := 0 }

/-- 00_scope.md R8: the suggested values satisfy the constraints on a configuration. -/
def Obligations.SuggestedConfigAdmitted : Prop := Config.suggested.WellFormed = true

/-- 70_reset_and_hazards.md R230 with 60_exceptions.md R206, for every phase: a `RESET` that is due is taken before anything
else (R206), chip-select goes high, CE low, ERR 0, SETTLE; an outstanding request is abandoned, an answer to it that comes
later is discarded, and no result is reported. The model's own readings: an edge of chip-select is recorded only where it
was low (log 8, 21), and the late answer is an event of its own, discarded in whichever phase the engine holds, also where a
new request is outstanding (log 11). -/
def Obligations.ResetEventTakesAnyPhase : Prop :=
  (∀ (s : State) (r : List EnvEvent), s.agenda = .reset :: r →
    ∃ t, step s = .next t ∧ t.csn = .high ∧ t.ce = .low ∧ t.err = false ∧ t.phase = .settle ∧ t.xreq = none ∧
      t.cfg = s.cfg ∧ t.agenda = r ∧
      t.trace = s.trace ++ [.reset] ++ (if s.csn = .low then [.csn .high] else [])) ∧
  (∀ (s : State) (rx : Byte) (e : Bool) (r : List EnvEvent), engineTurn s = none → s.agenda = .xrspLate rx e :: r →
    step s = .next { s with agenda := r })

/-- 70_reset_and_hazards.md R231, R242, for a settling engine: a `SETTLED` delivered no earlier than `T_SETTLE` ends the
delay and changes nothing else, and no other step leaves SETTLE; so no command is accepted until then. The model's own
choices: an event earlier than `T_SETTLE` is dropped (log 9), and an offer replaces a message that waits (log 3). -/
def Obligations.SettlingDelayHolds : Prop :=
  ∀ (s : State), s.phase = .settle →
    (∀ us r, s.agenda = .settled us :: r → s.cfg.tSettle ≤ us →
      step s = .next { s with phase := .idle, agenda := r, trace := s.trace ++ [.settled] }) ∧
    (∀ us r, s.agenda = .settled us :: r → us < s.cfg.tSettle → step s = .next { s with agenda := r }) ∧
    (s.agenda = [] → step s = .next s) ∧
    (∀ d r, HostTurn s (.offer d) r → step s = .next { s with cmd := some d, agenda := r }) ∧
    (∀ t, step s = .next t → t.phase ≠ .settle →
      t.phase = .idle ∧ ∃ us r, s.agenda = .settled us :: r ∧ s.cfg.tSettle ≤ us)

/-! ## Encodings -/

/-- 95_test_vectors.md 2.1 and 30_encoding.md R85, under the suggested opcode values (general knowledge, log 4): words of
the opcode map decode to the commands they stand for, and a byte no command emits is refused. -/
def Obligations.TableWordsDecode : Prop :=
  decodeTableWord 8 0x0A = some (.rdreg 10 0) ∧ decodeTableWord 8 0x1F = some (.rdreg 31 0) ∧
  decodeTableWord 8 0x2A = some (.wrreg 10 0) ∧ decodeTableWord 8 0x3F = some (.wrreg 31 0) ∧
  decodeTableWord 8 0x61 = some (.rdpay 0) ∧ decodeTableWord 8 0xA0 = some (.wrpay 0) ∧
  decodeTableWord 8 0xE1 = some .flushtx ∧ decodeTableWord 8 0xE2 = some .flushrx ∧
  decodeTableWord 8 0xFF = some .nop ∧ decodeTableWord 8 0x50 = some .activate ∧ decodeTableWord 8 0x40 = none

/-- 30_encoding.md R74: the packed message of every command whose length fits its field decodes to that command, in every
configuration. -/
def Obligations.MessageRoundTrip : Prop :=
  ∀ (c : Config) (i : Instr), i.WellFormed c = true → decodeWord c (encode i) = .ok i

/-- 30_encoding.md R72, R73, R78: under every admitted choice of the opcode values, the table word of every command (its
opcode byte, and its length above it, log 15) decodes to that command. -/
def Obligations.WireRoundTrip : Prop :=
  ∀ (c : Config) (i : Instr), c.WellFormed = true → i.WellFormed c = true → decodeTable c (encodeTable c i) = .ok i

/-- 30_encoding.md R80 with R8: under every admitted configuration the engine can emit exactly 70 opcode bytes: the list of
them has 70 different bytes, the opcode byte of every command is on it, and every byte on it is the opcode byte of a
command. -/
def Obligations.SeventyOpcodeBytes : Prop :=
  ∀ (c : Config), c.WellFormed = true →
    (emittedOpcodes c).Nodup ∧ (emittedOpcodes c).length = 70 ∧ (∀ i : Instr, i.opcode c ∈ emittedOpcodes c) ∧
    ∀ b ∈ emittedOpcodes c, ∃ i : Instr, i.opcode c = b

/-- 30_encoding.md R78: an opcode byte spells a command exactly if it is one the engine can emit, and it then spells the
command and the address it is made from. -/
def Obligations.OpcodeByteSpellsItsCommand : Prop :=
  ∀ (c : Config), c.WellFormed = true →
    (∀ i : Instr, decodeOpcode c (i.opcode c) = some (i.op, i.addr)) ∧
    (∀ b : Byte, b ∉ emittedOpcodes c → decodeOpcode c b = none)

/-- 30_encoding.md R76, R72, R79: the register opcode is the base's bits 7:5 above the address's bits 4:0; the `|` is also a
sum, which does not carry. -/
def Obligations.RegisterOpcodeIsBaseAndAddress : Prop :=
  ∀ (c : Config) (a : RegAddr), c.WellFormed = true →
    (opcodeOf c .rdreg a).toNat = c.opcRRegister.toNat + a.toNat ∧ (opcodeOf c .rdreg a).setWidth 5 = a ∧
    (opcodeOf c .rdreg a).toNat / 32 = c.opcRRegister.toNat / 32 ∧
    (opcodeOf c .wrreg a).toNat = c.opcWRegister.toNat + a.toNat ∧ (opcodeOf c .wrreg a).setWidth 5 = a ∧
    (opcodeOf c .wrreg a).toNat / 32 = c.opcWRegister.toNat / 32

/-- 30_encoding.md R81: a field a command ignores may hold any value. Two states that differ only in the ignored fields of
the message an idle engine is offered take the same step. -/
def Obligations.IgnoredFieldsChangeNothing : Prop :=
  ∀ (s : State) (op a1 a2 n1 n2 : Nat), s.phase = .idle → calm s.agenda = true →
    (op = 2 ∨ op = 3 → n1 = n2) → (2 ≤ op ∧ op ≤ 7) →
    ∀ i, decodeDescriptor s.cfg { op := op, addr := a1, len := n1 } = .ok i → admitted s.cfg i = true →
    step { s with cmd := some { op := op, addr := a1, len := n1 } } =
      step { s with cmd := some { op := op, addr := a2, len := n2 } }

/-- 30_encoding.md R75, R76 (decision D7), R74 (log 14): an idle engine refuses by name a message whose command code is
above 7, whose register address is above 31, or whose length, where the command uses it, does not fit `LEN_W` bits, and
masks none of them. -/
def Obligations.OversizedMessagesRefused : Prop :=
  ∀ (s : State) (d : Descriptor), s.phase = .idle → calm s.agenda = true → s.cmd = some d →
    (7 < d.op → step s = .refused (.badCommand (.opAbove7 d.op))) ∧
    ((d.op = 0 ∨ d.op = 1) → 31 < d.addr → step s = .refused (.badCommand (.addrAbove31 d.addr))) ∧
    ((d.op = 0 ∨ d.op = 1) ∧ d.addr ≤ 31 ∨ d.op = 2 ∨ d.op = 3 → 2 ^ s.cfg.lenW ≤ d.len →
      step s = .refused (.badCommand (.lenTooWide d.len)))

/-- 00_scope.md R7: `LEN_W` is the least number of bits that holds every length from 0 to `BUF_DEPTH`. -/
def Obligations.LengthFieldFitsDepthExactly : Prop :=
  ∀ (c : Config), c.WellFormed = true →
    (∀ n, n ≤ c.bufDepth → n < 2 ^ c.lenW) ∧ (∀ w, (∀ n, n ≤ c.bufDepth → n < 2 ^ w) → c.lenW ≤ w)

/-! ## The step and the command it runs -/

/-- The model's own composition (log 1): where an idle engine is offered a message that decodes to an admitted command, and
nothing comes before the engine's own step (no reset, no `pass`, no immediate act of the host), the step is that command's
meaning. -/
def Obligations.StepRunsOfferedCommand : Prop :=
  ∀ (s : State) (d : Descriptor) (i : Instr), s.phase = .idle → calm s.agenda = true → s.cmd = some d →
    decodeDescriptor s.cfg d = .ok i → admitted s.cfg i = true → step s = exec i s

/-- 40_pump_sequencer.md R117 (log 1): every step of the machine is a number of atomic steps, and at most as many as the
command it accepts can take. -/
def Obligations.StepIsAtomicSteps : Prop :=
  ∀ (s t : State), step s = .next t → ∃ n, n ≤ s.agenda.length + 2 * s.cfg.bufDepth + 8 ∧ ticks n s = .next t

/-- 40_pump_sequencer.md R101: ACCEPT latches the code, the opcode byte and the payload plan, clears ERR, goes to SEL and
consumes the message; and it changes nothing else but the trace, and the copy the host keeps of the bytes it has placed in
BUF (R131, R181; log 19). -/
def Obligations.AcceptLatchesCommand : Prop :=
  ∀ (s : State) (d : Descriptor) (i : Instr), s.phase = .idle → calm s.agenda = true → s.cmd = some d →
    decodeDescriptor s.cfg d = .ok i → admitted s.cfg i = true →
    tick s = .next { s with
      op := i.op, opc := opcodeOf s.cfg i.op i.addr, src := (payloadOf i.op i.len).1, npay := (payloadOf i.op i.len).2,
      err := false, phase := .sel, cmd := none, trace := s.trace ++ [.cmd i],
      host := { s.host with copy := s.placed (payloadOf i.op i.len).1 (payloadOf i.op i.len).2 } }

/-- 40_pump_sequencer.md R101, 10_state.md R34, 20_memory.md R56: a command is not accepted in any phase but IDLE, nor where
its payload is longer than BUF; it is not consumed and nothing changes: that `exec` then answers the state as it is, is the
model's reading (log 24). The engine then holds. -/
def Obligations.UnadmittedCommandWaits : Prop :=
  ∀ (s : State) (i : Instr),
    (s.phase ≠ .idle → exec i s = .next s) ∧
    ((plan i).1 = .buf → s.cfg.bufDepth < (plan i).2 →
      exec i s = .next s ∧
      ∀ d, s.phase = .idle → s.agenda = [] → s.cmd = some d → decodeDescriptor s.cfg d = .ok i → step s = .next s)

/-- 10_state.md R34: while a command is in progress, or the engine settles, the message on the port is kept: no step
consumes it, unless the host itself offers another. That a RESET keeps it too is the model's choice, marked unsafe (log 8):
R230 does not name the message. -/
def Obligations.OfferedMessageKeptWhileBusy : Prop :=
  ∀ (s t : State), s.phase ≠ .idle → (∀ d r, s.agenda ≠ .host (.offer d) :: r ∧ s.agenda ≠ .hostNow (.offer d) :: r) →
    step s = .next t → t.cmd = s.cmd

/-! ## The atomic steps, R102 to R108 -/

/-- 40_pump_sequencer.md R102, SELECT. -/
def Obligations.SelectDrivesChipSelectLow : Prop :=
  ∀ s : State, s.phase = .sel → calm s.agenda = true →
    step s = .next { s with csn := .low, phase := .opcTx, trace := s.trace ++ [.csn .low] }

/-- 40_pump_sequencer.md R103, OPC_TX. -/
def Obligations.OpcTxSendsOpcodeByte : Prop :=
  ∀ s : State, s.phase = .opcTx → calm s.agenda = true →
    step s = .next { s with xreq := some s.opc, phase := .opcRx, trace := s.trace ++ [.xreq s.opc] }

/-- 40_pump_sequencer.md R104, OPC_RX, with `STORE_ON_ERROR` false: a successful answer becomes STATUS and the payload loop
starts at `NPAY - 1`, or there is none; a failed one sets ERR and leaves STATUS. -/
def Obligations.OpcodeAnswerBecomesStatus : Prop :=
  ∀ (s : State) (rx : Byte) (e : Bool) (r : List EnvEvent), s.phase = .opcRx → s.agenda = .xrsp rx e :: r →
    s.cfg.storeOnError = false →
    (e = false → 1 ≤ s.npay → step s = .next { s with
      status := rx, idx := s.npay - 1, phase := .payTx, xreq := none, agenda := r, trace := s.trace ++ [.xrsp rx e] }) ∧
    (e = false → s.npay = 0 → step s = .next { s with
      status := rx, phase := .desel, xreq := none, agenda := r, trace := s.trace ++ [.xrsp rx e] }) ∧
    (e = true → step s = .next { s with
      err := true, phase := .desel, xreq := none, agenda := r, trace := s.trace ++ [.xrsp rx e] })

/-- 40_pump_sequencer.md R105, PAY_TX: sends `BUF[IDX]` where the source is BUF (the byte as it is now), the key where it is
KEY. -/
def Obligations.PayloadByteSent : Prop :=
  ∀ s : State, s.phase = .payTx → calm s.agenda = true →
    (s.src = .buf → s.idx < s.cfg.bufDepth → step s = .next { s with
      xreq := some (s.bufByte s.idx), phase := .payRx, trace := s.trace ++ [.xreq (s.bufByte s.idx)] }) ∧
    (s.src = .key → step s = .next { s with xreq := some 0x73, phase := .payRx, trace := s.trace ++ [.xreq 0x73] })

/-- 40_pump_sequencer.md R106, PAY_RX, with `STORE_ON_ERROR` false: a successful answer is stored over the byte just sent
where the source is BUF and dropped where it is KEY, every other cell is unchanged, and the loop goes on to `IDX - 1` or
ends after index 0; a failed one sets ERR and stores nothing. Nothing else changes: not STATUS, not the latch. -/
def Obligations.PayloadAnswerStoredInPlace : Prop :=
  ∀ (s : State) (rx : Byte) (e : Bool) (r : List EnvEvent), s.phase = .payRx → s.agenda = .xrsp rx e :: r →
    s.src ≠ .none → (s.src = .buf → s.idx < s.cfg.bufDepth) → s.cfg.storeOnError = false →
    ∃ t, step s = .next t ∧
      (e = false → 1 ≤ s.idx → t = { s with
        idx := s.idx - 1, phase := .payTx, xreq := none, agenda := r, trace := s.trace ++ [.xrsp rx e], buf := t.buf }) ∧
      (e = false → s.idx = 0 → t = { s with
        phase := .desel, xreq := none, agenda := r, trace := s.trace ++ [.xrsp rx e], buf := t.buf }) ∧
      (e = true → t = { s with
        err := true, phase := .desel, xreq := none, agenda := r, trace := s.trace ++ [.xrsp rx e] }) ∧
      (e = false → s.src = .buf → ∀ j, t.bufByte j = if j = s.idx then rx else s.bufByte j) ∧
      (s.src = .key → t.buf = s.buf)

/-- 00_scope.md R7, the parameter `STORE_ON_ERROR` true (93_implementation_defined.md U3; log 10): the byte of a failed
exchange, which may be any, is stored to its destination, STATUS or `BUF[IDX]`, and the error path is otherwise the same. -/
def Obligations.StoreOnErrorStoresReturnedByte : Prop :=
  ∀ (s : State) (rx : Byte) (r : List EnvEvent), s.cfg.storeOnError = true → s.agenda = .xrsp rx true :: r →
    (s.phase = .opcRx → step s = .next { s with
      status := rx, err := true, phase := .desel, xreq := none, agenda := r, trace := s.trace ++ [.xrsp rx true] }) ∧
    (s.phase = .payRx → s.src = .buf → s.idx < s.cfg.bufDepth →
      ∃ t, step s = .next t ∧
        t = { s with err := true, phase := .desel, xreq := none, agenda := r, trace := s.trace ++ [.xrsp rx true],
                     buf := t.buf } ∧
        ∀ j, t.bufByte j = if j = s.idx then rx else s.bufByte j)

/-- 40_pump_sequencer.md R107, DESELECT: chip-select high, whatever ERR holds. -/
def Obligations.DeselectReleasesOnEveryPath : Prop :=
  ∀ s : State, s.phase = .desel → calm s.agenda = true →
    step s = .next { s with csn := .high, phase := .done, trace := s.trace ++ [.csn .high] }

/-- 40_pump_sequencer.md R108, RESPOND: reports `RSP(STATUS, ERR)`. With the result the host brings its Register Descriptors
up to date (R181; log 19). -/
def Obligations.RespondReportsStatusAndError : Prop :=
  ∀ s : State, s.phase = .done → calm s.agenda = true →
    step s = .next { s with
      rsp := some (s.status, s.err), phase := .idle, trace := s.trace ++ [.rsp s.status s.err],
      host := { s.host with
        regs := s.host.regs.map (RegDesc.result s.cfg s.op s.opc s.err (s.bufPrefix s.npay) s.host.copy) } }

/-- 40_pump_sequencer.md R115: while an exchange is unanswered and nothing else happens, the engine holds: any number of
steps leaves the state as it is. -/
def Obligations.HangHoldsForever : Prop :=
  ∀ (s : State) (n : Nat), s.phase = .opcRx ∨ s.phase = .payRx → s.agenda = [] → core.run n s = .next s

/-- 40_pump_sequencer.md R110: every atomic step either leaves PHASE as it is or takes a transition of the table, under its
condition (SETTLED: no earlier than `T_SETTLE`, R231). -/
def Obligations.OnlyTableTransitions : Prop :=
  ∀ (s t : State), tick s = .next t → t.phase = s.phase ∨ Transition s s.phase t.phase

/-! ## One command as a whole -/

/-- 40_pump_sequencer.md R111, which the spec derives from R101 to R108, for all eight commands: all exchanges succeed,
XPORT answering `r0` to the opcode and then `rs`. Everything the command changes is named, and all else is unchanged. -/
def Obligations.FrameSucceeds : Prop :=
  ∀ (i : Instr) (s : State) (r0 : Byte) (rs : List Byte) (rest : List EnvEvent),
    s.phase = .idle → admitted s.cfg i = true → rs.length = (plan i).2 → calm rest = true →
    s.agenda = successes (r0 :: rs) ++ rest →
    ∃ t, exec i s = .next t ∧ succeedsAs s t i (opcodeOf s.cfg i.op i.addr) (plan i).1 (plan i).2 r0 rs rest

/-- 40_pump_sequencer.md R112, derived there from R101 to R108, for all eight commands, with `STORE_ON_ERROR` false: the
opcode exchange fails. STATUS and BUF are unchanged, no payload byte is sent, and chip-select falls once and rises once. -/
def Obligations.OpcodeExchangeFails : Prop :=
  ∀ (i : Instr) (s : State) (rx : Byte) (rest : List EnvEvent),
    s.phase = .idle → admitted s.cfg i = true → s.cfg.storeOnError = false → calm rest = true →
    s.agenda = .xrsp rx true :: rest →
    ∃ t, exec i s = .next t ∧ t.buf = s.buf ∧
      endsAs s t i (opcodeOf s.cfg i.op i.addr) (plan i).1 (plan i).2 s.status true
        [.xreq (opcodeOf s.cfg i.op i.addr), .xrsp rx true] rest

/-- 40_pump_sequencer.md R113, derived there from R101 to R108, for every command with a payload, with `STORE_ON_ERROR`
false: the opcode exchange and the first `rs.length` payload exchanges succeed and the next one fails. STATUS is the
opcode's answer; the cells of the successful exchanges hold what was returned, the cell of the failed one and all others are
unchanged; no later exchange happens. -/
def Obligations.PayloadExchangeFails : Prop :=
  ∀ (i : Instr) (s : State) (r0 : Byte) (rs : List Byte) (rx : Byte) (rest : List EnvEvent),
    s.phase = .idle → admitted s.cfg i = true → s.cfg.storeOnError = false → calm rest = true →
    rs.length < (plan i).2 → s.agenda = successes (r0 :: rs) ++ .xrsp rx true :: rest →
    ∃ t, exec i s = .next t ∧
      endsAs s t i (opcodeOf s.cfg i.op i.addr) (plan i).1 (plan i).2 r0 true
        (.xreq (opcodeOf s.cfg i.op i.addr) :: .xrsp r0 false :: exchanges (sentByte s (plan i).1) (plan i).2 rs ++
          [.xreq (sentByte s (plan i).1 ((plan i).2 - 1 - rs.length)), .xrsp rx true]) rest ∧
      ((plan i).1 = .buf → ∀ j, t.bufByte j =
        if (plan i).2 - rs.length ≤ j ∧ j < (plan i).2 then rs.reverse[j - ((plan i).2 - rs.length)]?.getD 0
        else s.bufByte j) ∧
      ((plan i).1 ≠ .buf → t.buf = s.buf)

/-- 40_pump_sequencer.md R100 and, for an exchange that is never answered, R115: the atomic steps refine the pump procedure.
Whatever XPORT answers, successes and failures, as many as it likes and then nothing, a command does exactly the wire events
of `pump`, leaves the bytes `pump` stores, and ends or hangs as `pump` does; with `STORE_ON_ERROR` false (D9, D10: what a
failed exchange leaves in STATUS and BUF). -/
def Obligations.FrameRefinesPump : Prop :=
  ∀ (i : Instr) (s : State) (as : List (Byte × Bool)) (rest : List EnvEvent),
    s.phase = .idle → admitted s.cfg i = true → s.cfg.storeOnError = false → silent rest = true →
    s.agenda = answers as ++ rest →
    ∃ t, exec i s = .next t ∧
      let p := pump (opcodeOf s.cfg i.op i.addr) (sentByte s (plan i).1) (plan i).2 s.status as
      t.trace = s.trace ++ .cmd i :: p.events ∧ t.status = p.status ∧ t.err = p.err ∧
      t.agenda = answers p.left ++ rest ∧
      (p.ended = true → t.phase = .idle ∧ t.csn = .high ∧ t.xreq = none ∧ t.rsp = some (p.status, p.err)) ∧
      (p.ended = false → t.phase.waiting = true ∧ t.csn = .low ∧ t.xreq.isSome = true ∧ t.rsp = s.rsp) ∧
      ((plan i).1 = .buf → ∀ j, t.bufByte j = (p.stored.lookup j).getD (s.bufByte j)) ∧
      ((plan i).1 ≠ .buf → t.buf = s.buf)

/-- 40_pump_sequencer.md R115, R118, R230: from every state, with every agenda, every command answers a next state. Where it
is accepted, its events follow on the earlier ones, the consumed message first, and it has been reported (the last event is
the result, of STATUS and ERR as they are now), or a reset has cut it (SETTLE, and the reset is among its events), or it
hangs on an exchange XPORT does not answer (a request is outstanding and the agenda silent, log 1), or it pauses in
mid-frame for an act the host does at once (log 1, 2). Where it is not accepted nothing happens (log 24). -/
def Obligations.CommandEndsOrHangs : Prop :=
  ∀ (i : Instr) (s : State), ∃ t, exec i s = .next t ∧
    (canAccept i s = true → ∃ evs, t.trace = s.trace ++ .cmd i :: evs ∧
      (t.phase = .idle ∧ evs.getLast? = some (.rsp t.status t.err) ∧ t.rsp = some (t.status, t.err) ∨
       t.phase = .settle ∧ .reset ∈ evs ∨
       t.phase.waiting = true ∧ t.xreq.isSome = true ∧ silent t.agenda = true ∨
       t.phase.inFrame = true ∧ interrupted t.agenda = true)) ∧
    (canAccept i s = false → t = s)

/-- 30_encoding.md R82, 40_pump_sequencer.md R118, both derived there: the length of a frame that succeeds, counted on the
wire, with its one falling edge, one rising edge and one result. -/
def Obligations.FrameLength : Prop :=
  ∀ (i : Instr) (s t : State) (r0 : Byte) (rs : List Byte) (rest : List EnvEvent),
    s.phase = .idle → admitted s.cfg i = true → rs.length = (plan i).2 → calm rest = true →
    s.agenda = successes (r0 :: rs) ++ rest → exec i s = .next t →
    let new := t.trace.drop s.trace.length
    (new.countP fun o => match o with | .xreq _ => true | _ => false) =
      (match i with
       | .rdreg _ n | .wrreg _ n | .rdpay n | .wrpay n => 1 + n
       | .flushtx | .flushrx | .nop => 1
       | .activate => 2) ∧
    (new.countP fun o => match o with | .csn .low => true | _ => false) = 1 ∧
    (new.countP fun o => match o with | .csn .high => true | _ => false) = 1 ∧
    (new.countP fun o => match o with | .rsp _ _ => true | _ => false) = 1

/-! ## The commands, one by one -/

/-- 41_register_commands.md R130: `RDREG addr, len` is `Pump(OPC_R_REGISTER | zext_8(addr), BUF, L)`: the outcome when every
exchange succeeds, for every address and every length BUF can hold. -/
def Obligations.RdregReadsRegister : Prop :=
  ∀ (addr : RegAddr) (len : Nat) (s : State) (r0 : Byte) (rs : List Byte) (rest : List EnvEvent),
    s.phase = .idle → len ≤ s.cfg.bufDepth → rs.length = len → calm rest = true →
    s.agenda = successes (r0 :: rs) ++ rest →
    ∃ t, exec (.rdreg addr len) s = .next t ∧
      succeedsAs s t (.rdreg addr len) (s.cfg.opcRRegister ||| zext8 addr) .buf len r0 rs rest

/-- 41_register_commands.md R131: `WRREG addr, len` is `Pump(OPC_W_REGISTER | zext_8(addr), BUF, L)`, likewise. -/
def Obligations.WrregWritesRegister : Prop :=
  ∀ (addr : RegAddr) (len : Nat) (s : State) (r0 : Byte) (rs : List Byte) (rest : List EnvEvent),
    s.phase = .idle → len ≤ s.cfg.bufDepth → rs.length = len → calm rest = true →
    s.agenda = successes (r0 :: rs) ++ rest →
    ∃ t, exec (.wrreg addr len) s = .next t ∧
      succeedsAs s t (.wrreg addr len) (s.cfg.opcWRegister ||| zext8 addr) .buf len r0 rs rest

/-- 42_payload_commands.md R140, R141: `RDPAY len` and `WRPAY len` are `Pump(OPC_R_RX_PAYLOAD, BUF, L)` and
`Pump(OPC_W_TX_PAYLOAD, BUF, L)`, likewise. -/
def Obligations.PayloadCommandsMovePayload : Prop :=
  ∀ (len : Nat) (s : State) (r0 : Byte) (rs : List Byte) (rest : List EnvEvent),
    s.phase = .idle → len ≤ s.cfg.bufDepth → rs.length = len → calm rest = true →
    s.agenda = successes (r0 :: rs) ++ rest →
    (∃ t, exec (.rdpay len) s = .next t ∧ succeedsAs s t (.rdpay len) s.cfg.opcRRxPayload .buf len r0 rs rest) ∧
    (∃ t, exec (.wrpay len) s = .next t ∧ succeedsAs s t (.wrpay len) s.cfg.opcWTxPayload .buf len r0 rs rest)

/-- 43_control_commands.md R150, R151, R152: `FLUSHTX`, `FLUSHRX` and `NOP` exchange their opcode byte alone; STATUS is the
byte returned, BUF is not touched. -/
def Obligations.BareCommandsRefreshStatus : Prop :=
  ∀ (s : State) (r0 : Byte) (rest : List EnvEvent), s.phase = .idle → calm rest = true → s.agenda = .xrsp r0 false :: rest →
    (∃ t, exec .flushtx s = .next t ∧ t.buf = s.buf ∧
      endsAs s t .flushtx s.cfg.opcFlushTx .none 0 r0 false [.xreq s.cfg.opcFlushTx, .xrsp r0 false] rest) ∧
    (∃ t, exec .flushrx s = .next t ∧ t.buf = s.buf ∧
      endsAs s t .flushrx s.cfg.opcFlushRx .none 0 r0 false [.xreq s.cfg.opcFlushRx, .xrsp r0 false] rest) ∧
    (∃ t, exec .nop s = .next t ∧ t.buf = s.buf ∧
      endsAs s t .nop s.cfg.opcNop .none 0 r0 false [.xreq s.cfg.opcNop, .xrsp r0 false] rest)

/-- 43_control_commands.md R153: `ACTIVATE` exchanges its opcode byte, whose answer becomes STATUS, and the key `0x73`,
whose answer is dropped; BUF is neither read nor written. -/
def Obligations.ActivateSendsKey : Prop :=
  ∀ (s : State) (r0 r1 : Byte) (rest : List EnvEvent), s.phase = .idle → calm rest = true →
    s.agenda = .xrsp r0 false :: .xrsp r1 false :: rest →
    ∃ t, exec .activate s = .next t ∧ t.buf = s.buf ∧
      endsAs s t .activate s.cfg.opcActivate .key 1 r0 false
        [.xreq s.cfg.opcActivate, .xrsp r0 false, .xreq 0x73, .xrsp r1 false] rest

/-- 41_register_commands.md R132, derived there from R130 and R131: the engine does nothing different for a register read
and a register write of the same address and length. The states after them differ only in the latched code, in bits 7:5 of
the opcode byte, in the two events that show them, and in what the host notes in its Register Descriptors (R181): whatever
is answered, after the opcode byte both have one and the same tail of events, payload bytes included. A frame that an act of
the host stops before the opcode byte is out has shown nothing but the command. -/
def Obligations.ReadAndWriteDifferInOpcodeOnly : Prop :=
  ∀ (addr : RegAddr) (len : Nat) (s t u : State), s.phase = .idle → s.cfg.WellFormed = true → len ≤ s.cfg.bufDepth →
    EnvEvent.reset ∉ s.agenda →
    exec (.rdreg addr len) s = .next t → exec (.wrreg addr len) s = .next u →
    u = { t with
      op := .wrreg, opc := u.opc, xreq := u.xreq, trace := u.trace, host := { t.host with regs := u.host.regs } } ∧
    t.op = .rdreg ∧ t.opc = opcodeOf s.cfg .rdreg addr ∧ u.opc = opcodeOf s.cfg .wrreg addr ∧
    u.opc.setWidth 5 = t.opc.setWidth 5 ∧
    ((∃ tail,
        t.trace = s.trace ++ [.cmd (.rdreg addr len), .csn .low, .xreq t.opc] ++ tail ∧
        u.trace = s.trace ++ [.cmd (.wrreg addr len), .csn .low, .xreq u.opc] ++ tail ∧
        (tail = [] → t.xreq = some t.opc ∧ u.xreq = some u.opc) ∧ (tail ≠ [] → u.xreq = t.xreq)) ∨
      (∃ early, (t.phase = .sel ∧ early = [] ∨ t.phase = .opcTx ∧ early = [.csn .low]) ∧
        t.trace = s.trace ++ .cmd (.rdreg addr len) :: early ∧ u.trace = s.trace ++ .cmd (.wrreg addr len) :: early ∧
        u.xreq = t.xreq))

/-- 40_pump_sequencer.md R116, derived there from R104: a command without payload and a buffer command of length 0 do the
same but for the opcode byte: one exchange between the two edges, whatever is answered, and BUF unchanged. -/
def Obligations.EmptyPayloadIsNoPayload : Prop :=
  ∀ (i : Instr) (s : State) (r0 : Byte) (rest : List EnvEvent), s.phase = .idle → calm rest = true →
    s.agenda = .xrsp r0 false :: rest → (plan i).2 = 0 →
    ∃ t, exec i s = .next t ∧ t.buf = s.buf ∧
      endsAs s t i (i.opcode s.cfg) (plan i).1 0 r0 false [.xreq (i.opcode s.cfg), .xrsp r0 false] rest

/-- 40_pump_sequencer.md R207 with R27: an error does not outlive its command. After any state an idle engine may be in, ERR
set or not, a command whose exchanges succeed reports no error. -/
def Obligations.ErrorNotSticky : Prop :=
  ∀ (i : Instr) (s t : State) (r0 : Byte) (rs : List Byte) (rest : List EnvEvent),
    s.phase = .idle → s.err = true → admitted s.cfg i = true → rs.length = (plan i).2 → calm rest = true →
    s.agenda = successes (r0 :: rs) ++ rest → exec i s = .next t → t.err = false ∧ t.rsp = some (r0, false)

/-! ## What stays the same -/

/-- 20_memory.md R50, R55, R58: what a command leaves alone, however its frame goes (success, failure or hang) unless a
reset cuts it: every cell of BUF at or above the payload length, every cell where the payload is not the buffer; the
parameters, CE, the pipe addresses, and the addresses and widths of the Register Descriptors. -/
def Obligations.CommandFrame : Prop :=
  ∀ (i : Instr) (s t : State), EnvEvent.reset ∉ s.agenda → exec i s = .next t →
    (∀ j, ((plan i).1 = .buf → (plan i).2 ≤ j) → t.bufByte j = s.bufByte j) ∧
    t.cfg = s.cfg ∧ t.ce = s.ce ∧ t.resets = s.resets ∧ t.host.pipes = s.host.pipes ∧
    t.host.regs.map (fun r => (r.addr, r.raw.length)) = s.host.regs.map (fun r => (r.addr, r.raw.length))

/-- 10_state.md R21, with `STORE_ON_ERROR` false: STATUS changes by the answer of a successful opcode exchange and by
nothing else, but for a reset, which leaves it unspecified. -/
def Obligations.StatusWrittenByOpcodeAnswerOnly : Prop :=
  ∀ (s t : State), tick s = .next t → s.cfg.storeOnError = false → t.status ≠ s.status →
    (∃ r, s.agenda = .reset :: r) ∨ (s.phase = .opcRx ∧ ∃ r, s.agenda = .xrsp t.status false :: r)

/-- 20_memory.md R58, R65, 10_state.md R41: one atomic step changes a cell of BUF only by PAY_RX at that very index, by an
act of the host that writes that very cell, which the engine does not own, or by a reset. The acts that write are a host
write, and the write of an encoded byte (R178): to the cell that was read, or to cell 0 from a shadow. That the host never
changes a cell the engine owns rests on the model's refusal (log 12); R65 and U6 also allow to model it as a race. -/
def Obligations.BufWrittenInPlaceOnly : Prop :=
  ∀ (s t : State) (j : Nat), tick s = .next t → t.bufByte j ≠ s.bufByte j →
    (∃ r, s.agenda = .reset :: r) ∨
    (s.phase = .payRx ∧ s.src = .buf ∧ j = s.idx ∧ ∃ rx e r, s.agenda = .xrsp rx e :: r ∧ t.bufByte j = rx) ∨
    (s.owns j = false ∧ ∃ a r, HostTurn s a r ∧
      (a = .writeBuf j (t.bufByte j) ∨
       (∃ f l, a = .encodeBuf j f l ∧ f.encode (s.bufByte j) l = .ok (t.bufByte j)) ∨
       (j = 0 ∧ ∃ k f l d cur, a = .encodeReg k f l ∧ s.host.regs[k]? = some d ∧ d.raw.head? = some cur ∧
         f.encode cur l = .ok (t.bufByte j))))

/-- 10_state.md R26 and R27, over all atomic steps. The latch OP, OPC, NPAY, SRC is changed only by ACCEPT, which writes the
offered command into it, and by a reset (which leaves it unspecified, R42). ERR is changed only by ACCEPT and a reset, which
clear it, and by OPC_RX and PAY_RX on a failed answer, which set it. -/
def Obligations.LatchAndErrorWriters : Prop :=
  ∀ (s t : State), tick s = .next t →
    ((t.op, t.opc, t.npay, t.src) ≠ (s.op, s.opc, s.npay, s.src) →
      (∃ r, s.agenda = .reset :: r) ∨
      (s.phase = .idle ∧ t.phase = .sel ∧ ∃ d i, s.cmd = some d ∧ decodeDescriptor s.cfg d = .ok i ∧
        admitted s.cfg i = true ∧ t.op = i.op ∧ t.opc = opcodeOf s.cfg i.op i.addr ∧ (t.src, t.npay) = payloadOf i.op i.len)) ∧
    (t.err ≠ s.err →
      (t.err = false ∧ ∃ r, s.agenda = .reset :: r) ∨ (t.err = false ∧ s.phase = .idle ∧ t.phase = .sel) ∨
      (t.err = true ∧ s.phase.waiting = true ∧ ∃ rx r, s.agenda = .xrsp rx true :: r))

/-- 10_state.md R32, 00_scope.md R7: the parameters are fixed: no step changes them. -/
def Obligations.ConfigurationFixed : Prop := ∀ (s t : State), step s = .next t → t.cfg = s.cfg

/-! ## Invariants -/

/-- The invariant of 10_state.md R43, derived there, holds after reset, and so do the other invariants stated below: the
wire protocol, the order of the payload bytes, STATUS being current, and the widths of the companion data. For NPAY and SRC
it rests on the model's choice of their reset values (log 6). -/
def Obligations.InvariantAtReset : Prop :=
  Inv State.reset ∧ ErrOk State.reset ∧ OnProtocol State.reset ∧ InOrder State.reset ∧ StatusCurrent State.reset ∧
  PipesOk State.reset ∧ RegsOk State.reset

/-- 10_state.md R43, derived there from R42 and R101 to R108: chip-select is low exactly while a transaction is open, an
exchange is outstanding exactly in OPC_RX and PAY_RX, the payload index stays below the length and the length below the
depth, CE stays 0; BUF keeps its canonical form. Every step of the machine keeps it, from every state that has it. -/
def Obligations.InvariantKept : Prop := ∀ (s t : State), Inv s → step s = .next t → Inv t

/-- 40_pump_sequencer.md R114, R118, derived there, with 20_memory.md R61, R63: the wire protocol. If the events so far obey
the monitor `watch` (chip-select falls once and rises once for each command and no byte is sent outside; the opcode byte
first; each request after the answer before; at most `1 + n` exchanges and none after a failure; one result for each
command, after chip-select has risen, with the opcode's answer or an error; nothing accepted in between or before the
settling delay is over), they do so after every step, a reset at any point included. -/
def Obligations.WireProtocolKept : Prop :=
  ∀ (s t : State), Inv s → ErrOk s → OnProtocol s → step s = .next t → ErrOk t ∧ OnProtocol t

/-- 20_memory.md R52, R55, R61 (b) and 30_encoding.md R71, with R53 and R77: the order of the bytes on the wire. A frame in
progress sends its opcode byte, then the bytes the host had placed in `BUF[NPAY-1]` down to `BUF[0]` when the command was
accepted (or the key), each once and in that order, as many as PHASE and IDX tell, and all of them if it comes to its end
without an error; a cell not yet exchanged still holds what the host placed there. Every step keeps that, whatever the host
does in between (which rests on log 12 for the cells the engine owns). -/
def Obligations.PayloadOrderKept : Prop := ∀ (s t : State), Inv s → InOrder s → step s = .next t → InOrder t

/-- 20_memory.md R61 (e), 10_state.md R21, with `STORE_ON_ERROR` false: once an opcode exchange has succeeded since the last
reset, STATUS holds the byte returned by the latest one; every step keeps that. -/
def Obligations.StatusStaysCurrent : Prop :=
  ∀ (s t : State), s.cfg.storeOnError = false → StatusCurrent s → step s = .next t → StatusCurrent t

/-- 45_companion_codecs.md R177 and R176: the two full pipe addresses keep `N_ADDR` bytes, and every Register Descriptor
keeps a width of 1 to 5 bytes, whatever the host and the engine do. -/
def Obligations.PipeWidthsKept : Prop :=
  ∀ (s t : State), step s = .next t → (PipesOk s → PipesOk t) ∧ (RegsOk s → RegsOk t)

/-- With `Inv` the engine itself never faults (20_memory.md R50, R55, 40_pump_sequencer.md R119: no index at or above `NPAY`
is ever formed): a step that faults is the act of the host that is on turn, an access to a cell that does not exist (log
13). -/
def Obligations.EngineNeverFaults : Prop :=
  ∀ (s : State) (f : Fault), Inv s → step s = .fault f →
    ∃ a r, HostTurn s a r ∧ hostStep a { s with agenda := r } = .fault f

/-! ## The host's ports -/

/-- Every act of the host, as a step, done at once in any phase or where the engine holds. 10_state.md R34 (log 3): an offer
stands on the port. R40, R41 and 20_memory.md R65 (decision D16, log 12, 13): STATUS is read at any time without side
effect; an existing cell the engine does not own is read and written; the access to an owned cell is refused, and to a cell
that does not exist faults. 45_companion_codecs.md R178, 60_exceptions.md R202 (log 30): an encode act writes the encoded
byte to its cell and to no other, or reports RangeError and writes nothing; the form that starts from BUF reads its cell
first, the form that starts from a shadow touches BUF only to write it; a field outside the byte is refused (log 32). R179,
R180 (D26, log 20): set and get of the pipe addresses. R176 (log 31): a descriptor of 1 to 5 bytes is made. -/
def Obligations.HostPorts : Prop :=
  ∀ (s : State) (a : HostAct) (r : List EnvEvent), HostTurn s a r →
    (a = .readStatus → step s = .next { s with agenda := r, trace := s.trace ++ [.statusRead s.status] }) ∧
    (∀ i, a = .readBuf i → i < s.cfg.bufDepth → s.owns i = false →
      step s = .next { s with agenda := r, trace := s.trace ++ [.bufRead i (s.bufByte i)] }) ∧
    (∀ i v, a = .writeBuf i v → i < s.cfg.bufDepth → s.owns i = false →
      ∃ t, step s = .next t ∧ t = { s with agenda := r, buf := t.buf } ∧
        ∀ j, t.bufByte j = if j = i then v else s.bufByte j) ∧
    (∀ i v f l, a = .readBuf i ∨ a = .writeBuf i v ∨ a = .encodeBuf i f l → i < s.cfg.bufDepth → s.owns i = true →
      step s = .refused (.hostTouchedOwnedBuffer i)) ∧
    (∀ i v f l, a = .readBuf i ∨ a = .writeBuf i v ∨ a = .encodeBuf i f l → s.cfg.bufDepth ≤ i →
      step s = .fault (.bufIndexOutOfRange i)) ∧
    (∀ i f l, a = .encodeBuf i f l → i < s.cfg.bufDepth → s.owns i = false →
      (f.WellFormed = true → l ≤ f.max → ∃ t b, step s = .next t ∧ f.encode (s.bufByte i) l = .ok b ∧
        t = { s with agenda := r, buf := t.buf } ∧ ∀ j, t.bufByte j = if j = i then b else s.bufByte j) ∧
      (f.WellFormed = true → f.max < l → step s = .next { s with agenda := r, trace := s.trace ++ [.rangeError] }) ∧
      (f.WellFormed = false → step s = .refused (.fieldOutsideByte f))) ∧
    (∀ k f l d cur, a = .encodeReg k f l → s.host.regs[k]? = some d → d.raw.head? = some cur →
      (f.WellFormed = true → l ≤ f.max → 0 < s.cfg.bufDepth → s.owns 0 = false →
        ∃ t b, step s = .next t ∧ f.encode cur l = .ok b ∧
          t = { s with agenda := r, buf := t.buf } ∧ ∀ j, t.bufByte j = if j = 0 then b else s.bufByte j) ∧
      (f.WellFormed = true → l ≤ f.max → 0 < s.cfg.bufDepth → s.owns 0 = true →
        step s = .refused (.hostTouchedOwnedBuffer 0)) ∧
      (f.WellFormed = true → f.max < l → step s = .next { s with agenda := r, trace := s.trace ++ [.rangeError] }) ∧
      (f.WellFormed = false → step s = .refused (.fieldOutsideByte f))) ∧
    (∀ k f l, a = .encodeReg k f l → (∀ d, s.host.regs[k]? = some d → d.raw = []) → step s = .next { s with agenda := r }) ∧
    (∀ d, a = .offer d → step s = .next { s with agenda := r, cmd := some d }) ∧
    (∀ p bytes, a = .setFull p bytes →
      (bytes.length = s.cfg.nAddr →
        step s = .next { s with agenda := r, host := { s.host with pipes := s.host.pipes.setFull p bytes } }) ∧
      (bytes.length ≠ s.cfg.nAddr → step s = .refused (.pipeAddressWrongLength bytes.length))) ∧
    (∀ p b, a = .setOwn p b →
      step s = .next { s with agenda := r, host := { s.host with pipes := s.host.pipes.setOwn p b } }) ∧
    (∀ p, a = .getFull p →
      step s = .next { s with agenda := r, trace := s.trace ++ [.pipeAddr (s.host.pipes.getFull p)] }) ∧
    (∀ p, a = .getPartial p →
      step s = .next { s with agenda := r, trace := s.trace ++ [.pipeAddr (s.host.pipes.getPartial p)] }) ∧
    (∀ d, a = .newReg d →
      (1 ≤ d.raw.length ∧ d.raw.length ≤ 5 →
        step s = .next { s with agenda := r, host := { s.host with regs := s.host.regs ++ [d] } }) ∧
      (d.raw.length < 1 ∨ 5 < d.raw.length → step s = .refused (.registerWidth d.raw.length)))

/-! ## Companion data -/

/-- 45_companion_codecs.md R171 to R173: the Power Level field. -/
def Obligations.PowerLevelFormulas : Prop :=
  ∀ (b : Byte) (l : Nat),
    powerLevelField.decode b = ((b &&& 0b00000110) >>> 1).toNat ∧
    (l ≤ 3 → powerLevelField.encode b l = .ok ((b &&& 0b11111001) ||| (BitVec.ofNat 8 l <<< 1))) ∧
    (3 < l → powerLevelField.encode b l = .error .outOfRange)

/-- 45_companion_codecs.md R174 (its third law derived there), R175, for every bit field of a one-byte register: a level in
the domain comes back, the other bits are preserved, writing back what was read changes nothing, and a level outside the
domain fails. -/
def Obligations.CodecLaws : Prop :=
  ∀ (f : Field) (b : Byte) (l : Nat), f.WellFormed = true →
    (l ≤ f.max → ∃ b', f.encode b l = .ok b' ∧ f.decode b' = l ∧ b' &&& ~~~f.mask = b &&& ~~~f.mask) ∧
    f.encode b (f.decode b) = .ok b ∧ (f.max < l → f.encode b l = .error .outOfRange)

/-- 45_companion_codecs.md R180, R182 (and of R179 what `get` gives after `set`): a partial pipe address is pipe 1's bytes
from index 1 on and then its own byte, always of the current base; setting an own byte changes no other pipe; pipe 0 and the
others do not depend on each other. A full pipe holds what was set. -/
def Obligations.PartialPipesFollowBase : Prop :=
  ∀ (p : Pipes) (q q' : PartialPipe) (b : Byte) (a : List Byte),
    (p.setFull .p1 a).getPartial q = a.drop 1 ++ [p.own q] ∧
    (p.setOwn q b).getPartial q = p.full1.drop 1 ++ [b] ∧
    (q' ≠ q → (p.setOwn q b).getPartial q' = p.getPartial q') ∧
    (p.setOwn q b).getFull .p0 = p.full0 ∧ (p.setOwn q b).getFull .p1 = p.full1 ∧
    (p.setFull .p0 a).getPartial q = p.getPartial q ∧ (p.setFull .p0 a).getFull .p1 = p.full1 ∧
    (p.setFull .p1 a).getFull .p0 = p.full0 ∧ ∀ f : FullPipe, (p.setFull f a).getFull f = a

/-- 45_companion_codecs.md R181: after a successful RDREG of a descriptor's address and width its shadow is what the chip
returned, as it lies in BUF; after a successful WRREG it is what the host had placed in BUF before; and after no other
command does it change: not after one of another code, address or width, not after an error, not while a command hangs or
pauses or is not accepted. That the host does this as the result comes is the model's choice (log 19). -/
def Obligations.ShadowFollowsSuccessfulCommands : Prop :=
  ∀ (s : State) (k : Nat) (d : RegDesc), s.host.regs[k]? = some d → s.cfg.WellFormed = true →
    (∀ (r0 : Byte) (rs : List Byte) (rest : List EnvEvent), s.phase = .idle → d.raw.length ≤ s.cfg.bufDepth →
      rs.length = d.raw.length → calm rest = true → s.agenda = successes (r0 :: rs) ++ rest →
      (∃ t, exec (.rdreg d.addr d.raw.length) s = .next t ∧ t.host.regs[k]? = some { d with raw := rs.reverse } ∧
        t.bufPrefix d.raw.length = rs.reverse) ∧
      (∃ t, exec (.wrreg d.addr d.raw.length) s = .next t ∧
        t.host.regs[k]? = some { d with raw := s.bufPrefix d.raw.length })) ∧
    (∀ (i : Instr) (t : State), EnvEvent.reset ∉ s.agenda → exec i s = .next t →
      t.err = true ∨ t.phase ≠ .idle ∨ canAccept i s = false ∨
        (i ≠ .rdreg d.addr d.raw.length ∧ i ≠ .wrreg d.addr d.raw.length) →
      t.host.regs[k]? = some d)

/-- 45_companion_codecs.md R181, R176, over all atomic steps: a Register Descriptor, unless a reset drops it, keeps its
address and its width; its shadow changes only by RESPOND of a command without error, a RDREG or a WRREG of its address, to
the bytes of BUF or to the host's copy of what it had placed (log 19). So no act of the host changes it. -/
def Obligations.ShadowChangesWithResultOnly : Prop :=
  ∀ (s t : State) (k : Nat) (d : RegDesc), tick s = .next t → s.host.regs[k]? = some d →
    (∃ r, s.agenda = .reset :: r) ∨
    ∃ d', t.host.regs[k]? = some d' ∧ d'.addr = d.addr ∧ d'.raw.length = d.raw.length ∧
      (d'.raw ≠ d.raw →
        s.phase = .done ∧ t.phase = .idle ∧ s.err = false ∧
        (s.op = .rdreg ∧ s.opc = opcodeOf s.cfg .rdreg d.addr ∧ d'.raw = s.bufPrefix s.npay ∨
         s.op = .wrreg ∧ s.opc = opcodeOf s.cfg .wrreg d.addr ∧ d'.raw = s.host.copy))
end

