-- ==== Sys2Proof/Laws/Companion.lean ====
section
/-! SUPPORT. What a command's result does to a Register Descriptor, said once (45_companion_codecs.md R176, R181). -/

namespace Sys2Proof.Machine

@[simp] theorem RegDesc.hold_addr (r : RegDesc) (v : List Byte) : (r.hold v).addr = r.addr := by
  unfold RegDesc.hold; split <;> rfl

@[simp] theorem RegDesc.hold_length (r : RegDesc) (v : List Byte) : (r.hold v).raw.length = r.raw.length := by
  unfold RegDesc.hold; split <;> simp_all

/-- A value of the register's own width is taken, one of another width is not. -/
theorem RegDesc.hold_of_length {r : RegDesc} {v : List Byte} (h : v.length = r.raw.length) : r.hold v = { r with raw := v } :=
  if_pos h

theorem RegDesc.hold_of_length_ne {r : RegDesc} {v : List Byte} (h : v.length ≠ r.raw.length) : r.hold v = r := if_neg h

@[simp] theorem RegDesc.result_addr (c : Config) (op : Op) (opc : Byte) (e : Bool) (l p : List Byte) (r : RegDesc) :
    (r.result c op opc e l p).addr = r.addr := by
  unfold RegDesc.result
  split
  · rfl
  · split <;> first | rfl | (split <;> simp)

@[simp] theorem RegDesc.result_length (c : Config) (op : Op) (opc : Byte) (e : Bool) (l p : List Byte) (r : RegDesc) :
    (r.result c op opc e l p).raw.length = r.raw.length := by
  unfold RegDesc.result
  split
  · rfl
  · split <;> first | rfl | (split <;> simp)

@[simp] theorem RegDesc.result_error (c : Config) (op : Op) (opc : Byte) (l p : List Byte) (r : RegDesc) :
    r.result c op opc true l p = r := rfl

/-- A result that changes a shadow is that of a RDREG or a WRREG of its address, without an error. -/
theorem RegDesc.result_changed {c : Config} {op : Op} {opc : Byte} {e : Bool} {l p : List Byte} {r : RegDesc}
    (h : (r.result c op opc e l p).raw ≠ r.raw) :
    e = false ∧
      (op = .rdreg ∧ opc = opcodeOf c .rdreg r.addr ∧ (r.result c op opc e l p).raw = l ∨
       op = .wrreg ∧ opc = opcodeOf c .wrreg r.addr ∧ (r.result c op opc e l p).raw = p) := by
  unfold RegDesc.result at h ⊢
  cases e <;> simp at h ⊢
  cases op <;> simp at h ⊢
  · by_cases ho : opc = opcodeOf c .rdreg r.addr <;> simp [ho] at h ⊢
    unfold RegDesc.hold at h ⊢; split at h <;> simp_all
  · by_cases ho : opc = opcodeOf c .wrreg r.addr <;> simp [ho] at h ⊢
    unfold RegDesc.hold at h ⊢; split at h <;> simp_all

end Sys2Proof.Machine
end

