-- ==== Sys2Proof/Laws/Encoding.lean ====
section
/-! SUPPORT. The bits of a register opcode byte, and the parts of an admitted configuration. -/

namespace Sys2Proof

/-- The five low bits of an aligned base. -/
theorem bits_of_aligned {base : Byte} (h : base &&& 0x1F = 0) :
    base[0] = false ∧ base[1] = false ∧ base[2] = false ∧ base[3] = false ∧ base[4] = false := by
  have e : ∀ j (_ : j < 8), (base &&& 0x1F)[j] = (0 : Byte)[j] := fun j _ => by rw [h]
  have e0 := e 0 (by omega)
  have e1 := e 1 (by omega)
  have e2 := e 2 (by omega)
  have e3 := e 3 (by omega)
  have e4 := e 4 (by omega)
  simp at e0 e1 e2 e3 e4
  exact ⟨e0, e1, e2, e3, e4⟩

/-- The upper three bits of a register opcode are the base (R72). -/
theorem or_zext8_and_high {base : Byte} (h : base &&& 0x1F = 0) (a : RegAddr) : (base ||| zext8 a) &&& 0xE0 = base := by
  obtain ⟨e0, e1, e2, e3, e4⟩ := bits_of_aligned h
  have ha : ∀ j, 5 ≤ j → a.getLsbD j = false := fun j hj => BitVec.getLsbD_of_ge _ _ hj
  ext i hi
  interval_cases i <;> simp [*]

/-- The lower five bits of a register opcode are the address (R72). -/
theorem or_zext8_low {base : Byte} (h : base &&& 0x1F = 0) (a : RegAddr) : (base ||| zext8 a).setWidth 5 = a := by
  obtain ⟨e0, e1, e2, e3, e4⟩ := bits_of_aligned h
  ext i hi
  interval_cases i <;> simp [*]

/-- The `|` of R76 is also a sum. -/
theorem or_zext8_eq_add {base : Byte} (h : base &&& 0x1F = 0) (a : RegAddr) : base ||| zext8 a = base + zext8 a := by
  obtain ⟨e0, e1, e2, e3, e4⟩ := bits_of_aligned h
  have ha : ∀ j, 5 ≤ j → a.getLsbD j = false := fun j hj => BitVec.getLsbD_of_ge _ _ hj
  have : base &&& zext8 a = 0 := by
    ext i hi
    interval_cases i <;> simp [*]
  exact (BitVec.add_eq_or_of_and_eq_zero _ _ this).symm

/-- A byte with the bits of a base is that base with an address. -/
theorem base_or_low {b base : Byte} (h : b &&& 0xE0 = base) : base ||| zext8 (b.setWidth 5) = b := by
  subst h
  ext i hi
  interval_cases i <;> simp

theorem Config.wellFormed_parts {c : Config} (h : c.WellFormed = true) :
    c.basesAligned = true ∧ c.basesDistinct = true ∧ c.fixedOutsideBases = true ∧ c.fixedDistinct = true ∧
      c.depthOk = true ∧ c.settleOk = true ∧ c.nAddrOk = true := by
  simp only [Config.WellFormed, Bool.and_eq_true] at h
  tauto

theorem regAddr?_toNat (a : RegAddr) : regAddr? a.toNat = .ok a := by
  have := a.isLt
  simp [regAddr?]; omega

theorem len?_of_lt {c : Config} {n : Nat} (h : n < 2 ^ c.lenW) : len? c n = .ok n := by simp [len?, h]

theorem Op.ofCode_code (op : Op) : Op.ofCode op.code = some op := by cases op <;> rfl

theorem Op.code_lt (op : Op) : op.code < 8 := by cases op <;> decide

end Sys2Proof
end

