-- ==== Sys2Proof/Laws/Memory.lean ====
section
/-! SUPPORT. BUF: a read after a write, what a write leaves alone, and the canonical form. -/

namespace Sys2Proof.Machine

namespace Memory

@[simp] theorem lookup_store_same (m : Memory) (i : Nat) (v : Byte) : lookup (store m i v) i = some v := by
  induction m with
  | nil => simp [store, lookup]
  | cons c m ih =>
    obtain ⟨k, w⟩ := c
    simp only [store]
    split
    · simp [lookup]
    · split
      · simp [lookup]
      · have : k ≠ i := by omega
        simp [lookup, this, ih]

theorem lookup_store_other (m : Memory) {i j : Nat} (v : Byte) (h : j ≠ i) : lookup (store m i v) j = lookup m j := by
  induction m with
  | nil => simp [store, lookup, Ne.symm h]
  | cons c m ih =>
    obtain ⟨k, w⟩ := c
    simp only [store]
    split
    · simp [lookup, Ne.symm h]
    · split
      · next hk => subst hk; simp [lookup, Ne.symm h]
      · simp only [lookup, ih]

/-- Where the addresses of a written memory come from. -/
theorem mem_store {m : Memory} {i : Nat} {v : Byte} {c : Host.Cell} (h : c ∈ store m i v) : c = (i, v) ∨ c ∈ m := by
  induction m with
  | nil => simpa [store] using h
  | cons d m ih =>
    obtain ⟨k, w⟩ := d
    simp only [store] at h
    split at h
    · simpa using h
    · split at h
      · rcases List.mem_cons.mp h with h | h
        · exact .inl h
        · exact .inr (List.mem_cons_of_mem _ h)
      · rcases List.mem_cons.mp h with h | h
        · exact .inr (by simp [h])
        · exact (ih h).imp_right (List.mem_cons_of_mem _)

theorem wf_iff {d : Nat} {m : Memory} :
    wf d m = true ↔ m.Pairwise (fun a b => a.1 < b.1) ∧ ∀ c ∈ m, c.1 < d := by
  simp [wf]

/-- A write keeps the canonical form. -/
theorem wf_store {d : Nat} {m : Memory} {i : Nat} {v : Byte} (hm : wf d m = true) (hi : i < d) :
    wf d (store m i v) = true := by
  rw [wf_iff] at hm ⊢
  refine ⟨?_, fun c hc => (mem_store hc).elim (fun h => h ▸ hi) (hm.2 c)⟩
  replace hm := hm.1
  induction m with
  | nil => simp [store]
  | cons c m ih =>
    obtain ⟨k, w⟩ := c
    obtain ⟨hk, hm'⟩ := List.pairwise_cons.mp hm
    simp only [store]
    split
    · next hik =>
      refine List.pairwise_cons.mpr ⟨fun b hb => ?_, hm⟩
      rcases List.mem_cons.mp hb with rfl | hb
      · exact hik
      · exact lt_trans hik (hk b hb)
    · split
      · next hik => subst hik; exact List.pairwise_cons.mpr ⟨hk, hm'⟩
      · refine List.pairwise_cons.mpr ⟨fun b hb => ?_, ih hm'⟩
        rcases mem_store hb with rfl | hb
        · change k < i; omega
        · exact hk b hb

@[simp] theorem wf_nil (d : Nat) : wf d [] = true := rfl

end Memory

/-! ## The reads and writes of the state -/

/-- `MemWrite` answers exactly on an index that exists, and changes only BUF. -/
theorem State.memWrite_eq_some {s t : State} {i : Nat} {v : Byte} (h : s.memWrite i v = some t) :
    i < s.cfg.bufDepth ∧ t = { s with buf := Memory.store s.buf i v } := by
  unfold State.memWrite at h
  split at h
  · exact ⟨‹_›, by simpa using h.symm⟩
  · cases h

/-- `MemRead` answers exactly on an index that exists. -/
theorem State.memRead_eq_some {s : State} {i : Nat} {v : Byte} (h : s.memRead i = some v) :
    i < s.cfg.bufDepth ∧ v = s.bufByte i := by
  unfold State.memRead at h
  split at h
  · exact ⟨‹_›, by simpa using h.symm⟩
  · cases h

/-- The byte a cell holds after a write. -/
theorem State.bufByte_store (s : State) (i j : Nat) (v : Byte) :
    State.bufByte { s with buf := Memory.store s.buf i v } j = if j = i then v else s.bufByte j := by
  unfold State.bufByte
  split_ifs with h
  · subst h; simp
  · simp [Memory.lookup_store_other _ _ h]

/-- The byte a cell holds depends on BUF and on the count of resets only. -/
theorem State.bufByte_congr {s t : State} {i : Nat} (hb : Memory.lookup t.buf i = Memory.lookup s.buf i)
    (hr : t.resets = s.resets) : t.bufByte i = s.bufByte i := by
  simp [State.bufByte, hb, hr]

/-- So do the first cells of BUF. -/
theorem State.bufPrefix_congr {s t : State} (hb : t.buf = s.buf) (hr : t.resets = s.resets) (n : Nat) :
    t.bufPrefix n = s.bufPrefix n := by
  unfold State.bufPrefix
  rw [show t.bufByte = s.bufByte from funext fun j => State.bufByte_congr (by rw [hb]) hr]

/-- Storing a returned byte changes at most BUF, and there the one cell `BUF[IDX]`. -/
theorem State.storeReturned_eq_some {s t : State} {rx : Byte} (h : s.storeReturned rx = some t) :
    (s.src = .buf ∧ s.idx < s.cfg.bufDepth ∧ t = { s with buf := Memory.store s.buf s.idx rx }) ∨
    (s.src ≠ .buf ∧ t = s) := by
  unfold State.storeReturned at h
  by_cases hs : s.src = .buf
  · rw [hs] at h
    exact .inl ⟨hs, State.memWrite_eq_some h⟩
  · refine .inr ⟨hs, ?_⟩
    split at h
    · contradiction
    all_goals simpa using h.symm

end Sys2Proof.Machine
end

