-- ==== Sys2Proof/Laws/State.lean ====
section
/-! SUPPORT. One lemma per field per update, true by rfl, so that no later proof unfolds a record update. -/

namespace Sys2Proof.Machine

/-! ### `State.emit` -/

@[simp] theorem State.emit_cfg (s : State) (o : Obs) : (s.emit o).cfg = s.cfg := rfl
@[simp] theorem State.emit_status (s : State) (o : Obs) : (s.emit o).status = s.status := rfl
@[simp] theorem State.emit_csn (s : State) (o : Obs) : (s.emit o).csn = s.csn := rfl
@[simp] theorem State.emit_ce (s : State) (o : Obs) : (s.emit o).ce = s.ce := rfl
@[simp] theorem State.emit_phase (s : State) (o : Obs) : (s.emit o).phase = s.phase := rfl
@[simp] theorem State.emit_idx (s : State) (o : Obs) : (s.emit o).idx = s.idx := rfl
@[simp] theorem State.emit_op (s : State) (o : Obs) : (s.emit o).op = s.op := rfl
@[simp] theorem State.emit_opc (s : State) (o : Obs) : (s.emit o).opc = s.opc := rfl
@[simp] theorem State.emit_npay (s : State) (o : Obs) : (s.emit o).npay = s.npay := rfl
@[simp] theorem State.emit_src (s : State) (o : Obs) : (s.emit o).src = s.src := rfl
@[simp] theorem State.emit_err (s : State) (o : Obs) : (s.emit o).err = s.err := rfl
@[simp] theorem State.emit_buf (s : State) (o : Obs) : (s.emit o).buf = s.buf := rfl
@[simp] theorem State.emit_xreq (s : State) (o : Obs) : (s.emit o).xreq = s.xreq := rfl
@[simp] theorem State.emit_cmd (s : State) (o : Obs) : (s.emit o).cmd = s.cmd := rfl
@[simp] theorem State.emit_rsp (s : State) (o : Obs) : (s.emit o).rsp = s.rsp := rfl
@[simp] theorem State.emit_host (s : State) (o : Obs) : (s.emit o).host = s.host := rfl
@[simp] theorem State.emit_agenda (s : State) (o : Obs) : (s.emit o).agenda = s.agenda := rfl
@[simp] theorem State.emit_trace (s : State) (o : Obs) : (s.emit o).trace = s.trace ++ [o] := rfl
@[simp] theorem State.emit_resets (s : State) (o : Obs) : (s.emit o).resets = s.resets := rfl

/-! ### `State.goto` -/

@[simp] theorem State.goto_cfg (s : State) (p : Phase) : (s.goto p).cfg = s.cfg := rfl
@[simp] theorem State.goto_status (s : State) (p : Phase) : (s.goto p).status = s.status := rfl
@[simp] theorem State.goto_csn (s : State) (p : Phase) : (s.goto p).csn = s.csn := rfl
@[simp] theorem State.goto_ce (s : State) (p : Phase) : (s.goto p).ce = s.ce := rfl
@[simp] theorem State.goto_phase (s : State) (p : Phase) : (s.goto p).phase = p := rfl
@[simp] theorem State.goto_idx (s : State) (p : Phase) : (s.goto p).idx = s.idx := rfl
@[simp] theorem State.goto_op (s : State) (p : Phase) : (s.goto p).op = s.op := rfl
@[simp] theorem State.goto_opc (s : State) (p : Phase) : (s.goto p).opc = s.opc := rfl
@[simp] theorem State.goto_npay (s : State) (p : Phase) : (s.goto p).npay = s.npay := rfl
@[simp] theorem State.goto_src (s : State) (p : Phase) : (s.goto p).src = s.src := rfl
@[simp] theorem State.goto_err (s : State) (p : Phase) : (s.goto p).err = s.err := rfl
@[simp] theorem State.goto_buf (s : State) (p : Phase) : (s.goto p).buf = s.buf := rfl
@[simp] theorem State.goto_xreq (s : State) (p : Phase) : (s.goto p).xreq = s.xreq := rfl
@[simp] theorem State.goto_cmd (s : State) (p : Phase) : (s.goto p).cmd = s.cmd := rfl
@[simp] theorem State.goto_rsp (s : State) (p : Phase) : (s.goto p).rsp = s.rsp := rfl
@[simp] theorem State.goto_host (s : State) (p : Phase) : (s.goto p).host = s.host := rfl
@[simp] theorem State.goto_agenda (s : State) (p : Phase) : (s.goto p).agenda = s.agenda := rfl
@[simp] theorem State.goto_trace (s : State) (p : Phase) : (s.goto p).trace = s.trace := rfl
@[simp] theorem State.goto_resets (s : State) (p : Phase) : (s.goto p).resets = s.resets := rfl

/-! ### `State.driveCsn` -/

@[simp] theorem State.driveCsn_cfg (s : State) (l : Level) : (s.driveCsn l).cfg = s.cfg := rfl
@[simp] theorem State.driveCsn_status (s : State) (l : Level) : (s.driveCsn l).status = s.status := rfl
@[simp] theorem State.driveCsn_csn (s : State) (l : Level) : (s.driveCsn l).csn = l := rfl
@[simp] theorem State.driveCsn_ce (s : State) (l : Level) : (s.driveCsn l).ce = s.ce := rfl
@[simp] theorem State.driveCsn_phase (s : State) (l : Level) : (s.driveCsn l).phase = s.phase := rfl
@[simp] theorem State.driveCsn_idx (s : State) (l : Level) : (s.driveCsn l).idx = s.idx := rfl
@[simp] theorem State.driveCsn_op (s : State) (l : Level) : (s.driveCsn l).op = s.op := rfl
@[simp] theorem State.driveCsn_opc (s : State) (l : Level) : (s.driveCsn l).opc = s.opc := rfl
@[simp] theorem State.driveCsn_npay (s : State) (l : Level) : (s.driveCsn l).npay = s.npay := rfl
@[simp] theorem State.driveCsn_src (s : State) (l : Level) : (s.driveCsn l).src = s.src := rfl
@[simp] theorem State.driveCsn_err (s : State) (l : Level) : (s.driveCsn l).err = s.err := rfl
@[simp] theorem State.driveCsn_buf (s : State) (l : Level) : (s.driveCsn l).buf = s.buf := rfl
@[simp] theorem State.driveCsn_xreq (s : State) (l : Level) : (s.driveCsn l).xreq = s.xreq := rfl
@[simp] theorem State.driveCsn_cmd (s : State) (l : Level) : (s.driveCsn l).cmd = s.cmd := rfl
@[simp] theorem State.driveCsn_rsp (s : State) (l : Level) : (s.driveCsn l).rsp = s.rsp := rfl
@[simp] theorem State.driveCsn_host (s : State) (l : Level) : (s.driveCsn l).host = s.host := rfl
@[simp] theorem State.driveCsn_agenda (s : State) (l : Level) : (s.driveCsn l).agenda = s.agenda := rfl
@[simp] theorem State.driveCsn_trace (s : State) (l : Level) : (s.driveCsn l).trace = s.trace ++ [.csn l] := rfl
@[simp] theorem State.driveCsn_resets (s : State) (l : Level) : (s.driveCsn l).resets = s.resets := rfl

/-! ### `State.request` -/

@[simp] theorem State.request_cfg (s : State) (tx : Byte) : (s.request tx).cfg = s.cfg := rfl
@[simp] theorem State.request_status (s : State) (tx : Byte) : (s.request tx).status = s.status := rfl
@[simp] theorem State.request_csn (s : State) (tx : Byte) : (s.request tx).csn = s.csn := rfl
@[simp] theorem State.request_ce (s : State) (tx : Byte) : (s.request tx).ce = s.ce := rfl
@[simp] theorem State.request_phase (s : State) (tx : Byte) : (s.request tx).phase = s.phase := rfl
@[simp] theorem State.request_idx (s : State) (tx : Byte) : (s.request tx).idx = s.idx := rfl
@[simp] theorem State.request_op (s : State) (tx : Byte) : (s.request tx).op = s.op := rfl
@[simp] theorem State.request_opc (s : State) (tx : Byte) : (s.request tx).opc = s.opc := rfl
@[simp] theorem State.request_npay (s : State) (tx : Byte) : (s.request tx).npay = s.npay := rfl
@[simp] theorem State.request_src (s : State) (tx : Byte) : (s.request tx).src = s.src := rfl
@[simp] theorem State.request_err (s : State) (tx : Byte) : (s.request tx).err = s.err := rfl
@[simp] theorem State.request_buf (s : State) (tx : Byte) : (s.request tx).buf = s.buf := rfl
@[simp] theorem State.request_xreq (s : State) (tx : Byte) : (s.request tx).xreq = some tx := rfl
@[simp] theorem State.request_cmd (s : State) (tx : Byte) : (s.request tx).cmd = s.cmd := rfl
@[simp] theorem State.request_rsp (s : State) (tx : Byte) : (s.request tx).rsp = s.rsp := rfl
@[simp] theorem State.request_host (s : State) (tx : Byte) : (s.request tx).host = s.host := rfl
@[simp] theorem State.request_agenda (s : State) (tx : Byte) : (s.request tx).agenda = s.agenda := rfl
@[simp] theorem State.request_trace (s : State) (tx : Byte) : (s.request tx).trace = s.trace ++ [.xreq tx] := rfl
@[simp] theorem State.request_resets (s : State) (tx : Byte) : (s.request tx).resets = s.resets := rfl

/-! ### `State.answered` -/

@[simp] theorem State.answered_cfg (s : State) (rx : Byte) (e : Bool) : (s.answered rx e).cfg = s.cfg := rfl
@[simp] theorem State.answered_status (s : State) (rx : Byte) (e : Bool) : (s.answered rx e).status = s.status := rfl
@[simp] theorem State.answered_csn (s : State) (rx : Byte) (e : Bool) : (s.answered rx e).csn = s.csn := rfl
@[simp] theorem State.answered_ce (s : State) (rx : Byte) (e : Bool) : (s.answered rx e).ce = s.ce := rfl
@[simp] theorem State.answered_phase (s : State) (rx : Byte) (e : Bool) : (s.answered rx e).phase = s.phase := rfl
@[simp] theorem State.answered_idx (s : State) (rx : Byte) (e : Bool) : (s.answered rx e).idx = s.idx := rfl
@[simp] theorem State.answered_op (s : State) (rx : Byte) (e : Bool) : (s.answered rx e).op = s.op := rfl
@[simp] theorem State.answered_opc (s : State) (rx : Byte) (e : Bool) : (s.answered rx e).opc = s.opc := rfl
@[simp] theorem State.answered_npay (s : State) (rx : Byte) (e : Bool) : (s.answered rx e).npay = s.npay := rfl
@[simp] theorem State.answered_src (s : State) (rx : Byte) (e : Bool) : (s.answered rx e).src = s.src := rfl
@[simp] theorem State.answered_err (s : State) (rx : Byte) (e : Bool) : (s.answered rx e).err = s.err := rfl
@[simp] theorem State.answered_buf (s : State) (rx : Byte) (e : Bool) : (s.answered rx e).buf = s.buf := rfl
@[simp] theorem State.answered_xreq (s : State) (rx : Byte) (e : Bool) : (s.answered rx e).xreq = none := rfl
@[simp] theorem State.answered_cmd (s : State) (rx : Byte) (e : Bool) : (s.answered rx e).cmd = s.cmd := rfl
@[simp] theorem State.answered_rsp (s : State) (rx : Byte) (e : Bool) : (s.answered rx e).rsp = s.rsp := rfl
@[simp] theorem State.answered_host (s : State) (rx : Byte) (e : Bool) : (s.answered rx e).host = s.host := rfl
@[simp] theorem State.answered_agenda (s : State) (rx : Byte) (e : Bool) : (s.answered rx e).agenda = s.agenda := rfl
@[simp] theorem State.answered_trace (s : State) (rx : Byte) (e : Bool) : (s.answered rx e).trace = s.trace ++ [.xrsp rx e] := rfl
@[simp] theorem State.answered_resets (s : State) (rx : Byte) (e : Bool) : (s.answered rx e).resets = s.resets := rfl

/-! ### `State.capture` -/

@[simp] theorem State.capture_cfg (s : State) (rx : Byte) : (s.capture rx).cfg = s.cfg := rfl
@[simp] theorem State.capture_status (s : State) (rx : Byte) : (s.capture rx).status = rx := rfl
@[simp] theorem State.capture_csn (s : State) (rx : Byte) : (s.capture rx).csn = s.csn := rfl
@[simp] theorem State.capture_ce (s : State) (rx : Byte) : (s.capture rx).ce = s.ce := rfl
@[simp] theorem State.capture_phase (s : State) (rx : Byte) : (s.capture rx).phase = s.phase := rfl
@[simp] theorem State.capture_idx (s : State) (rx : Byte) : (s.capture rx).idx = s.idx := rfl
@[simp] theorem State.capture_op (s : State) (rx : Byte) : (s.capture rx).op = s.op := rfl
@[simp] theorem State.capture_opc (s : State) (rx : Byte) : (s.capture rx).opc = s.opc := rfl
@[simp] theorem State.capture_npay (s : State) (rx : Byte) : (s.capture rx).npay = s.npay := rfl
@[simp] theorem State.capture_src (s : State) (rx : Byte) : (s.capture rx).src = s.src := rfl
@[simp] theorem State.capture_err (s : State) (rx : Byte) : (s.capture rx).err = s.err := rfl
@[simp] theorem State.capture_buf (s : State) (rx : Byte) : (s.capture rx).buf = s.buf := rfl
@[simp] theorem State.capture_xreq (s : State) (rx : Byte) : (s.capture rx).xreq = s.xreq := rfl
@[simp] theorem State.capture_cmd (s : State) (rx : Byte) : (s.capture rx).cmd = s.cmd := rfl
@[simp] theorem State.capture_rsp (s : State) (rx : Byte) : (s.capture rx).rsp = s.rsp := rfl
@[simp] theorem State.capture_host (s : State) (rx : Byte) : (s.capture rx).host = s.host := rfl
@[simp] theorem State.capture_agenda (s : State) (rx : Byte) : (s.capture rx).agenda = s.agenda := rfl
@[simp] theorem State.capture_trace (s : State) (rx : Byte) : (s.capture rx).trace = s.trace := rfl
@[simp] theorem State.capture_resets (s : State) (rx : Byte) : (s.capture rx).resets = s.resets := rfl

/-! ### `State.setIdx` -/

@[simp] theorem State.setIdx_cfg (s : State) (i : Nat) : (s.setIdx i).cfg = s.cfg := rfl
@[simp] theorem State.setIdx_status (s : State) (i : Nat) : (s.setIdx i).status = s.status := rfl
@[simp] theorem State.setIdx_csn (s : State) (i : Nat) : (s.setIdx i).csn = s.csn := rfl
@[simp] theorem State.setIdx_ce (s : State) (i : Nat) : (s.setIdx i).ce = s.ce := rfl
@[simp] theorem State.setIdx_phase (s : State) (i : Nat) : (s.setIdx i).phase = s.phase := rfl
@[simp] theorem State.setIdx_idx (s : State) (i : Nat) : (s.setIdx i).idx = i := rfl
@[simp] theorem State.setIdx_op (s : State) (i : Nat) : (s.setIdx i).op = s.op := rfl
@[simp] theorem State.setIdx_opc (s : State) (i : Nat) : (s.setIdx i).opc = s.opc := rfl
@[simp] theorem State.setIdx_npay (s : State) (i : Nat) : (s.setIdx i).npay = s.npay := rfl
@[simp] theorem State.setIdx_src (s : State) (i : Nat) : (s.setIdx i).src = s.src := rfl
@[simp] theorem State.setIdx_err (s : State) (i : Nat) : (s.setIdx i).err = s.err := rfl
@[simp] theorem State.setIdx_buf (s : State) (i : Nat) : (s.setIdx i).buf = s.buf := rfl
@[simp] theorem State.setIdx_xreq (s : State) (i : Nat) : (s.setIdx i).xreq = s.xreq := rfl
@[simp] theorem State.setIdx_cmd (s : State) (i : Nat) : (s.setIdx i).cmd = s.cmd := rfl
@[simp] theorem State.setIdx_rsp (s : State) (i : Nat) : (s.setIdx i).rsp = s.rsp := rfl
@[simp] theorem State.setIdx_host (s : State) (i : Nat) : (s.setIdx i).host = s.host := rfl
@[simp] theorem State.setIdx_agenda (s : State) (i : Nat) : (s.setIdx i).agenda = s.agenda := rfl
@[simp] theorem State.setIdx_trace (s : State) (i : Nat) : (s.setIdx i).trace = s.trace := rfl
@[simp] theorem State.setIdx_resets (s : State) (i : Nat) : (s.setIdx i).resets = s.resets := rfl

/-! ### `State.clearErr` -/

@[simp] theorem State.clearErr_cfg (s : State) : (s.clearErr).cfg = s.cfg := rfl
@[simp] theorem State.clearErr_status (s : State) : (s.clearErr).status = s.status := rfl
@[simp] theorem State.clearErr_csn (s : State) : (s.clearErr).csn = s.csn := rfl
@[simp] theorem State.clearErr_ce (s : State) : (s.clearErr).ce = s.ce := rfl
@[simp] theorem State.clearErr_phase (s : State) : (s.clearErr).phase = s.phase := rfl
@[simp] theorem State.clearErr_idx (s : State) : (s.clearErr).idx = s.idx := rfl
@[simp] theorem State.clearErr_op (s : State) : (s.clearErr).op = s.op := rfl
@[simp] theorem State.clearErr_opc (s : State) : (s.clearErr).opc = s.opc := rfl
@[simp] theorem State.clearErr_npay (s : State) : (s.clearErr).npay = s.npay := rfl
@[simp] theorem State.clearErr_src (s : State) : (s.clearErr).src = s.src := rfl
@[simp] theorem State.clearErr_err (s : State) : (s.clearErr).err = false := rfl
@[simp] theorem State.clearErr_buf (s : State) : (s.clearErr).buf = s.buf := rfl
@[simp] theorem State.clearErr_xreq (s : State) : (s.clearErr).xreq = s.xreq := rfl
@[simp] theorem State.clearErr_cmd (s : State) : (s.clearErr).cmd = s.cmd := rfl
@[simp] theorem State.clearErr_rsp (s : State) : (s.clearErr).rsp = s.rsp := rfl
@[simp] theorem State.clearErr_host (s : State) : (s.clearErr).host = s.host := rfl
@[simp] theorem State.clearErr_agenda (s : State) : (s.clearErr).agenda = s.agenda := rfl
@[simp] theorem State.clearErr_trace (s : State) : (s.clearErr).trace = s.trace := rfl
@[simp] theorem State.clearErr_resets (s : State) : (s.clearErr).resets = s.resets := rfl

/-! ### `State.setErr` -/

@[simp] theorem State.setErr_cfg (s : State) : (s.setErr).cfg = s.cfg := rfl
@[simp] theorem State.setErr_status (s : State) : (s.setErr).status = s.status := rfl
@[simp] theorem State.setErr_csn (s : State) : (s.setErr).csn = s.csn := rfl
@[simp] theorem State.setErr_ce (s : State) : (s.setErr).ce = s.ce := rfl
@[simp] theorem State.setErr_phase (s : State) : (s.setErr).phase = s.phase := rfl
@[simp] theorem State.setErr_idx (s : State) : (s.setErr).idx = s.idx := rfl
@[simp] theorem State.setErr_op (s : State) : (s.setErr).op = s.op := rfl
@[simp] theorem State.setErr_opc (s : State) : (s.setErr).opc = s.opc := rfl
@[simp] theorem State.setErr_npay (s : State) : (s.setErr).npay = s.npay := rfl
@[simp] theorem State.setErr_src (s : State) : (s.setErr).src = s.src := rfl
@[simp] theorem State.setErr_err (s : State) : (s.setErr).err = true := rfl
@[simp] theorem State.setErr_buf (s : State) : (s.setErr).buf = s.buf := rfl
@[simp] theorem State.setErr_xreq (s : State) : (s.setErr).xreq = s.xreq := rfl
@[simp] theorem State.setErr_cmd (s : State) : (s.setErr).cmd = s.cmd := rfl
@[simp] theorem State.setErr_rsp (s : State) : (s.setErr).rsp = s.rsp := rfl
@[simp] theorem State.setErr_host (s : State) : (s.setErr).host = s.host := rfl
@[simp] theorem State.setErr_agenda (s : State) : (s.setErr).agenda = s.agenda := rfl
@[simp] theorem State.setErr_trace (s : State) : (s.setErr).trace = s.trace := rfl
@[simp] theorem State.setErr_resets (s : State) : (s.setErr).resets = s.resets := rfl

/-! ### `State.busError` -/

@[simp] theorem State.busError_cfg (s : State) : (s.busError).cfg = s.cfg := rfl
@[simp] theorem State.busError_status (s : State) : (s.busError).status = s.status := rfl
@[simp] theorem State.busError_csn (s : State) : (s.busError).csn = s.csn := rfl
@[simp] theorem State.busError_ce (s : State) : (s.busError).ce = s.ce := rfl
@[simp] theorem State.busError_phase (s : State) : (s.busError).phase = .desel := rfl
@[simp] theorem State.busError_idx (s : State) : (s.busError).idx = s.idx := rfl
@[simp] theorem State.busError_op (s : State) : (s.busError).op = s.op := rfl
@[simp] theorem State.busError_opc (s : State) : (s.busError).opc = s.opc := rfl
@[simp] theorem State.busError_npay (s : State) : (s.busError).npay = s.npay := rfl
@[simp] theorem State.busError_src (s : State) : (s.busError).src = s.src := rfl
@[simp] theorem State.busError_err (s : State) : (s.busError).err = true := rfl
@[simp] theorem State.busError_buf (s : State) : (s.busError).buf = s.buf := rfl
@[simp] theorem State.busError_xreq (s : State) : (s.busError).xreq = s.xreq := rfl
@[simp] theorem State.busError_cmd (s : State) : (s.busError).cmd = s.cmd := rfl
@[simp] theorem State.busError_rsp (s : State) : (s.busError).rsp = s.rsp := rfl
@[simp] theorem State.busError_host (s : State) : (s.busError).host = s.host := rfl
@[simp] theorem State.busError_agenda (s : State) : (s.busError).agenda = s.agenda := rfl
@[simp] theorem State.busError_trace (s : State) : (s.busError).trace = s.trace := rfl
@[simp] theorem State.busError_resets (s : State) : (s.busError).resets = s.resets := rfl

/-! ### `State.latch` -/

@[simp] theorem State.latch_cfg (s : State) (i : Instr) : (s.latch i).cfg = s.cfg := rfl
@[simp] theorem State.latch_status (s : State) (i : Instr) : (s.latch i).status = s.status := rfl
@[simp] theorem State.latch_csn (s : State) (i : Instr) : (s.latch i).csn = s.csn := rfl
@[simp] theorem State.latch_ce (s : State) (i : Instr) : (s.latch i).ce = s.ce := rfl
@[simp] theorem State.latch_phase (s : State) (i : Instr) : (s.latch i).phase = s.phase := rfl
@[simp] theorem State.latch_idx (s : State) (i : Instr) : (s.latch i).idx = s.idx := rfl
@[simp] theorem State.latch_op (s : State) (i : Instr) : (s.latch i).op = i.op := rfl
@[simp] theorem State.latch_opc (s : State) (i : Instr) : (s.latch i).opc = i.opcode s.cfg := rfl
@[simp] theorem State.latch_npay (s : State) (i : Instr) : (s.latch i).npay = (plan i).2 := rfl
@[simp] theorem State.latch_src (s : State) (i : Instr) : (s.latch i).src = (plan i).1 := rfl
@[simp] theorem State.latch_err (s : State) (i : Instr) : (s.latch i).err = s.err := rfl
@[simp] theorem State.latch_buf (s : State) (i : Instr) : (s.latch i).buf = s.buf := rfl
@[simp] theorem State.latch_xreq (s : State) (i : Instr) : (s.latch i).xreq = s.xreq := rfl
@[simp] theorem State.latch_cmd (s : State) (i : Instr) : (s.latch i).cmd = s.cmd := rfl
@[simp] theorem State.latch_rsp (s : State) (i : Instr) : (s.latch i).rsp = s.rsp := rfl
@[simp] theorem State.latch_host (s : State) (i : Instr) : (s.latch i).host = s.host := rfl
@[simp] theorem State.latch_agenda (s : State) (i : Instr) : (s.latch i).agenda = s.agenda := rfl
@[simp] theorem State.latch_trace (s : State) (i : Instr) : (s.latch i).trace = s.trace := rfl
@[simp] theorem State.latch_resets (s : State) (i : Instr) : (s.latch i).resets = s.resets := rfl

/-! ### `State.keepPlaced` -/

@[simp] theorem State.keepPlaced_cfg (s : State) : s.keepPlaced.cfg = s.cfg := rfl
@[simp] theorem State.keepPlaced_status (s : State) : s.keepPlaced.status = s.status := rfl
@[simp] theorem State.keepPlaced_csn (s : State) : s.keepPlaced.csn = s.csn := rfl
@[simp] theorem State.keepPlaced_ce (s : State) : s.keepPlaced.ce = s.ce := rfl
@[simp] theorem State.keepPlaced_phase (s : State) : s.keepPlaced.phase = s.phase := rfl
@[simp] theorem State.keepPlaced_idx (s : State) : s.keepPlaced.idx = s.idx := rfl
@[simp] theorem State.keepPlaced_op (s : State) : s.keepPlaced.op = s.op := rfl
@[simp] theorem State.keepPlaced_opc (s : State) : s.keepPlaced.opc = s.opc := rfl
@[simp] theorem State.keepPlaced_npay (s : State) : s.keepPlaced.npay = s.npay := rfl
@[simp] theorem State.keepPlaced_src (s : State) : s.keepPlaced.src = s.src := rfl
@[simp] theorem State.keepPlaced_err (s : State) : s.keepPlaced.err = s.err := rfl
@[simp] theorem State.keepPlaced_buf (s : State) : s.keepPlaced.buf = s.buf := rfl
@[simp] theorem State.keepPlaced_xreq (s : State) : s.keepPlaced.xreq = s.xreq := rfl
@[simp] theorem State.keepPlaced_cmd (s : State) : s.keepPlaced.cmd = s.cmd := rfl
@[simp] theorem State.keepPlaced_rsp (s : State) : s.keepPlaced.rsp = s.rsp := rfl
@[simp] theorem State.keepPlaced_host (s : State) : s.keepPlaced.host = { s.host with copy := s.placed s.src s.npay } := rfl
@[simp] theorem State.keepPlaced_agenda (s : State) : s.keepPlaced.agenda = s.agenda := rfl
@[simp] theorem State.keepPlaced_trace (s : State) : s.keepPlaced.trace = s.trace := rfl
@[simp] theorem State.keepPlaced_resets (s : State) : s.keepPlaced.resets = s.resets := rfl

/-! ### `State.noteResult` -/

@[simp] theorem State.noteResult_cfg (s : State) : s.noteResult.cfg = s.cfg := rfl
@[simp] theorem State.noteResult_status (s : State) : s.noteResult.status = s.status := rfl
@[simp] theorem State.noteResult_csn (s : State) : s.noteResult.csn = s.csn := rfl
@[simp] theorem State.noteResult_ce (s : State) : s.noteResult.ce = s.ce := rfl
@[simp] theorem State.noteResult_phase (s : State) : s.noteResult.phase = s.phase := rfl
@[simp] theorem State.noteResult_idx (s : State) : s.noteResult.idx = s.idx := rfl
@[simp] theorem State.noteResult_op (s : State) : s.noteResult.op = s.op := rfl
@[simp] theorem State.noteResult_opc (s : State) : s.noteResult.opc = s.opc := rfl
@[simp] theorem State.noteResult_npay (s : State) : s.noteResult.npay = s.npay := rfl
@[simp] theorem State.noteResult_src (s : State) : s.noteResult.src = s.src := rfl
@[simp] theorem State.noteResult_err (s : State) : s.noteResult.err = s.err := rfl
@[simp] theorem State.noteResult_buf (s : State) : s.noteResult.buf = s.buf := rfl
@[simp] theorem State.noteResult_xreq (s : State) : s.noteResult.xreq = s.xreq := rfl
@[simp] theorem State.noteResult_cmd (s : State) : s.noteResult.cmd = s.cmd := rfl
@[simp] theorem State.noteResult_rsp (s : State) : s.noteResult.rsp = s.rsp := rfl
@[simp] theorem State.noteResult_host (s : State) :
    s.noteResult.host = { s.host with
      regs := s.host.regs.map (RegDesc.result s.cfg s.op s.opc s.err (s.bufPrefix s.npay) s.host.copy) } := rfl
@[simp] theorem State.noteResult_agenda (s : State) : s.noteResult.agenda = s.agenda := rfl
@[simp] theorem State.noteResult_trace (s : State) : s.noteResult.trace = s.trace := rfl
@[simp] theorem State.noteResult_resets (s : State) : s.noteResult.resets = s.resets := rfl

/-! ### `State.takeReset` -/

@[simp] theorem State.takeReset_cfg (s : State) : s.takeReset.cfg = s.cfg := rfl
@[simp] theorem State.takeReset_status (s : State) : s.takeReset.status = Config.statusAtReset (s.resets + 1) := rfl
@[simp] theorem State.takeReset_csn (s : State) : s.takeReset.csn = .high := rfl
@[simp] theorem State.takeReset_ce (s : State) : s.takeReset.ce = .low := rfl
@[simp] theorem State.takeReset_phase (s : State) : s.takeReset.phase = .settle := rfl
@[simp] theorem State.takeReset_idx (s : State) : s.takeReset.idx = 0 := rfl
@[simp] theorem State.takeReset_op (s : State) : s.takeReset.op = .rdreg := rfl
@[simp] theorem State.takeReset_opc (s : State) : s.takeReset.opc = 0 := rfl
@[simp] theorem State.takeReset_npay (s : State) : s.takeReset.npay = 0 := rfl
@[simp] theorem State.takeReset_src (s : State) : s.takeReset.src = .none := rfl
@[simp] theorem State.takeReset_err (s : State) : s.takeReset.err = false := rfl
@[simp] theorem State.takeReset_buf (s : State) : s.takeReset.buf = [] := rfl
@[simp] theorem State.takeReset_xreq (s : State) : s.takeReset.xreq = none := rfl
@[simp] theorem State.takeReset_cmd (s : State) : s.takeReset.cmd = s.cmd := rfl
@[simp] theorem State.takeReset_rsp (s : State) : s.takeReset.rsp = none := rfl
@[simp] theorem State.takeReset_host (s : State) : s.takeReset.host = HostData.initial s.cfg := rfl
@[simp] theorem State.takeReset_agenda (s : State) : s.takeReset.agenda = s.agenda := rfl
@[simp] theorem State.takeReset_trace (s : State) : s.takeReset.trace = s.trace ++ [.reset] ++ (if s.csn = .low then [.csn .high] else []) := rfl
@[simp] theorem State.takeReset_resets (s : State) : s.takeReset.resets = s.resets + 1 := rfl

/-! ### ACCEPT -/

@[simp] theorem accept_cfg (i : Instr) (s : State) : (accept i s).cfg = s.cfg := rfl
@[simp] theorem accept_status (i : Instr) (s : State) : (accept i s).status = s.status := rfl
@[simp] theorem accept_csn (i : Instr) (s : State) : (accept i s).csn = s.csn := rfl
@[simp] theorem accept_ce (i : Instr) (s : State) : (accept i s).ce = s.ce := rfl
@[simp] theorem accept_phase (i : Instr) (s : State) : (accept i s).phase = .sel := rfl
@[simp] theorem accept_idx (i : Instr) (s : State) : (accept i s).idx = s.idx := rfl
@[simp] theorem accept_op (i : Instr) (s : State) : (accept i s).op = i.op := rfl
@[simp] theorem accept_opc (i : Instr) (s : State) : (accept i s).opc = i.opcode s.cfg := rfl
@[simp] theorem accept_npay (i : Instr) (s : State) : (accept i s).npay = (plan i).2 := rfl
@[simp] theorem accept_src (i : Instr) (s : State) : (accept i s).src = (plan i).1 := rfl
@[simp] theorem accept_err (i : Instr) (s : State) : (accept i s).err = false := rfl
@[simp] theorem accept_buf (i : Instr) (s : State) : (accept i s).buf = s.buf := rfl
@[simp] theorem accept_xreq (i : Instr) (s : State) : (accept i s).xreq = s.xreq := rfl
@[simp] theorem accept_cmd (i : Instr) (s : State) : (accept i s).cmd = none := rfl
@[simp] theorem accept_rsp (i : Instr) (s : State) : (accept i s).rsp = s.rsp := rfl
@[simp] theorem accept_host (i : Instr) (s : State) :
    (accept i s).host = { s.host with copy := s.placed (plan i).1 (plan i).2 } := rfl
@[simp] theorem accept_agenda (i : Instr) (s : State) : (accept i s).agenda = s.agenda := rfl
@[simp] theorem accept_trace (i : Instr) (s : State) : (accept i s).trace = s.trace ++ [.cmd i] := rfl
@[simp] theorem accept_resets (i : Instr) (s : State) : (accept i s).resets = s.resets := rfl

end Sys2Proof.Machine
end

