-- ==== Sys2Proof/Laws/Sequencer.lean ====
section
/-! SUPPORT. Said once: everything one atomic step can do (`tick_cases`), what a host act can do (`hostStep_did`), and
that a property every atomic step keeps is kept by a whole command and by `step` (`step_induction`). -/

namespace Sys2Proof.Machine

/-! ## The meanings are one operation -/

/-- Every command's meaning is the shared one. -/
theorem exec_eq_runCommand (i : Instr) (s : State) : exec i s = runCommand i s := by
  cases i <;> rfl

theorem canAccept_iff {i : Instr} {s : State} : canAccept i s = true ↔ s.phase = .idle ∧ admitted s.cfg i = true := by
  simp [canAccept]

/-- A command's meaning runs the frame of the accepted command, or leaves the state as it is. -/
theorem runCommand_of_canAccept {i : Instr} {s : State} (h : canAccept i s = true) :
    runCommand i s = runFrame (frameFuel (accept i s)) (accept i s) := by simp [runCommand, h]

theorem runCommand_of_not_canAccept {i : Instr} {s : State} (h : canAccept i s = false) : runCommand i s = .next s := by
  simp [runCommand, h]

/-! ## What the host can change -/

/-- The registers and channels no host act writes. -/
structure HostFrame (s t : State) : Prop where
  cfg : t.cfg = s.cfg
  status : t.status = s.status
  csn : t.csn = s.csn
  ce : t.ce = s.ce
  phase : t.phase = s.phase
  idx : t.idx = s.idx
  op : t.op = s.op
  opc : t.opc = s.opc
  npay : t.npay = s.npay
  src : t.src = s.src
  err : t.err = s.err
  xreq : t.xreq = s.xreq
  rsp : t.rsp = s.rsp
  agenda : t.agenda = s.agenda
  resets : t.resets = s.resets

theorem HostFrame.refl (s : State) : HostFrame s s := by constructor <;> rfl

/-- The events a host act can add. -/
def Obs.isHost : Obs → Bool
  | .statusRead _ | .bufRead _ _ | .pipeAddr _ | .rangeError => true
  | .cmd _ | .csn _ | .xreq _ | .xrsp _ _ | .rsp _ _ | .reset | .settled => false

/-- What a host act can do when it is let through: BUF is unchanged or one existing cell is written that the engine does not
own, at most one host event is added, and of the rest only the port and the companion data can change: the pipe addresses,
which keep their width, and one new Register Descriptor, of a width a register can have. -/
structure HostDid (s t : State) : Prop where
  frame : HostFrame s t
  copy : t.host.copy = s.host.copy
  regs : t.host.regs = s.host.regs ∨ ∃ d, d.WellFormed = true ∧ t.host.regs = s.host.regs ++ [d]
  pipes : PipesOk s → PipesOk t
  buf : t.buf = s.buf ∨ ∃ i v, i < s.cfg.bufDepth ∧ s.owns i = false ∧ t.buf = Memory.store s.buf i v
  trace : t.trace = s.trace ∨ ∃ o, o.isHost = true ∧ t.trace = s.trace ++ [o]

theorem HostDid.refl (s : State) : HostDid s s := ⟨.refl s, rfl, .inl rfl, id, .inl rfl, .inl rfl⟩

theorem HostDid.port (s : State) (c : Option Descriptor) : HostDid s { s with cmd := c } :=
  ⟨by constructor <;> rfl, rfl, .inl rfl, id, .inl rfl, .inl rfl⟩

theorem HostDid.setPipes (s : State) (p : Pipes) (h : PipesOk s → PipesOk { s with host := { s.host with pipes := p } }) :
    HostDid s { s with host := { s.host with pipes := p } } :=
  ⟨by constructor <;> rfl, rfl, .inl rfl, h, .inl rfl, .inl rfl⟩

theorem HostDid.newReg (s : State) {d : RegDesc} (h : d.WellFormed = true) :
    HostDid s { s with host := { s.host with regs := s.host.regs ++ [d] } } :=
  ⟨by constructor <;> rfl, rfl, .inr ⟨d, h, rfl⟩, id, .inl rfl, .inl rfl⟩

theorem HostDid.emit (s : State) {o : Obs} (h : o.isHost = true) : HostDid s (s.emit o) :=
  ⟨by constructor <;> rfl, rfl, .inl rfl, id, .inl rfl, .inr ⟨o, h, rfl⟩⟩

theorem HostDid.store (s : State) {i : Nat} (v : Byte) (hi : i < s.cfg.bufDepth) (ho : s.owns i = false) :
    HostDid s { s with buf := Memory.store s.buf i v } :=
  ⟨by constructor <;> rfl, rfl, .inl rfl, id, .inr ⟨i, v, hi, ho, rfl⟩, .inl rfl⟩

theorem pipesOk_setFull {s : State} {p : FullPipe} {bytes : List Byte} (hb : bytes.length = s.cfg.nAddr) (h : PipesOk s) :
    PipesOk { s with host := { s.host with pipes := s.host.pipes.setFull p bytes } } := by
  cases p <;> simp_all [PipesOk, Pipes.setFull]

theorem pipesOk_setOwn {s : State} {p : PartialPipe} {b : Byte} (h : PipesOk s) :
    PipesOk { s with host := { s.host with pipes := s.host.pipes.setOwn p b } } := by
  cases p <;> simpa [PipesOk, Pipes.setOwn] using h

/-- The BUF port lets an act through only for an existing cell the engine does not own. -/
theorem hostBuf_eq_next {i : Nat} {s t : State} {act : Out} (h : hostBuf i s act = .next t) :
    i < s.cfg.bufDepth ∧ s.owns i = false ∧ act = .next t := by
  unfold hostBuf at h
  split at h
  · cases h
  · split at h
    · cases h
    · exact ⟨by omega, by simp_all, h⟩

/-- Everything an encode act can do when it is let through: RangeError is reported and nothing is written, or the encoded
byte is written to the one cell. -/
theorem hostEncode_eq_next {i : Nat} {f : Field} {cur : Byte} {level : Nat} {s t : State}
    (h : hostEncode i f cur level s = .next t) :
    f.WellFormed = true ∧
      (f.encode cur level = .error .outOfRange ∧ t = s.emit .rangeError ∨
       ∃ b, f.encode cur level = .ok b ∧ i < s.cfg.bufDepth ∧ s.owns i = false ∧
         t = { s with buf := Memory.store s.buf i b }) := by
  unfold hostEncode at h
  split at h
  · refine ⟨‹_›, ?_⟩
    split at h
    · obtain ⟨hi, ho, h⟩ := hostBuf_eq_next h
      cases h; exact .inr ⟨_, ‹_›, hi, ho, rfl⟩
    · cases h; exact .inl ⟨‹_›, rfl⟩
  · cases h

theorem hostEncode_did {i : Nat} {f : Field} {cur : Byte} {level : Nat} {s t : State}
    (h : hostEncode i f cur level s = .next t) : HostDid s t := by
  obtain ⟨-, ⟨-, rfl⟩ | ⟨b, -, hi, ho, rfl⟩⟩ := hostEncode_eq_next h
  · exact .emit s rfl
  · exact .store s b hi ho

/-- Everything one host act can do. -/
theorem hostStep_did {a : HostAct} {s t : State} (h : hostStep a s = .next t) : HostDid s t := by
  unfold hostStep at h
  split at h
  · cases h; exact .port s _
  · obtain ⟨hi, ho, h⟩ := hostBuf_eq_next h
    cases h; exact .store s _ hi ho
  · obtain ⟨-, -, h⟩ := hostBuf_eq_next h
    cases h; exact .emit s rfl
  · cases h; exact .emit s rfl
  · split at h
    · cases h; exact .setPipes s _ (pipesOk_setFull ‹_›)
    · cases h
  · cases h; exact .setPipes s _ pipesOk_setOwn
  · cases h; exact .emit s rfl
  · cases h; exact .emit s rfl
  · split at h
    · cases h; exact .newReg s ‹_›
    · cases h
  · exact hostEncode_did (hostBuf_eq_next h).2.2
  · split at h
    · exact hostEncode_did h
    · cases h; exact .refl s

/-! ## What one atomic step can do -/

/-- The state the engine moves from: a `pass` at the head of the agenda is used up. -/
def Yields (s u : State) : Prop := u = s ∨ ∃ r, s.agenda = .pass :: r ∧ u = { s with agenda := r }

/-- Everything one atomic step can do when it answers a next state. -/
inductive Ticked (s : State) : State → Prop where
  | hold (u : State) : Yields s u → engineTurn u = none → Ticked s u
  | accept (i : Instr) (d : Descriptor) (u : State) : Yields s u → s.phase = .idle → s.cmd = some d →
      decodeDescriptor s.cfg d = .ok i → admitted s.cfg i = true → Ticked s (accept i u)
  | select (u : State) : Yields s u → s.phase = .sel → Ticked s (select u)
  | opcTx (u : State) : Yields s u → s.phase = .opcTx → Ticked s (opcTx u)
  | payTx (u : State) (tx : Byte) : Yields s u → s.phase = .payTx → u.payByte = some tx →
      Ticked s ((u.request tx).goto .payRx)
  | deselect (u : State) : Yields s u → s.phase = .desel → Ticked s (deselect u)
  | respond (u : State) : Yields s u → s.phase = .done → Ticked s (respond u)
  | reset (r : List EnvEvent) : s.agenda = .reset :: r → Ticked s { s with agenda := r }.takeReset
  | settled (us : Nat) (r : List EnvEvent) : s.agenda = .settled us :: r → engineTurn s = none →
      Ticked s (settled us { s with agenda := r })
  | opcRx (rx : Byte) (e : Bool) (r : List EnvEvent) : s.agenda = .xrsp rx e :: r → s.phase = .opcRx →
      Ticked s (opcRx rx e { s with agenda := r })
  | payRx (rx : Byte) (e : Bool) (r : List EnvEvent) (t : State) : s.agenda = .xrsp rx e :: r → s.phase = .payRx →
      payRx rx e { s with agenda := r } = .next t → Ticked s t
  | drop (e : EnvEvent) (r : List EnvEvent) : s.agenda = e :: r → engineTurn s = none →
      (∀ rx err, e = .xrsp rx err → s.phase.waiting = false) → Ticked s { s with agenda := r }
  | host (a : HostAct) (r : List EnvEvent) (t : State) : HostTurn s a r →
      hostStep a { s with agenda := r } = .next t → HostDid { s with agenda := r } t → Ticked s t

theorem Yields.refl (s : State) : Yields s s := .inl rfl

theorem Yields.phase {s u : State} (h : Yields s u) : u.phase = s.phase := by
  obtain rfl | ⟨r, -, rfl⟩ := h <;> rfl

/-- An atomic outcome of the engine's own turn. -/
theorem ticked_of_engineTurn {s u t : State} (hu : Yields s u) (h : engineTurn u = some (.atomic (.next t))) :
    Ticked s t := by
  have hp := hu.phase
  unfold engineTurn at h
  split at h <;> rename_i hph
  · cases h
  · cases h
  · cases h
  · split at h
    · cases h
    · split at h
      · split at h <;> cases h
      · cases h
  · cases h; exact .select u hu (hp ▸ hph)
  · cases h; exact .opcTx u hu (hp ▸ hph)
  · unfold payTx at h
    split at h <;> cases h
    exact .payTx u _ hu (hp ▸ hph) ‹_›
  · cases h; exact .deselect u hu (hp ▸ hph)
  · cases h; exact .respond u hu (hp ▸ hph)

/-- The engine's own turn is a command only in IDLE, for an admitted command on the port. -/
theorem engineTurn_command {u t : State} {i : Instr} (h : engineTurn u = some (.command i t)) :
    t = u ∧ u.phase = .idle ∧ (∃ d, u.cmd = some d ∧ decodeDescriptor u.cfg d = .ok i) ∧ admitted u.cfg i = true := by
  unfold engineTurn at h
  split at h <;> rename_i hph <;> try cases h
  split at h
  · cases h
  · split at h
    · split at h <;> cases h
      exact ⟨rfl, hph, ⟨_, ‹_›, ‹_›⟩, ‹_›⟩
    · cases h

/-- When the machine's turn is a command. -/
theorem turn_command {s t : State} {i : Instr} (h : turn s = .command i t) :
    Yields s t ∧ s.phase = .idle ∧ (∃ d, s.cmd = some d ∧ decodeDescriptor s.cfg d = .ok i) ∧
      admitted s.cfg i = true := by
  have move : ∀ u, Yields s u → engineMove u = .command i t →
      Yields s t ∧ s.phase = .idle ∧ (∃ d, s.cmd = some d ∧ decodeDescriptor s.cfg d = .ok i) ∧
        admitted s.cfg i = true := by
    intro u hu h
    unfold engineMove at h
    split at h
    · subst h
      obtain ⟨rfl, hp, hd, ha⟩ := engineTurn_command ‹_›
      refine ⟨hu, hu.phase ▸ hp, ?_⟩
      obtain rfl | ⟨r, -, rfl⟩ := hu <;> exact ⟨hd, ha⟩
    · cases h
  unfold turn at h
  split at h
  · exact move s (.refl s) h
  · cases h
  · cases h
  · exact move _ (.inr ⟨_, ‹_›, rfl⟩) h
  · split at h
    · exact move s (.refl s) (by rw [engineMove, ‹engineTurn s = _›]; exact h)
    · cases h

/-- A command on turn can be accepted. -/
theorem canAccept_of_turn {s t : State} {i : Instr} (h : turn s = .command i t) : canAccept i t = true := by
  obtain ⟨hy, hp, -, ha⟩ := turn_command h
  obtain rfl | ⟨r, -, rfl⟩ := hy <;> exact canAccept_iff.mpr ⟨hp, ha⟩

/-- Everything one event of the environment can do at an engine that holds; an act of the host may also come at once. -/
theorem ticked_of_envStep {s t : State} {e : EnvEvent} {r : List EnvEvent} (ha : s.agenda = e :: r)
    (hn : engineTurn s = none) (h : envStep e { s with agenda := r } = .next t) : Ticked s t := by
  cases e with
  | pass => cases h; exact .drop _ _ ha hn (by intro _ _ h; cases h)
  | reset => cases h; exact .reset _ ha
  | settled us => cases h; exact .settled _ _ ha hn
  | xrsp rx err =>
    simp only [envStep] at h
    split at h <;> rename_i hp
    · cases h; exact .opcRx _ _ _ ha hp
    · exact .payRx _ _ _ _ ha hp h
    all_goals
      cases h
      exact .drop _ _ ha hn (fun _ _ _ => by have hp' : s.phase = _ := hp; rw [hp']; rfl)
  | xrspLate _ _ => cases h; exact .drop _ _ ha hn (by intro _ _ h; cases h)
  | host a => exact .host a _ _ (.inr ⟨ha, hn⟩) h (hostStep_did h)
  | hostNow a => exact .host a _ _ (.inl ha) h (hostStep_did h)

/-- THE INVERSION LEMMA: everything one atomic step can do. -/
theorem tick_cases {s t : State} (h : tick s = .next t) : Ticked s t := by
  have move : ∀ u, Yields s u → (match engineMove u with
      | .command i t => Host.Outcome.next (accept i t) | .atomic o => o) = .next t → Ticked s t := by
    intro u hu h
    unfold engineMove at h
    split at h
    · rename_i ht
      split at ht
      · subst ht
        obtain ⟨rfl, hp, ⟨d, hd, hi⟩, ha⟩ := engineTurn_command ‹_›
        cases h
        obtain rfl | ⟨r, hr, rfl⟩ := hu
        · exact .accept _ d _ (.refl _) hp hd hi ha
        · exact .accept _ d _ (.inr ⟨r, hr, rfl⟩) hp hd hi ha
      · cases ht
    · rename_i ht
      split at ht
      · subst ht; subst h
        exact ticked_of_engineTurn hu ‹_›
      · cases ht; cases h
        exact .hold _ hu ‹_›
  unfold tick turn at h
  split at h
  · rename_i i u ht
    have hc : turn s = .command i u := ht
    obtain ⟨hy, hp, ⟨d, hd, hi⟩, ha⟩ := turn_command hc
    cases h
    exact .accept i d u hy hp hd hi ha
  · rename_i o ht
    subst h
    split at ht
    · exact move s (.refl s) (by rw [ht])
    · cases ht; exact .reset _ ‹_›
    · injection ht with ht
      exact .host _ _ _ (.inl ‹_›) ht (hostStep_did ht)
    · exact move _ (.inr ⟨_, ‹_›, rfl⟩) (by rw [ht])
    · split at ht
      · exact move s (.refl s) (by rw [engineMove, ‹engineTurn s = _›]; simp [ht])
      · injection ht with ht
        exact ticked_of_envStep ‹_› ‹_› ht

/-! ## What each atomic step does, phase by phase -/

/-- With a calm agenda the engine takes its own step. -/
theorem turn_of_engineTurn {s : State} {t : Turn} (hc : calm s.agenda = true) (h : engineTurn s = some t) : turn s = t := by
  unfold turn
  split
  · simp [engineMove, h]
  · simp [calm, *] at hc
  · simp [calm, *] at hc
  · simp [calm, *] at hc
  · simp [h]

theorem tick_of_engineTurn {s : State} {o : Out} (hc : calm s.agenda = true) (h : engineTurn s = some (.atomic o)) :
    tick s = o := by simp [tick, turn_of_engineTurn hc h]

theorem tick_select {s : State} (hc : calm s.agenda = true) (hp : s.phase = .sel) : tick s = .next (select s) :=
  tick_of_engineTurn hc (by simp [engineTurn, hp])

theorem tick_opcTx {s : State} (hc : calm s.agenda = true) (hp : s.phase = .opcTx) : tick s = .next (opcTx s) :=
  tick_of_engineTurn hc (by simp [engineTurn, hp])

theorem tick_payTx {s : State} (hc : calm s.agenda = true) (hp : s.phase = .payTx) : tick s = payTx s :=
  tick_of_engineTurn hc (by simp [engineTurn, hp])

theorem tick_deselect {s : State} (hc : calm s.agenda = true) (hp : s.phase = .desel) : tick s = .next (deselect s) :=
  tick_of_engineTurn hc (by simp [engineTurn, hp])

theorem tick_respond {s : State} (hc : calm s.agenda = true) (hp : s.phase = .done) : tick s = .next (respond s) :=
  tick_of_engineTurn hc (by simp [engineTurn, hp])

theorem tick_opcRx {s : State} {rx : Byte} {e : Bool} {r : List EnvEvent} (ha : s.agenda = .xrsp rx e :: r)
    (hp : s.phase = .opcRx) : tick s = .next (opcRx rx e { s with agenda := r }) := by
  simp [tick, turn, ha, engineTurn, hp, envStep]

theorem tick_payRx {s : State} {rx : Byte} {e : Bool} {r : List EnvEvent} (ha : s.agenda = .xrsp rx e :: r)
    (hp : s.phase = .payRx) : tick s = payRx rx e { s with agenda := r } := by
  simp [tick, turn, ha, engineTurn, hp, envStep]

theorem tick_reset {s : State} {r : List EnvEvent} (ha : s.agenda = .reset :: r) :
    tick s = .next { s with agenda := r }.takeReset := by
  simp [tick, turn, ha, envStep]

/-- The host on its turn. -/
theorem tick_host {s : State} {a : HostAct} {r : List EnvEvent} (h : HostTurn s a r) :
    tick s = hostStep a { s with agenda := r } := by
  rcases h with ha | ⟨ha, hn⟩
  · simp [tick, turn, ha, envStep]
  · simp [tick, turn, ha, hn, envStep]

/-- In a phase other than IDLE a step of the machine is one atomic step. -/
theorem step_eq_tick {s : State} (h : s.phase ≠ .idle) : step s = tick s := by
  unfold step tick
  split
  · exact absurd (turn_command ‹_›).2.1 h
  · simp [*]

/-! ## The steps that take an answer, as one record each -/

theorem opcRx_success (rx : Byte) (s : State) :
    opcRx rx false s = { s with
      status := rx, xreq := none, trace := s.trace ++ [.xrsp rx false],
      phase := if 1 ≤ s.npay then .payTx else .desel, idx := if 1 ≤ s.npay then s.npay - 1 else s.idx } := by
  by_cases h : 1 ≤ s.npay
  · simp only [opcRx, State.answered_npay, h, if_true]; rfl
  · simp only [opcRx, State.answered_npay, h, if_false]; rfl

theorem opcRx_failure (rx : Byte) (s : State) :
    opcRx rx true s = { s with
      status := if s.cfg.storeOnError then rx else s.status, xreq := none, trace := s.trace ++ [.xrsp rx true],
      err := true, phase := .desel } := by
  by_cases h : s.cfg.storeOnError = true
  · simp only [opcRx, State.answered_cfg, h, if_true]; rfl
  · simp only [opcRx, State.answered_cfg, h, if_true]; rfl

/-- PAY_TX in a state where the byte exists. -/
theorem payTx_eq {s : State} {tx : Byte} (h : s.payByte = some tx) :
    payTx s = .next { s with xreq := some tx, phase := .payRx, trace := s.trace ++ [.xreq tx] } := by
  simp only [payTx, h]; rfl

/-- BUF after a returned payload byte has been stored: the cell of the index written where the payload is the buffer. -/
def bufAfter (s : State) (rx : Byte) : Memory :=
  match s.src with
  | .buf => Memory.store s.buf s.idx rx
  | .key | .none => s.buf

theorem bufAfter_other {s : State} {rx : Byte} (h : s.src ≠ .buf) : bufAfter s rx = s.buf := by
  unfold bufAfter; split <;> simp_all

theorem answered_storeReturned {s : State} {rx : Byte} {e : Bool} (h : s.src = .buf → s.idx < s.cfg.bufDepth) :
    (s.answered rx e).storeReturned rx = some { s.answered rx e with buf := bufAfter s rx } := by
  unfold State.storeReturned bufAfter
  split
  · next hs =>
    have hs' : s.src = .buf := hs
    simp only [hs', State.memWrite, State.answered_cfg, State.answered_idx, State.answered_buf, h hs', if_true]
  · next hs =>
    have hs' : s.src = .key := hs
    simp only [hs']; rfl
  · next hs =>
    have hs' : s.src = .none := hs
    simp only [hs']; rfl

theorem payRx_success {s : State} (rx : Byte) (h : s.src = .buf → s.idx < s.cfg.bufDepth) :
    payRx rx false s = .next { s with
      xreq := none, trace := s.trace ++ [.xrsp rx false], buf := bufAfter s rx,
      phase := if s.idx = 0 then .desel else .payTx, idx := s.idx - 1 } := by
  simp only [payRx, Bool.false_and, Bool.false_eq_true, if_false, answered_storeReturned h, State.answered_idx]
  by_cases h0 : s.idx = 0
  · simp only [h0, if_true, Nat.zero_sub]
    show Host.Outcome.next _ = Host.Outcome.next _
    simp [State.goto, State.answered, State.emit, h0]
  · simp only [h0, if_false]; rfl

theorem payRx_failure {s : State} (rx : Byte)
    (h : s.cfg.storeOnError = true → s.src = .buf → s.idx < s.cfg.bufDepth) :
    payRx rx true s = .next { s with
      xreq := none, trace := s.trace ++ [.xrsp rx true], err := true, phase := .desel,
      buf := if s.cfg.storeOnError then bufAfter s rx else s.buf } := by
  by_cases hs : s.cfg.storeOnError = true
  · simp only [payRx, State.answered_cfg, hs, Bool.not_true, Bool.and_false, Bool.false_eq_true, if_false, if_true,
      answered_storeReturned (h hs)]
    rfl
  · simp only [payRx, State.answered_cfg, hs, Bool.not_false, Bool.and_self, if_true]; rfl

/-- Everything PAY_RX can do when it answers a next state, in any state. -/
theorem payRx_eq_next {s t : State} {rx : Byte} {e : Bool} (h : payRx rx e s = .next t) :
    t = { s with
      xreq := none, trace := s.trace ++ [.xrsp rx e], err := s.err || e,
      buf := if e && !s.cfg.storeOnError then s.buf else bufAfter s rx,
      phase := if e || s.idx = 0 then .desel else .payTx, idx := if e then s.idx else s.idx - 1 } := by
  by_cases hi : s.src = .buf → s.idx < s.cfg.bufDepth
  · cases e
    · rw [payRx_success rx hi] at h
      cases h; simp
    · rw [payRx_failure rx (fun _ => hi)] at h
      cases h; cases s.cfg.storeOnError <;> simp
  · rw [Classical.not_imp] at hi
    cases e <;> cases hs : s.cfg.storeOnError <;>
      simp [payRx, State.storeReturned, State.memWrite, hi.1, hi.2, hs] at h
    subst h; simp [State.busError, State.setErr, State.goto, State.answered, State.emit]

/-- The cells after `bufAfter`. -/
theorem bufByte_bufAfter {s t : State} {rx : Byte} (hb : t.buf = bufAfter s rx) (hr : t.resets = s.resets) (j : Nat) :
    t.bufByte j = if s.src = .buf ∧ j = s.idx then rx else s.bufByte j := by
  unfold bufAfter at hb
  split at hb
  · next hs =>
    have e : t.bufByte j = State.bufByte { s with buf := Memory.store s.buf s.idx rx } j :=
      State.bufByte_congr (by rw [hb]) hr
    rw [e, State.bufByte_store]; simp [hs]
  · next hs => rw [State.bufByte_congr (by rw [hb]) hr]; simp [hs]
  · next hs => rw [State.bufByte_congr (by rw [hb]) hr]; simp [hs]

/-! ## A run of a frame -/

/-- A frame that has ended, or stalls, is left as it is. -/
theorem runFrame_stop {k : Nat} {s : State} (h : s.phase.inFrame = false ∨ s.stalled = true) : runFrame k s = .next s := by
  cases k with
  | zero => rfl
  | succ k => unfold runFrame; rcases h with h | h <;> simp [h]

/-- One more atomic step of a frame. -/
theorem runFrame_tick {k : Nat} {s t : State} (hf : s.phase.inFrame = true) (hs : s.stalled = false)
    (ht : tick s = .next t) : runFrame (k + 1) s = runFrame k t := by
  rw [runFrame]; simp [hf, hs, ht]

/-! ## Properties every atomic step keeps -/

/-- A property that every atomic step keeps is kept by a run of a frame. -/
theorem runFrame_induction (P : State → Prop) (keep : ∀ s t, P s → tick s = .next t → P t) :
    ∀ k s t, P s → runFrame k s = .next t → P t
  | 0, s, t, hs, h => by cases h; exact hs
  | k + 1, s, t, hs, h => by
    unfold runFrame at h
    split at h
    · cases h; exact hs
    · split at h
      · exact runFrame_induction P keep k _ t (keep _ _ hs ‹_›) h
      · cases h
      · cases h

/-- A property that every atomic step keeps is kept by `step`. -/
theorem step_induction (P : State → Prop) (keep : ∀ s t, P s → tick s = .next t → P t) {s t : State} (hs : P s)
    (h : step s = .next t) : P t := by
  unfold step at h
  split at h
  · rename_i i u hu
    rw [exec_eq_runCommand, runCommand_of_canAccept (canAccept_of_turn hu)] at h
    exact runFrame_induction P keep _ _ _ (keep s _ hs (by simp [tick, hu])) h
  · rename_i o hu
    exact keep s t hs (by simp [tick, hu, h])

end Sys2Proof.Machine
end

