-- ==== Sys2Proof/Laws/Frame.lean ====
section
/-! SUPPORT. The run of a frame, phase by phase, and its payload loop against `pumpLoop` (`runFrame_loop`): the induction
that every statement about a whole command rests on, made once. -/

namespace Sys2Proof.Machine

/-! ## Calm and silent agendas -/

theorem calm_of_silent {r : List EnvEvent} (h : silent r = true) : calm r = true := by
  unfold silent at h
  split at h
  · rfl
  · rfl
  · cases h

theorem calm_answers {as : List (Byte × Bool)} {r : List EnvEvent} (h : calm r = true) : calm (answers as ++ r) = true := by
  cases as with
  | nil => exact h
  | cons a as => rfl

theorem interrupted_of_calm {r : List EnvEvent} (h : calm r = true) : interrupted r = false := by
  unfold interrupted
  split
  · simp [calm] at h
  · rfl

/-- With a calm agenda the engine goes on where it does not wait for XPORT. -/
theorem stalled_of_calm {s : State} (hw : s.phase.waiting = false) (hc : calm s.agenda = true) : s.stalled = false := by
  simp [State.stalled, hw, interrupted_of_calm hc]

/-- An answer at the head of the agenda lets the frame go on. -/
theorem stalled_of_answer {s : State} {rx : Byte} {e : Bool} {r : List EnvEvent} (ha : s.agenda = .xrsp rx e :: r) :
    s.stalled = false := by simp [State.stalled, ha, interrupted, silent]

/-! ## One atomic step of a frame, as one record each -/

theorem runFrame_select {k : Nat} {s : State} (hp : s.phase = .sel) (hc : calm s.agenda = true) :
    runFrame (k + 1) s =
      runFrame k { s with csn := .low, phase := .opcTx, trace := s.trace ++ [.csn .low] } :=
  runFrame_tick (by simp [hp, Phase.inFrame]) (stalled_of_calm (by simp [hp, Phase.waiting]) hc) (tick_select hc hp)

theorem runFrame_opcTx {k : Nat} {s : State} (hp : s.phase = .opcTx) (hc : calm s.agenda = true) :
    runFrame (k + 1) s =
      runFrame k { s with xreq := some s.opc, phase := .opcRx, trace := s.trace ++ [.xreq s.opc] } :=
  runFrame_tick (by simp [hp, Phase.inFrame]) (stalled_of_calm (by simp [hp, Phase.waiting]) hc) (tick_opcTx hc hp)

theorem runFrame_opcRx_success {k : Nat} {s : State} {rx : Byte} {r : List EnvEvent} (hp : s.phase = .opcRx)
    (ha : s.agenda = .xrsp rx false :: r) :
    runFrame (k + 1) s = runFrame k { s with
      status := rx, xreq := none, agenda := r, trace := s.trace ++ [.xrsp rx false],
      phase := if 1 ≤ s.npay then .payTx else .desel, idx := if 1 ≤ s.npay then s.npay - 1 else s.idx } :=
  runFrame_tick (by simp [hp, Phase.inFrame]) (stalled_of_answer ha)
    (by rw [tick_opcRx ha hp, opcRx_success])

theorem runFrame_opcRx_failure {k : Nat} {s : State} {rx : Byte} {r : List EnvEvent} (hp : s.phase = .opcRx)
    (ha : s.agenda = .xrsp rx true :: r) :
    runFrame (k + 1) s = runFrame k { s with
      status := if s.cfg.storeOnError then rx else s.status, xreq := none, agenda := r,
      trace := s.trace ++ [.xrsp rx true], err := true, phase := .desel } :=
  runFrame_tick (by simp [hp, Phase.inFrame]) (stalled_of_answer ha)
    (by rw [tick_opcRx ha hp, opcRx_failure])

theorem runFrame_payTx {k : Nat} {s : State} {tx : Byte} (hp : s.phase = .payTx) (hc : calm s.agenda = true)
    (hb : s.payByte = some tx) :
    runFrame (k + 1) s = runFrame k { s with xreq := some tx, phase := .payRx, trace := s.trace ++ [.xreq tx] } :=
  runFrame_tick (by simp [hp, Phase.inFrame]) (stalled_of_calm (by simp [hp, Phase.waiting]) hc)
    (by rw [tick_payTx hc hp, payTx_eq hb])

theorem runFrame_payRx_success {k : Nat} {s : State} {rx : Byte} {r : List EnvEvent} (hp : s.phase = .payRx)
    (ha : s.agenda = .xrsp rx false :: r) (hi : s.src = .buf → s.idx < s.cfg.bufDepth) :
    runFrame (k + 1) s = runFrame k { s with
      xreq := none, agenda := r, trace := s.trace ++ [.xrsp rx false], buf := bufAfter s rx,
      phase := if s.idx = 0 then .desel else .payTx, idx := s.idx - 1 } :=
  runFrame_tick (by simp [hp, Phase.inFrame]) (stalled_of_answer ha)
    ((tick_payRx ha hp).trans (payRx_success (s := { s with agenda := r }) rx hi))

theorem runFrame_payRx_failure {k : Nat} {s : State} {rx : Byte} {r : List EnvEvent} (hp : s.phase = .payRx)
    (ha : s.agenda = .xrsp rx true :: r) (hs : s.cfg.storeOnError = false) :
    runFrame (k + 1) s = runFrame k { s with
      xreq := none, agenda := r, trace := s.trace ++ [.xrsp rx true], err := true, phase := .desel } :=
  runFrame_tick (by simp [hp, Phase.inFrame]) (stalled_of_answer ha)
    ((tick_payRx ha hp).trans ((payRx_failure (s := { s with agenda := r }) rx (by simp [hs])).trans (by simp [hs])))

/-- ACCEPT, SELECT and OPC_TX: the start of every frame. -/
theorem runCommand_start {i : Instr} {s : State} (hp : s.phase = .idle) (hadm : admitted s.cfg i = true)
    (hc : calm s.agenda = true) :
    runCommand i s = runFrame (s.agenda.length + 2 * (plan i).2 + 3) { s with
      op := i.op, opc := i.opcode s.cfg, src := (plan i).1, npay := (plan i).2, err := false, cmd := none,
      csn := .low, xreq := some (i.opcode s.cfg), phase := .opcRx,
      host := { s.host with copy := s.placed (plan i).1 (plan i).2 },
      trace := s.trace ++ [.cmd i, .csn .low, .xreq (i.opcode s.cfg)] } := by
  rw [runCommand_of_canAccept (canAccept_iff.mpr ⟨hp, hadm⟩),
    show frameFuel (accept i s) = s.agenda.length + 2 * (plan i).2 + 3 + 1 + 1 from rfl,
    runFrame_select (s := accept i s) rfl hc, runFrame_opcTx (s := { accept i s with
      csn := .low, phase := .opcTx, trace := (accept i s).trace ++ [.csn .low] }) rfl hc]
  simp [accept, State.latch, State.keepPlaced, State.clearErr, State.emit, State.goto]
  rfl

/-- DESELECT and RESPOND: the end of every frame. -/
theorem runFrame_close {k : Nat} {s : State} (hp : s.phase = .desel) (hc : calm s.agenda = true) :
    runFrame (k + 2) s = .next { s with
      csn := .high, phase := .idle, rsp := some (s.status, s.err),
      host := { s.host with
        regs := s.host.regs.map (RegDesc.result s.cfg s.op s.opc s.err (s.bufPrefix s.npay) s.host.copy) },
      trace := s.trace ++ [.csn .high, .rsp s.status s.err] } := by
  rw [runFrame_tick (by simp [hp, Phase.inFrame]) (stalled_of_calm (by simp [hp, Phase.waiting]) hc) (tick_deselect hc hp),
    runFrame_tick (by simp [deselect, Phase.inFrame])
      (stalled_of_calm (by simp [deselect, Phase.waiting]) (by simpa [deselect] using hc))
      (tick_respond (by simpa [deselect] using hc) (by simp [deselect])),
    runFrame_stop (.inl (by simp [respond, Phase.inFrame]))]
  simp [respond, deselect, State.noteResult, State.goto, State.driveCsn, State.emit]
  exact fun _ _ => rfl

/-! ## The payload loop -/

theorem pumpLoop_congr {tx tx' : Nat → Byte} (st : Byte) : ∀ (n : Nat) (as : List (Byte × Bool)),
    (∀ i, i < n → tx i = tx' i) → pumpLoop tx st n as = pumpLoop tx' st n as
  | 0, _, _ => rfl
  | n + 1, [], h => by simp [pumpLoop, h n (by omega)]
  | n + 1, (rx, true) :: as, h => by simp [pumpLoop, h n (by omega)]
  | n + 1, (rx, false) :: as, h => by
    simp [pumpLoop, h n (by omega), pumpLoop_congr st n as (fun i hi => h i (by omega))]

theorem pumpLoop_stored_lookup {tx : Nat → Byte} {st : Byte} : ∀ (n : Nat) (as : List (Byte × Bool)) (j : Nat),
    n ≤ j → (pumpLoop tx st n as).stored.lookup j = none
  | 0, _, _, _ => rfl
  | _ + 1, [], _, _ => rfl
  | _ + 1, (_, true) :: _, _, _ => rfl
  | n + 1, (rx, false) :: as, j, h => by
    have hj : (j == n) = false := by simp; omega
    simp [pumpLoop, List.lookup_cons, hj, pumpLoop_stored_lookup n as j (by omega)]

@[simp] theorem pumpLoop_status (tx : Nat → Byte) (st : Byte) : ∀ (n : Nat) (as : List (Byte × Bool)),
    (pumpLoop tx st n as).status = st
  | 0, _ => rfl
  | _ + 1, [] => rfl
  | _ + 1, (_, true) :: _ => rfl
  | n + 1, (_, false) :: as => pumpLoop_status tx st n as

/-- A pump that has not ended has used every answer and reports no error. -/
theorem pumpLoop_hung {tx : Nat → Byte} {st : Byte} : ∀ (n : Nat) (as : List (Byte × Bool)),
    (pumpLoop tx st n as).ended = false → (pumpLoop tx st n as).left = [] ∧ (pumpLoop tx st n as).err = false
  | 0, _, h => by cases h
  | _ + 1, [], _ => ⟨rfl, rfl⟩
  | _ + 1, (_, true) :: _, h => by cases h
  | n + 1, (_, false) :: as, h => pumpLoop_hung n as h

/-- The byte PAY_TX sends exists. -/
theorem payByte_eq {s : State} (h : s.src = .buf → s.idx < s.cfg.bufDepth) : s.payByte = some (sentByte s s.src s.idx) := by
  unfold State.payByte sentByte State.memRead
  cases hs : s.src <;> simp [hs] at h ⊢
  exact h

/-- A payload exchange that succeeds, PAY_TX and PAY_RX together. -/
theorem runFrame_exchange_success {k : Nat} {s : State} {rx : Byte} {r : List EnvEvent} (hp : s.phase = .payTx)
    (ha : s.agenda = .xrsp rx false :: r) (hi : s.src = .buf → s.idx < s.cfg.bufDepth) :
    runFrame (k + 2) s = runFrame k { s with
      xreq := none, agenda := r, buf := bufAfter s rx,
      trace := s.trace ++ [.xreq (sentByte s s.src s.idx), .xrsp rx false],
      phase := if s.idx = 0 then .desel else .payTx, idx := s.idx - 1 } := by
  rw [runFrame_payTx hp (by simp [ha, calm]) (payByte_eq hi)]
  have := runFrame_payRx_success (k := k) (s := { s with
    xreq := some (sentByte s s.src s.idx), phase := .payRx, trace := s.trace ++ [.xreq (sentByte s s.src s.idx)] }) rfl ha hi
  simpa [bufAfter] using this

/-- A payload exchange that fails. -/
theorem runFrame_exchange_failure {k : Nat} {s : State} {rx : Byte} {r : List EnvEvent} (hp : s.phase = .payTx)
    (ha : s.agenda = .xrsp rx true :: r) (hi : s.src = .buf → s.idx < s.cfg.bufDepth) (hs : s.cfg.storeOnError = false) :
    runFrame (k + 2) s = runFrame k { s with
      xreq := none, agenda := r, trace := s.trace ++ [.xreq (sentByte s s.src s.idx), .xrsp rx true], err := true,
      phase := .desel } := by
  rw [runFrame_payTx hp (by simp [ha, calm]) (payByte_eq hi)]
  have := runFrame_payRx_failure (k := k) (s := { s with
    xreq := some (sentByte s s.src s.idx), phase := .payRx, trace := s.trace ++ [.xreq (sentByte s s.src s.idx)] }) rfl ha hs
  simpa using this

/-- What the payload loop leaves: the events and the error of `pumpLoop`, its bytes stored, in DESEL; or, where XPORT has
fallen silent, the state that waits for it. -/
structure LoopEnds (s t : State) (p : Pumped) (rest : List EnvEvent) : Prop where
  frame : t = { s with
    phase := t.phase, idx := t.idx, xreq := t.xreq, err := p.err, buf := t.buf, agenda := answers p.left ++ rest,
    trace := s.trace ++ p.events }
  ended : p.ended = true → t.phase = .desel ∧ t.xreq = none
  hung : p.ended = false → t.phase = .payRx ∧ t.xreq.isSome = true
  buf : s.src = .buf → ∀ j, t.bufByte j = (p.stored.lookup j).getD (s.bufByte j)
  other : s.src ≠ .buf → t.buf = s.buf

/-- The payload loop, from PAY_TX at index `n` on, is `pumpLoop` over `n + 1` bytes; what fuel it does not use is left. -/
theorem runFrame_loop {rest : List EnvEvent} (hc : calm rest = true) : ∀ (n : Nat) (as : List (Byte × Bool)) (s : State)
    (m : Nat), s.phase = .payTx → s.idx = n → s.err = false → s.agenda = answers as ++ rest →
    (s.src = .buf → n < s.cfg.bufDepth) →
    ((pumpLoop (sentByte s s.src) s.status (n + 1) as).err = true → s.cfg.storeOnError = false) →
    ((pumpLoop (sentByte s s.src) s.status (n + 1) as).ended = false → silent rest = true) →
    ∃ t k, m ≤ k ∧ runFrame (2 * (n + 1) + m) s = runFrame k t ∧
      LoopEnds s t (pumpLoop (sentByte s s.src) s.status (n + 1) as) rest
  | n, [], s, m, hp, hi, he, ha, hb, hs, hr => by
    have hca : calm s.agenda = true := by rw [ha]; exact calm_answers hc
    rw [show 2 * (n + 1) + m = 2 * n + m + 1 + 1 by omega, runFrame_payTx hp hca (payByte_eq (by rw [hi]; exact hb))]
    refine ⟨_, _, by omega, rfl, ?_, ?_, ?_, ?_, ?_⟩
    · simp [pumpLoop, he, ha, hi, answers]
    · simp [pumpLoop]
    · simp
    · intro _ j; rfl
    · intro _; rfl
  | n, (rx, true) :: as, s, m, hp, hi, he, ha, hb, hs, hr => by
    rw [show 2 * (n + 1) + m = 2 * n + m + 2 by omega,
      runFrame_exchange_failure hp (r := answers as ++ rest) ha (by rw [hi]; exact hb) (hs rfl)]
    refine ⟨_, _, by omega, rfl, ?_, ?_, ?_, ?_, ?_⟩
    · simp [pumpLoop, hi]
    · simp
    · simp [pumpLoop]
    · intro _ j; rfl
    · intro _; rfl
  | 0, (rx, false) :: as, s, m, hp, hi, he, ha, hb, hs, hr => by
    rw [show 2 * (0 + 1) + m = m + 2 by omega,
      runFrame_exchange_success hp (r := answers as ++ rest) ha (by rw [hi]; exact hb)]
    refine ⟨_, _, le_refl m, rfl, ?_, ?_, ?_, ?_, ?_⟩
    · simp [pumpLoop, hi, he]
    · simp [hi]
    · simp [pumpLoop]
    · intro h j
      rw [bufByte_bufAfter (s := s) (rx := rx)]
      · by_cases hj : j = 0
        · simp [pumpLoop, h, hi, hj]
        · simp [pumpLoop, h, hi, hj, List.lookup_cons, beq_false_of_ne hj]
      · rfl
      · rfl
    · intro h; exact bufAfter_other h
  | n + 1, (rx, false) :: as, s, m, hp, hi, he, ha, hb, hs, hr => by
    rw [show 2 * (n + 1 + 1) + m = 2 * (n + 1) + m + 2 by omega,
      runFrame_exchange_success hp (r := answers as ++ rest) ha (by rw [hi]; exact hb)]
    generalize hu : ({ s with
      xreq := none, agenda := answers as ++ rest, buf := bufAfter s rx,
      trace := s.trace ++ [.xreq (sentByte s s.src s.idx), .xrsp rx false],
      phase := if s.idx = 0 then .desel else .payTx, idx := s.idx - 1 } : State) = u
    have hub : ∀ j, u.bufByte j = if s.src = .buf ∧ j = s.idx then rx else s.bufByte j :=
      bufByte_bufAfter (by rw [← hu]) (by rw [← hu])
    have hsrc : u.src = s.src := by rw [← hu]
    have hst : u.status = s.status := by rw [← hu]
    have hcfg : u.cfg = s.cfg := by rw [← hu]
    have hloop : pumpLoop (sentByte u u.src) u.status (n + 1) as = pumpLoop (sentByte s s.src) s.status (n + 1) as := by
      rw [hst]
      refine pumpLoop_congr _ _ _ fun i hlt => ?_
      rw [hsrc]
      unfold sentByte
      split
      · rw [hub, if_neg (by omega)]
      · rfl
      · rfl
    obtain ⟨t, k, hk, hrun, ht⟩ := runFrame_loop hc n as u m (by rw [← hu]; simp [hi]) (by rw [← hu]; simp [hi])
      (by rw [← hu]; exact he) (by rw [← hu]) (by rw [hsrc, hcfg]; intro h; have := hb h; omega)
      (by rw [hloop, hcfg]; exact hs) (by rw [hloop]; exact hr)
    refine ⟨t, k, hk, hrun, ?_⟩
    rw [hloop] at ht
    obtain ⟨h1, h2, h3, h4, h5⟩ := ht
    have hp' : pumpLoop (sentByte s s.src) s.status (n + 1 + 1) ((rx, false) :: as) =
      let p := pumpLoop (sentByte s s.src) s.status (n + 1) as
      { p with
        events := .xreq (sentByte s s.src (n + 1)) :: .xrsp rx false :: p.events, stored := (n + 1, rx) :: p.stored } := rfl
    rw [hp']
    refine ⟨?_, h2, h3, ?_, ?_⟩
    · rw [h1, ← hu]; simp [hi]
    · intro h j
      rw [h4 (hsrc ▸ h), hub]
      by_cases hj : j = n + 1
      · subst hj
        rw [pumpLoop_stored_lookup _ _ _ (le_refl _)]; simp [h, hi]
      · simp [List.lookup_cons, beq_false_of_ne hj, hj, hi]
    · intro h; rw [h5 (hsrc ▸ h), ← hu]; exact bufAfter_other h

end Sys2Proof.Machine
end

