-- ==== Sys2Proof/Laws/PerInstr.lean ====
section
/-! SUPPORT. One family: a command whose length fits is rebuilt from its code and the two fields of its message (R70, R74).
-/

namespace Sys2Proof.Laws.Rebuilt

/-- `commandOf` gives the command back from its code, address and length. -/
def Statement (i : Instr) : Prop :=
  ∀ c : Config, i.WellFormed c = true → commandOf c i.op i.addr.toNat i.len = .ok i

theorem fits {c : Config} {i : Instr} (h : i.WellFormed c = true) : len? c i.len = .ok i.len :=
  len?_of_lt (by simpa [Instr.WellFormed] using h)

theorem rdreg (addr : RegAddr) (len : Nat) : Statement (.rdreg addr len) := fun _ h => by
  have := fits h
  simp only [Instr.len] at this
  simp only [commandOf, regCommand, Instr.op, Instr.addr, Instr.len, regAddr?_toNat, this]

theorem wrreg (addr : RegAddr) (len : Nat) : Statement (.wrreg addr len) := fun _ h => by
  have := fits h
  simp only [Instr.len] at this
  simp only [commandOf, regCommand, Instr.op, Instr.addr, Instr.len, regAddr?_toNat, this]

theorem rdpay (len : Nat) : Statement (.rdpay len) := fun _ h => by
  have := fits h
  simp only [Instr.len] at this
  simp only [commandOf, payCommand, Instr.op, Instr.len, this]

theorem wrpay (len : Nat) : Statement (.wrpay len) := fun _ h => by
  have := fits h
  simp only [Instr.len] at this
  simp only [commandOf, payCommand, Instr.op, Instr.len, this]

theorem flushtx : Statement .flushtx := fun _ _ => rfl

theorem flushrx : Statement .flushrx := fun _ _ => rfl

theorem nop : Statement .nop := fun _ _ => rfl

theorem activate : Statement .activate := fun _ _ => rfl

end Sys2Proof.Laws.Rebuilt
end

