-- ==== Sys2Proof/Tests/Slice0.lean ====
section
/-! SUPPORT. The model's own tests. Expected results are the spec's: the worked examples of 95_test_vectors.md section 1
(S), the derived vectors of its section 2 (V), the opcode map of 30_encoding.md R85. Then one witness for each statement of
Certificates/Slice0/Obligations.lean that has hypotheses. -/

namespace Sys2Proof.Tests

open Sys2Proof Sys2Proof.Machine

/-! ## Small states -/

/-- BUF with these bytes written, index 0 first. -/
def cells (bs : List Byte) : Memory := (List.range bs.length).zip bs

/-- A machine in a phase, with some of BUF written, a STATUS and events to come. -/
def bench (p : Phase) (bs : List Byte) (st : Byte) (as : List EnvEvent) : State :=
  { State.reset with phase := p, buf := cells bs, status := st, agenda := as }

/-- The start of the vectors V1 to V11: STATUS `0x11`, BUF `A1 .. A6`; `0x77` in front stands for V27. -/
def start (as : List EnvEvent) : State := bench .idle [0xA1, 0xA2, 0xA3, 0xA4, 0xA5, 0xA6] 0x11 as

/-- A host with one Register Descriptor, of address 10 and two bytes. -/
def oneReg : HostData := { HostData.initial Config.suggested with regs := [{ addr := 10, raw := [1, 2] }] }

/-- What the vectors show of a state. -/
structure Shown where
  trace : List Obs
  status : Byte
  buf : Memory
  err : Bool
  phase : Phase
  deriving DecidableEq, Repr

/-- What a step leaves that the vectors show. -/
def shown (o : Out) : Option Shown :=
  match o with
  | .next t => some { trace := t.trace, status := t.status, buf := t.buf, err := t.err, phase := t.phase }
  | .fault _ | .refused _ => none

/-- An exchange that succeeds. -/
def x (tx rx : Byte) : List Obs := [.xreq tx, .xrsp rx false]

/-- The frame of a command around its exchanges. -/
def frame (i : Instr) (xs : List Obs) (st : Byte) (err : Bool) : List Obs :=
  [.cmd i, .csn .low] ++ xs ++ [.csn .high, .rsp st err]

/-- XPORT's answer that fails; its byte is meaningless (U3). -/
def fail : EnvEvent := .xrsp 0x99 true

/-! ## WellFormed: each check refuses an ill-formed term -/

theorem test_wf_bases_aligned : { Config.suggested with opcRRegister := 0x01 }.basesAligned = false := by decide
theorem test_wf_bases_distinct : { Config.suggested with opcWRegister := 0x00 }.basesDistinct = false := by decide
theorem test_wf_fixed_outside_bases : { Config.suggested with opcNop := 0x3F }.fixedOutsideBases = false := by decide
theorem test_wf_fixed_distinct : { Config.suggested with opcNop := 0x50 }.fixedDistinct = false := by decide
theorem test_wf_depth : { Config.suggested with bufDepth := 4 }.depthOk = false := by decide
theorem test_wf_settle : { Config.suggested with tSettle := 4999 }.settleOk = false := by decide
theorem test_wf_n_addr : { Config.suggested with nAddr := 6 }.nAddrOk = false := by decide
theorem test_wf_refuses_whole : { Config.suggested with bufDepth := 4 }.WellFormed = false := by decide
theorem test_wf_length_too_wide : Instr.WellFormed Config.suggested (.rdpay 64) = false := by decide
theorem test_wf_length_fits : Instr.WellFormed Config.suggested (.rdpay 63) = true := by decide

/-! ## Decoding: words written bit by bit from R85, and messages from R74 (`len : op : addr`) -/

theorem test_decode_rdreg : decodeTableWord 8 0b00001010 = some (.rdreg 0x0A 0) := by decide
theorem test_decode_wrreg : decodeTableWord 8 0b00111111 = some (.wrreg 0x1F 0) := by decide
theorem test_decode_rdpay : decodeTableWord 8 0b01100001 = some (.rdpay 0) := by decide
theorem test_decode_wrpay : decodeTableWord 8 0b10100000 = some (.wrpay 0) := by decide
theorem test_decode_flushtx : decodeTableWord 8 0b11100001 = some .flushtx := by decide
theorem test_decode_flushrx : decodeTableWord 8 0b11100010 = some .flushrx := by decide
theorem test_decode_nop : decodeTableWord 8 0b11111111 = some .nop := by decide
theorem test_decode_activate : decodeTableWord 8 0b01010000 = some .activate := by decide
theorem test_decode_not_emitted : decodeTableWord 8 0b01000000 = none := by decide
theorem test_decode_table_length : decodeTableWord 16 (3 * 256 + 0xA0) = some (.wrpay 3) := by decide
theorem test_message_rdreg :
    (decodeWord Config.suggested 0b101_000_11111).toOption = some (.rdreg 0x1F 5) := by decide
theorem test_message_wrreg :
    (decodeWord Config.suggested 0b101_001_01010).toOption = some (.wrreg 0x0A 5) := by decide
theorem test_message_rdpay : (decodeWord Config.suggested 0b11_010_00000).toOption = some (.rdpay 3) := by decide
theorem test_message_wrpay : (decodeWord Config.suggested 0b100000_011_00000).toOption = some (.wrpay 32) := by decide
theorem test_message_flushtx : (decodeWord Config.suggested 0b100_100_00011).toOption = some .flushtx := by decide
theorem test_message_flushrx : (decodeWord Config.suggested 0b101_00000).toOption = some .flushrx := by decide
theorem test_message_nop : (decodeWord Config.suggested 0b110_11111).toOption = some .nop := by decide
theorem test_message_activate : (decodeWord Config.suggested 0b1001_111_00111).toOption = some .activate := by decide

/-- `OpcodeOf(WRREG, 0x0A) = 0x2A` and `OpcodeOf(RDREG, 0x1F) = 0x1F` (R76). -/
theorem test_mapper : (Instr.wrreg 0x0A 0).opcode Config.suggested = 0x2A ∧
    (Instr.rdreg 0x1F 0).opcode Config.suggested = 0x1F := by decide

/-! ## The commands -/

/-- V3. -/
theorem test_rdreg_reads : shown (exec (.rdreg 0x1F 5) (start (successes [0x0E, 0xB1, 0xB2, 0xB3, 0xB4, 0xB5]))) =
    some ⟨frame (.rdreg 0x1F 5) (x 0x1F 0x0E ++ x 0xA5 0xB1 ++ x 0xA4 0xB2 ++ x 0xA3 0xB3 ++ x 0xA2 0xB4 ++ x 0xA1 0xB5)
      0x0E false, 0x0E, cells [0xB5, 0xB4, 0xB3, 0xB2, 0xB1, 0xA6], false, .idle⟩ := by decide

/-- V6. -/
theorem test_rdreg_opcode_fails : shown (exec (.rdreg 0 5) (start [fail])) =
    some ⟨frame (.rdreg 0 5) [.xreq 0x00, .xrsp 0x99 true] 0x11 true, 0x11,
      cells [0xA1, 0xA2, 0xA3, 0xA4, 0xA5, 0xA6], true, .idle⟩ := by decide

/-- V1. -/
theorem test_wrreg_empty : shown (exec (.wrreg 5 0) (start (successes [0x0E]))) =
    some ⟨frame (.wrreg 5 0) (x 0x25 0x0E) 0x0E false, 0x0E,
      cells [0xA1, 0xA2, 0xA3, 0xA4, 0xA5, 0xA6], false, .idle⟩ := by decide

/-- V2. -/
theorem test_wrreg_one : shown (exec (.wrreg 5 1) (start (successes [0x0E, 0x55]))) =
    some ⟨frame (.wrreg 5 1) (x 0x25 0x0E ++ x 0xA1 0x55) 0x0E false, 0x0E,
      cells [0x55, 0xA2, 0xA3, 0xA4, 0xA5, 0xA6], false, .idle⟩ := by decide

/-- V22. -/
theorem test_rdpay_reads : shown (exec (.rdpay 3) (bench .idle [0, 0, 0] 0 (successes [0x40, 0x11, 0x22, 0x33]))) =
    some ⟨frame (.rdpay 3) (x 0x61 0x40 ++ x 0 0x11 ++ x 0 0x22 ++ x 0 0x33) 0x40 false, 0x40,
      cells [0x33, 0x22, 0x11], false, .idle⟩ := by decide

/-- V9: the last payload byte fails. -/
theorem test_rdpay_last_fails : shown (exec (.rdpay 5) (start (successes [0x0E, 0xB1, 0xB2, 0xB3, 0xB4] ++ [fail]))) =
    some ⟨frame (.rdpay 5) (x 0x61 0x0E ++ x 0xA5 0xB1 ++ x 0xA4 0xB2 ++ x 0xA3 0xB3 ++ x 0xA2 0xB4 ++
      [.xreq 0xA1, .xrsp 0x99 true]) 0x0E true, 0x0E, cells [0xA1, 0xB4, 0xB3, 0xB2, 0xB1, 0xA6], true, .idle⟩ := by decide

/-- S3: the order observed is index 2, 1, 0. -/
theorem test_wrpay_reversed : shown (exec (.wrpay 3) (bench .idle [1, 2, 3] 0 (successes [0xFF, 0xFF, 0xFF, 0xFF]))) =
    some ⟨frame (.wrpay 3) (x 0xA0 0xFF ++ x 3 0xFF ++ x 2 0xFF ++ x 1 0xFF) 0xFF false, 0xFF,
      cells [0xFF, 0xFF, 0xFF], false, .idle⟩ := by decide

/-- V8: the third payload byte fails. -/
theorem test_wrpay_third_fails : shown (exec (.wrpay 5) (start (successes [0x0E, 0xB1, 0xB2] ++ [fail]))) =
    some ⟨frame (.wrpay 5) (x 0xA0 0x0E ++ x 0xA5 0xB1 ++ x 0xA4 0xB2 ++ [.xreq 0xA3, .xrsp 0x99 true]) 0x0E true, 0x0E,
      cells [0xA1, 0xA2, 0xA3, 0xB2, 0xB1, 0xA6], true, .idle⟩ := by decide

/-- V24, through `step`: the offered address 3 and length 4 are ignored. -/
theorem test_flushtx : shown (step { start (successes [0x0E]) with cmd := some { op := 4, addr := 3, len := 4 } }) =
    some ⟨frame .flushtx (x 0xE1 0x0E) 0x0E false, 0x0E, cells [0xA1, 0xA2, 0xA3, 0xA4, 0xA5, 0xA6], false, .idle⟩ := by
  decide

/-- V25. -/
theorem test_flushrx : shown (exec .flushrx (start (successes [0x40]))) =
    some ⟨frame .flushrx (x 0xE2 0x40) 0x40 false, 0x40, cells [0xA1, 0xA2, 0xA3, 0xA4, 0xA5, 0xA6], false, .idle⟩ := by
  decide

/-- V12: ERR of an earlier command does not last. -/
theorem test_nop : shown (exec .nop { start (successes [0x0E]) with err := true }) =
    some ⟨frame .nop (x 0xFF 0x0E) 0x0E false, 0x0E, cells [0xA1, 0xA2, 0xA3, 0xA4, 0xA5, 0xA6], false, .idle⟩ := by decide

/-- V14: XPORT never answers. -/
theorem test_nop_hangs : shown (exec .nop (start [])) =
    some ⟨[.cmd .nop, .csn .low, .xreq 0xFF], 0x11, cells [0xA1, 0xA2, 0xA3, 0xA4, 0xA5, 0xA6], false, .opcRx⟩ := by decide

/-- V27: the byte returned for the key is dropped. -/
theorem test_activate : shown (exec .activate (bench .idle [0x77] 0 (successes [0x0E, 0xC3]))) =
    some ⟨frame .activate (x 0x50 0x0E ++ x 0x73 0xC3) 0x0E false, 0x0E, cells [0x77], false, .idle⟩ := by decide

/-- V10: the key byte's exchange fails; address 7 and length 9 are ignored. -/
theorem test_activate_key_fails :
    shown (step { start (successes [0x0E] ++ [fail]) with cmd := some { op := 7, addr := 7, len := 9 } }) =
    some ⟨frame .activate (x 0x50 0x0E ++ [.xreq 0x73, .xrsp 0x99 true]) 0x0E true, 0x0E,
      cells [0xA1, 0xA2, 0xA3, 0xA4, 0xA5, 0xA6], true, .idle⟩ := by decide

/-- V5: a command longer than BUF is not accepted. -/
theorem test_too_long_not_admitted : shown (exec (.wrpay 33) (start (successes [0x0E]))) =
    some ⟨[], 0x11, cells [0xA1, 0xA2, 0xA3, 0xA4, 0xA5, 0xA6], false, .idle⟩ := by decide

/-- The first step after reset with the word of NOP placed where a command is taken: its frame up to the unanswered request.
-/
theorem test_first_command_after_reset :
    (match step (State.reset.withFetchWord 8 0xFF) with
     | .next t => decide (t.trace = [.cmd .nop, .csn .low, .xreq 0xFF] ∧ t.phase = .opcRx ∧ t.csn = .low)
     | .fault _ | .refused _ => false) = true := by decide

/-! ## Reset, settling, host -/

/-- V17: a reset in mid-frame. -/
theorem test_reset_in_frame :
    (match step { bench .payTx [0, 0, 0x11] 0x40 [.reset] with csn := .low, src := .buf, npay := 3, idx := 1 } with
     | .next t => decide (t.csn = .high ∧ t.ce = .low ∧ t.phase = .settle ∧ t.err = false ∧ t.rsp = none ∧
         t.trace = [.reset, .csn .high])
     | .fault _ | .refused _ => false) = true := by decide

/-- V15: a late answer is discarded. -/
theorem test_late_answer_dropped : shown (step (bench .settle [] 0 [.xrsp 0x55 false])) =
    some ⟨[], 0, [], false, .settle⟩ := by decide

/-- V13: no command inside the settling delay. -/
theorem test_offer_waits : shown (step { bench .settle [] 0 [] with cmd := some { op := 6, addr := 0, len := 0 } }) =
    some ⟨[], 0, [], false, .settle⟩ := by decide

/-- R60: an access past the end of BUF. -/
theorem test_buf_end : step (bench .idle [] 0 [.host (.writeBuf 32 1)]) matches .fault (.bufIndexOutOfRange 32) := by decide

/-- U6: the host touches a cell the engine owns. -/
theorem test_owned_cell :
    step { bench .payRx [1] 0 [.host (.writeBuf 0 1)] with src := .buf, npay := 1 } matches
      .refused (.hostTouchedOwnedBuffer 0) := by decide

/-- R178, R202: encoding from the shadow with a level out of range reports RangeError although the engine owns `BUF[0]`,
since `new = encode(...)` comes before `BUF[0] <- new`. -/
theorem test_range_error_before_write :
    (match step { bench .payRx [0xFF] 0 [.hostNow (.encodeReg 0 powerLevelField 4)] with
        host := oneReg, src := .buf, npay := 1 } with
     | .next t => decide (t.trace = [.rangeError] ∧ t.buf = cells [0xFF])
     | .fault _ | .refused _ => false) = true := by decide

/-- D26: a full pipe address of the wrong length. -/
theorem test_pipe_length :
    step (bench .idle [] 0 [.host (.setFull .p1 [1, 2, 3, 4])]) matches .refused (.pipeAddressWrongLength 4) := by decide

/-- R40: the host reads STATUS at once where the engine is about to take a step, here between OPC_RX and RSP. -/
theorem test_status_read_in_frame :
    (match step (bench .desel [] 0x0E [.hostNow .readStatus]) with
     | .next t => decide (t.trace = [.statusRead 0x0E] ∧ t.phase = .desel ∧ t.agenda = [])
     | .fault _ | .refused _ => false) = true := by decide

/-- The frame of a NOP pauses for such a read, with the new snapshot and chip-select low. -/
theorem test_frame_pauses_for_host :
    (match exec .nop (start [.xrsp 0x0E false, .hostNow .readStatus]) with
     | .next t => decide (t.phase = .desel ∧ t.status = 0x0E ∧ t.agenda = [.hostNow .readStatus])
     | .fault _ | .refused _ => false) = true := by decide

/-- R176: no register is empty, none has six bytes. -/
theorem test_register_width :
    (step (bench .idle [] 0 [.host (.newReg { addr := 0, raw := [] })]) matches .refused (.registerWidth 0)) ∧
    (step (bench .idle [] 0 [.host (.newReg { addr := 0, raw := [1, 2, 3, 4, 5, 6] })]) matches
      .refused (.registerWidth 6)) := by decide

/-! ## Companion data -/

/-- 95_test_vectors.md 2.7. -/
theorem test_codec : powerLevelField.decode 0xF9 = 0 ∧ powerLevelField.decode 0xA5 = 2 ∧
    (powerLevelField.encode 0xA5 1).toOption = some 0xA3 ∧ (powerLevelField.encode 0xFF 0).toOption = some 0xF9 ∧
    (powerLevelField.encode 0x01 2).toOption = some 0x05 ∧ (powerLevelField.encode 0x00 4).toOption = none := by decide

/-- S4: a partial pipe tracks its base. -/
theorem test_partial_pipe : (((HostData.initial Config.suggested).pipes.setOwn .p2 0x42).setFull .p1
    [0xAA, 0xBB, 0xCC, 0xDD, 0xEE]).getPartial .p2 = [0xBB, 0xCC, 0xDD, 0xEE, 0x42] := by decide

/-! ## Witnesses: states and operands that meet the hypotheses of each statement -/

/-- The configuration of every witness that asks for an admitted one: MessageRoundTrip, WireRoundTrip, SeventyOpcodeBytes,
OpcodeByteSpellsItsCommand, RegisterOpcodeIsBaseAndAddress, LengthFieldFitsDepthExactly. -/
theorem witness_config : Config.suggested.WellFormed = true ∧ Config.suggested.bufDepth = 32 ∧
    Config.suggested.lenW = 6 := by decide

/-- Each kind of command at the ends of its operands. -/
theorem witness_MessageRoundTrip_WireRoundTrip :
    (Instr.rdreg 0 0).WellFormed Config.suggested = true ∧ (Instr.rdreg 31 63).WellFormed Config.suggested = true ∧
    (Instr.wrreg 31 63).WellFormed Config.suggested = true ∧ (Instr.rdpay 63).WellFormed Config.suggested = true ∧
    (Instr.wrpay 0).WellFormed Config.suggested = true ∧ Instr.flushtx.WellFormed Config.suggested = true ∧
    Instr.flushrx.WellFormed Config.suggested = true ∧ Instr.nop.WellFormed Config.suggested = true ∧
    Instr.activate.WellFormed Config.suggested = true := by decide

/-- A byte no command emits, and one that is emitted (SeventyOpcodeBytes too). -/
theorem witness_OpcodeByteSpellsItsCommand :
    (0x40 : Byte) ∉ emittedOpcodes Config.suggested ∧ (0x3F : Byte) ∈ emittedOpcodes Config.suggested := by decide

theorem witness_ResetEventTakesAnyPhase :
    (bench .payRx [1] 0 [.reset, .pass]).agenda = .reset :: [.pass] ∧ (bench .idle [] 0 [.reset]).agenda = .reset :: [] ∧
    (engineTurn (bench .payRx [1] 0 [.xrspLate 7 false])).isNone = true ∧
    (bench .payRx [1] 0 [.xrspLate 7 false]).agenda = .xrspLate 7 false :: [] := by decide

/-- One witness for each clause; the two delays are the ones on either side of `T_SETTLE`. -/
theorem witness_SettlingDelayHolds :
    (bench .settle [] 0 [.settled 5000]).phase = .settle ∧
    ((bench .settle [] 0 [.settled 5000]).agenda = .settled 5000 :: [] ∧ Config.suggested.tSettle ≤ 5000) ∧
    ((bench .settle [] 0 [.settled 4999]).agenda = .settled 4999 :: [] ∧ 4999 < Config.suggested.tSettle) ∧
    (bench .settle [] 0 []).agenda = [] ∧
    (bench .settle [] 0 [.hostNow (.offer ⟨6, 0, 0⟩)]).agenda = .hostNow (.offer ⟨6, 0, 0⟩) :: [] ∧
    (bench .settle [] 0 [.host (.offer ⟨6, 0, 0⟩)]).agenda = .host (.offer ⟨6, 0, 0⟩) :: [] ∧
    (engineTurn (bench .settle [] 0 [.host (.offer ⟨6, 0, 0⟩)])).isNone = true ∧
    (shown (step (bench .settle [] 0 [.settled 5000]))).map Shown.phase = some .idle := by decide

/-- Codes 2 and 7, the ends of the range; both lengths of the payload command are the same. -/
theorem witness_IgnoredFieldsChangeNothing :
    (start []).phase = .idle ∧ calm (start []).agenda = true ∧
    (decodeDescriptor Config.suggested ⟨2, 40, 32⟩).toOption = some (.rdpay 32) ∧
    admitted Config.suggested (.rdpay 32) = true ∧
    (decodeDescriptor Config.suggested ⟨7, 99, 99⟩).toOption = some .activate ∧
    admitted Config.suggested .activate = true := by decide

theorem witness_OversizedMessagesRefused :
    (start []).phase = .idle ∧ calm (start []).agenda = true ∧
    ({ start [] with cmd := some ⟨8, 0, 0⟩ } : State).cmd = some ⟨8, 0, 0⟩ ∧ 7 < (⟨8, 0, 0⟩ : Descriptor).op ∧
    ({ start [] with cmd := some ⟨1, 32, 0⟩ } : State).cmd = some ⟨1, 32, 0⟩ ∧ 31 < (⟨1, 32, 0⟩ : Descriptor).addr ∧
    2 ^ (start []).cfg.lenW ≤ (⟨1, 31, 64⟩ : Descriptor).len ∧
    (step { start [] with cmd := some ⟨1, 31, 64⟩ } matches .refused (.badCommand (.lenTooWide 64))) ∧
    (step { start [] with cmd := some ⟨3, 99, 64⟩ } matches .refused (.badCommand (.lenTooWide 64))) := by
  decide

/-- An idle engine offered an admitted command: StepRunsOfferedCommand, AcceptLatchesCommand. -/
theorem witness_StepRunsOfferedCommand_AcceptLatchesCommand :
    let s := { start [] with cmd := some ⟨1, 31, 32⟩ }
    s.phase = .idle ∧ calm s.agenda = true ∧ s.cmd = some ⟨1, 31, 32⟩ ∧
    (decodeDescriptor s.cfg ⟨1, 31, 32⟩).toOption = some (.wrreg 31 32) ∧ admitted s.cfg (.wrreg 31 32) = true := by decide

/-- A step that answers a next state, as StepIsAtomicSteps, ConfigurationFixed, PipeWidthsKept and CommandFrame ask for. -/
theorem witness_step_next : (shown (step (start []))).isSome = true ∧ (shown (exec (.rdpay 2) (start []))).isSome = true ∧
    EnvEvent.reset ∉ (start []).agenda := by decide

theorem witness_UnadmittedCommandWaits :
    let s := { start [] with cmd := some ⟨3, 0, 33⟩ }
    (bench .payTx [] 0 []).phase ≠ .idle ∧ (plan (.wrpay 33)).1 = .buf ∧ s.cfg.bufDepth < (plan (.wrpay 33)).2 ∧
    s.phase = .idle ∧ s.agenda = [] ∧ (decodeDescriptor s.cfg ⟨3, 0, 33⟩).toOption = some (.wrpay 33) := by decide

theorem witness_OfferedMessageKeptWhileBusy :
    let s := { bench .sel [] 0 [] with cmd := some ⟨6, 0, 0⟩ }
    s.phase ≠ .idle ∧ s.agenda = [] ∧ (shown (step s)).isSome = true := by decide

/-- The engine's own steps: SelectDrivesChipSelectLow, OpcTxSendsOpcodeByte, DeselectReleasesOnEveryPath,
RespondReportsStatusAndError. -/
theorem witness_own_steps :
    ((bench .sel [] 0 []).phase = .sel ∧ calm (bench .sel [] 0 []).agenda = true) ∧
    ((bench .opcTx [] 0 []).phase = .opcTx ∧ calm (bench .opcTx [] 0 []).agenda = true) ∧
    ((bench .desel [] 0 []).phase = .desel ∧ calm (bench .desel [] 0 []).agenda = true) ∧
    ((bench .done [] 0 []).phase = .done ∧ calm (bench .done [] 0 []).agenda = true) := by decide

/-- A payload length on either side of `1 ≤ NPAY`, and both answers. -/
theorem witness_OpcodeAnswerBecomesStatus :
    let s := fun (n : Nat) (e : Bool) => { bench .opcRx [] 0 [.xrsp 0x0E e] with npay := n }
    (s 1 false).phase = .opcRx ∧ (s 1 false).agenda = .xrsp 0x0E false :: [] ∧ (s 1 false).cfg.storeOnError = false ∧
    1 ≤ (s 1 false).npay ∧ (s 0 false).npay = 0 ∧ (s 1 true).agenda = .xrsp 0x0E true :: [] := by decide

/-- The last cell of BUF, and the key. -/
theorem witness_PayloadByteSent :
    let s := { bench .payTx [] 0 [] with src := .buf, npay := 32, idx := 31 }
    let k := { bench .payTx [] 0 [] with src := .key, npay := 1 }
    s.phase = .payTx ∧ calm s.agenda = true ∧ s.src = .buf ∧ s.idx < s.cfg.bufDepth ∧
    k.phase = .payTx ∧ calm k.agenda = true ∧ k.src = .key := by decide

/-- The last cell and cell 0 of BUF, the key, and both answers. -/
theorem witness_PayloadAnswerStoredInPlace :
    let s := fun (sr : Src) (i : Nat) (e : Bool) => { bench .payRx [] 0 [.xrsp 0x55 e] with src := sr, npay := i + 1, idx := i }
    (s .buf 31 false).phase = .payRx ∧ (s .buf 31 false).agenda = .xrsp 0x55 false :: [] ∧ (s .buf 31 false).src ≠ .none ∧
    (s .buf 31 false).idx < (s .buf 31 false).cfg.bufDepth ∧ (s .buf 31 false).cfg.storeOnError = false ∧
    1 ≤ (s .buf 31 false).idx ∧ (s .buf 0 false).idx = 0 ∧ (s .key 0 false).src = .key ∧
    (s .buf 0 true).agenda = .xrsp 0x55 true :: [] := by decide

theorem witness_StoreOnErrorStoresReturnedByte :
    let c := { Config.suggested with storeOnError := true }
    let s := { bench .payRx [] 0 [fail] with cfg := c, src := .buf, npay := 32, idx := 31 }
    c.WellFormed = true ∧ s.cfg.storeOnError = true ∧ s.agenda = .xrsp 0x99 true :: [] ∧ s.phase = .payRx ∧ s.src = .buf ∧
    s.idx < s.cfg.bufDepth ∧ { s with phase := .opcRx }.phase = .opcRx := by decide

theorem witness_HangHoldsForever :
    (bench .opcRx [] 0 []).phase = .opcRx ∧ (bench .payRx [] 0 []).phase = .payRx ∧ (bench .payRx [] 0 []).agenda = [] := by
  decide

/-- Frames that succeed: FrameSucceeds, FrameLength, RdregReadsRegister, WrregWritesRegister, PayloadCommandsMovePayload,
BareCommandsRefreshStatus, ActivateSendsKey; the longest payload, an empty one, the key. -/
theorem witness_FrameSucceeds :
    let s := fun (rs : List Byte) => start (successes (0x0E :: rs))
    (s []).phase = .idle ∧ calm ([] : List EnvEvent) = true ∧
    (admitted (s []).cfg (.wrpay 32) = true ∧ (List.replicate 32 (0 : Byte)).length = (plan (.wrpay 32)).2) ∧
    (admitted (s []).cfg (.rdreg 31 0) = true ∧ ([] : List Byte).length = (plan (.rdreg 31 0)).2) ∧
    (admitted (s []).cfg .activate = true ∧ [(0xC3 : Byte)].length = (plan .activate).2) ∧
    (s [0xC3]).agenda = .xrsp 0x0E false :: .xrsp 0xC3 false :: [] ∧ (s []).agenda = .xrsp 0x0E false :: [] := by decide

theorem witness_OpcodeExchangeFails :
    (start [fail]).phase = .idle ∧ admitted (start []).cfg (.wrreg 0 32) = true ∧ (start []).cfg.storeOnError = false ∧
    (start [fail]).agenda = .xrsp 0x99 true :: [] := by decide

/-- The first and the last payload exchange of a five-byte payload, and the key's. -/
theorem witness_PayloadExchangeFails :
    let s := fun (rs : List Byte) => start (successes (0x0E :: rs) ++ [fail])
    (s []).phase = .idle ∧ admitted (s []).cfg (.rdpay 5) = true ∧ (s []).cfg.storeOnError = false ∧
    ([] : List Byte).length < (plan (.rdpay 5)).2 ∧ [(1 : Byte), 2, 3, 4].length < (plan (.rdpay 5)).2 ∧
    ([] : List Byte).length < (plan .activate).2 ∧
    (s [1, 2, 3, 4]).agenda = successes [0x0E, 1, 2, 3, 4] ++ .xrsp 0x99 true :: [] := by decide

/-- Answers that run out, and answers left over. -/
theorem witness_FrameRefinesPump :
    let s := fun (as : List (Byte × Bool)) => start (answers as)
    (s []).phase = .idle ∧ admitted (s []).cfg (.rdpay 2) = true ∧ (s []).cfg.storeOnError = false ∧
    silent ([] : List EnvEvent) = true ∧ (s [(0x0E, false), (1, true), (2, false)]).agenda =
      answers [(0x0E, false), (1, true), (2, false)] ++ [] := by decide

/-- A command not accepted, and accepted ones: reported, cut by a reset, hung, and paused. -/
theorem witness_CommandEndsOrHangs :
    canAccept .nop (start []) = true ∧ canAccept (.wrpay 33) (start []) = false ∧
    (shown (exec .nop (start (successes [0x0E])))).map Shown.phase = some .idle ∧
    (shown (exec .nop (start [.pass, .reset]))).map Shown.phase = some .settle ∧
    (shown (exec .nop (start []))).map Shown.phase = some .opcRx ∧
    (shown (exec .nop (start [.pass, .hostNow .readStatus]))).map Shown.phase = some .opcTx := by decide

theorem witness_ReadAndWriteDifferInOpcodeOnly :
    let s := start (successes [0x0E, 1, 2])
    let u := start [.hostNow .readStatus]
    (s.phase = .idle ∧ s.cfg.WellFormed = true ∧ 2 ≤ s.cfg.bufDepth ∧ EnvEvent.reset ∉ s.agenda ∧
      (shown (exec (.rdreg 31 2) s)).isSome = true ∧ (shown (exec (.wrreg 31 2) s)).isSome = true) ∧
    EnvEvent.reset ∉ u.agenda ∧ (shown (exec (.rdreg 31 2) u)).map Shown.phase = some .sel ∧
    (shown (exec (.wrreg 31 2) u)).map Shown.phase = some .sel := by decide

theorem witness_EmptyPayloadIsNoPayload :
    let s := start (successes [0x0E])
    s.phase = .idle ∧ calm ([] : List EnvEvent) = true ∧ s.agenda = .xrsp 0x0E false :: [] ∧ (plan (.wrreg 5 0)).2 = 0 ∧
    (plan .nop).2 = 0 := by decide

theorem witness_ErrorNotSticky :
    let s := { start (successes [0x0E]) with err := true }
    s.phase = .idle ∧ s.err = true ∧ admitted s.cfg .nop = true ∧ ([] : List Byte).length = (plan .nop).2 ∧
    s.agenda = successes [0x0E] ++ [] ∧ (shown (exec .nop s)).isSome = true := by decide

/-- A step that changes STATUS (StatusWrittenByOpcodeAnswerOnly). -/
theorem witness_StatusWrittenByOpcodeAnswerOnly :
    let s := bench .opcRx [] 0x11 [.xrsp 0x0E false]
    s.cfg.storeOnError = false ∧ (shown (tick s)).map Shown.status = some 0x0E ∧ s.status = 0x11 := by decide

/-- A step of the engine that changes a cell of BUF, and one of the host, at once and where the engine holds, on the first
cell the engine does not own (BufWrittenInPlaceOnly). -/
theorem witness_BufWrittenInPlaceOnly :
    let s := fun (e : EnvEvent) => { bench .payRx [0xA1, 0xA2] 0 [e] with src := .buf, npay := 1 }
    (shown (tick (s (.xrsp 0x55 false)))).map Shown.buf = some (cells [0x55, 0xA2]) ∧
    (shown (tick (s (.host (.writeBuf 1 0x66))))).map Shown.buf = some (cells [0xA1, 0x66]) ∧
    (shown (tick (s (.hostNow (.writeBuf 1 0x66))))).map Shown.buf = some (cells [0xA1, 0x66]) ∧
    (shown (tick (s (.host (.encodeBuf 1 powerLevelField 3))))).map Shown.buf = some (cells [0xA1, 0xA6]) ∧
    (shown (tick { bench .idle [0xFF] 0 [.host (.encodeReg 0 powerLevelField 0)] with host := oneReg })).map Shown.buf =
      some (cells [0x01]) ∧
    (s .pass).owns 1 = false ∧ (engineTurn (s .pass)).isNone = true ∧ (s .pass).buf = cells [0xA1, 0xA2] := by decide

/-- Steps that change the latch and ERR: ACCEPT after a failed command, and a failed answer (LatchAndErrorWriters). -/
theorem witness_LatchAndErrorWriters :
    let s := { start [] with cmd := some ⟨1, 31, 32⟩, err := true }
    (match tick s with
     | .next t => decide (t.op = .wrreg ∧ t.opc = 0x3F ∧ t.npay = 32 ∧ t.src = .buf ∧ t.err = false)
     | .fault _ | .refused _ => false) = true ∧ (s.op, s.npay) = (.rdreg, 0) ∧
    (shown (tick (bench .payRx [] 0 [fail]))).map Shown.err = some true ∧ (bench .payRx [] 0 [fail]).err = false := by decide

/-- In PAY_RX of the last of two payload bytes, the first returned byte stored at index 1. -/
theorem witness_PayloadOrderKept :
    let s := { bench .payRx [0xA1, 0xB1] 0x0E [.xrsp 0x55 false] with
      csn := .low, src := .buf, npay := 2, idx := 0, xreq := some 0xA1, op := .wrpay, opc := 0xA0,
      host := { HostData.initial Config.suggested with copy := [0xA1, 0xA2] },
      trace := [.settled, .cmd (.wrpay 2), .csn .low, .xreq 0xA0, .xrsp 0x0E false, .xreq 0xA2, .xrsp 0xB1 false, .xreq 0xA1] }
    Inv s ∧ InOrder s ∧ (shown (step s)).isSome = true := by
  refine ⟨⟨?_, ?_, ?_, ?_, ?_, ?_, ?_, ?_⟩, ⟨?_, ?_, fun _ => ⟨3, ?_⟩⟩, ?_⟩ <;> decide

/-- In PAY_RX with the invariant: InvariantKept, WireProtocolKept, EngineNeverFaults; the step answers a next state. -/
theorem witness_InvariantKept :
    let s := { bench .payRx [0xA1] 0x0E [.xrsp 0x55 false] with
      csn := .low, src := .buf, npay := 1, xreq := some 0xA1, opc := 0xA0,
      trace := [.settled, .cmd (.wrpay 1), .csn .low, .xreq 0xA0, .xrsp 0x0E false, .xreq 0xA1] }
    Inv s ∧ ErrOk s ∧ OnProtocol s ∧ (shown (step s)).isSome = true := by
  refine ⟨⟨?_, ?_, ?_, ?_, ?_, ?_, ?_, ?_⟩, ?_, ?_, ?_⟩ <;> decide

/-- A host access past the end of BUF with the invariant, where the engine holds and at once (EngineNeverFaults). -/
theorem witness_EngineNeverFaults :
    let s := bench .idle [] 0 [.host (.writeBuf 32 1)]
    let u := bench .sel [] 0 [.hostNow (.readBuf 32)]
    (Inv s ∧ step s matches .fault (.bufIndexOutOfRange 32)) ∧ (Inv u ∧ step u matches .fault (.bufIndexOutOfRange 32)) := by
  refine ⟨⟨⟨?_, ?_, ?_, ?_, ?_, ?_, ?_, ?_⟩, ?_⟩, ⟨⟨?_, ?_, ?_, ?_, ?_, ?_, ?_, ?_⟩, ?_⟩⟩ <;> decide

theorem witness_StatusStaysCurrent :
    let s := { bench .opcRx [] 0x11 [.xrsp 0x0E false] with trace := [.settled, .cmd .nop, .csn .low, .xreq 0xFF] }
    s.cfg.storeOnError = false ∧ (opcodeAnswer s.trace (false, none)).1 = true ∧ latestSnapshot s.trace = none ∧
    (shown (step s)).isSome = true := by decide

theorem witness_PipeWidthsKept : PipesOk (bench .idle [] 0 [.host (.setFull .p1 [1, 2, 3, 4, 5])]) ∧
    (shown (step (bench .idle [] 0 [.host (.setFull .p1 [1, 2, 3, 4, 5])]))).isSome = true ∧
    RegsOk (bench .idle [] 0 [.host (.newReg { addr := 1, raw := [7] })]) ∧
    (shown (step (bench .idle [] 0 [.host (.newReg { addr := 1, raw := [7] })]))).isSome = true := by decide

/-- Each clause, at the last cell, at an owned cell, and one past the end; and an act done at once in a phase in which the
engine has a step of its own. -/
theorem witness_HostPorts :
    let s := fun (a : HostAct) => { bench .payRx [1] 0 [.host a] with src := .buf, npay := 31 }
    (bench .desel [] 0 [.hostNow .readStatus]).agenda = .hostNow .readStatus :: [] ∧
    (engineTurn (s .readStatus)).isNone = true ∧ (s (.readBuf 31)).agenda = .host (.readBuf 31) :: [] ∧
    31 < (s .readStatus).cfg.bufDepth ∧ (s .readStatus).owns 31 = false ∧
    30 < (s .readStatus).cfg.bufDepth ∧ (s .readStatus).owns 30 = true ∧ (s .readStatus).cfg.bufDepth ≤ 32 := by decide

/-- The encode acts, at the largest level and one above, with fields inside the byte and on either side of it; the other
companion acts at the ends of their ranges (HostPorts). -/
theorem witness_HostPorts_companion :
    let s := { bench .idle [0xFF] 0 [.host (.encodeReg 0 powerLevelField 3)] with host := oneReg }
    let o := { bench .payRx [0xFF] 0 [.hostNow (.encodeReg 0 powerLevelField 4)] with
      host := oneReg, src := .buf, npay := 1 }
    s.host.regs[0]? = some { addr := 10, raw := [1, 2] } ∧ s.host.regs[1]? = none ∧ s.owns 0 = false ∧
    0 < s.cfg.bufDepth ∧ o.owns 0 = true ∧ powerLevelField.WellFormed = true ∧ 3 ≤ powerLevelField.max ∧
    powerLevelField.max < 4 ∧ (⟨7, 2⟩ : Field).WellFormed = false ∧ (⟨0, 0⟩ : Field).WellFormed = false ∧
    [(1 : Byte), 2, 3, 4, 5].length = s.cfg.nAddr ∧ [(1 : Byte), 2, 3, 4].length ≠ s.cfg.nAddr := by decide

/-- The widest and a narrow field, at the largest value and one above. -/
theorem witness_CodecLaws :
    (⟨0, 8⟩ : Field).WellFormed = true ∧ 255 ≤ (⟨0, 8⟩ : Field).max ∧ (⟨7, 1⟩ : Field).WellFormed = true ∧
    powerLevelField.WellFormed = true ∧ 3 ≤ powerLevelField.max ∧ powerLevelField.max < 4 := by decide

theorem witness_PartialPipesFollowBase : PartialPipe.p3 ≠ PartialPipe.p2 := by decide

/-- The two commands of the descriptor's address and width, both to their end; and for the other clause a failed command,
one of another code, one of another address, one of another width, one that hangs, one that is not accepted. -/
theorem witness_ShadowFollowsSuccessfulCommands :
    let s := fun (as : List EnvEvent) => { bench .idle [3, 4] 0 as with host := oneReg }
    let hit : Option State → Bool := fun t => decide (t.map (fun t => t.host.regs) = some oneReg.regs)
    let run := fun (i : Instr) (as : List EnvEvent) => match exec i (s as) with | .next t => some t | _ => none
    (s []).host.regs[0]? = some { addr := 10, raw := [1, 2] } ∧ (s []).cfg.WellFormed = true ∧ (s []).phase = .idle ∧
    2 ≤ (s []).cfg.bufDepth ∧ [(5 : Byte), 6].length = 2 ∧
    (run (.rdreg 10 2) (successes [0x0E, 5, 6])).map (fun t => t.host.regs) = some [{ addr := 10, raw := [6, 5] }] ∧
    (run (.wrreg 10 2) (successes [0x0E, 5, 6])).map (fun t => t.host.regs) = some [{ addr := 10, raw := [3, 4] }] ∧
    hit (run (.rdreg 10 2) [fail]) = true ∧ (run (.rdreg 10 2) [fail]).map (fun t => t.err) = some true ∧
    hit (run (.rdpay 2) (successes [0x0E, 5, 6])) = true ∧ hit (run (.rdreg 11 2) (successes [0x0E, 5, 6])) = true ∧
    hit (run (.wrreg 10 1) (successes [0x0E, 5])) = true ∧
    (run (.rdreg 10 2) []).map (fun t => t.phase) = some .opcRx ∧ canAccept (.wrreg 10 33) (s []) = false := by decide

/-- RESPOND of a RDREG that changes the shadow. -/
theorem witness_ShadowChangesWithResultOnly :
    let s := { bench .done [6, 5] 0 [] with
      host := oneReg, op := .rdreg, opc := 10, npay := 2, src := .buf }
    s.host.regs[0]? = some { addr := 10, raw := [1, 2] } ∧
    (match tick s with
     | .next t => decide (t.host.regs = [{ addr := 10, raw := [6, 5] }])
     | .fault _ | .refused _ => false) = true := by decide

end Sys2Proof.Tests
end

namespace Sys2Proof.Machine

/-! ## The sequencer's sending steps, R102, R103 and R105 -/

/-- Settles O19: SELECT is the one step SEL takes (R102), and a calm agenda lets the engine take it. -/
theorem selectDrivesChipSelectLow : Obligations.SelectDrivesChipSelectLow := by
  intro s hp hc
  have hne : s.phase ≠ .idle := by simp [hp]
  calc step s = tick s := step_eq_tick hne
    _ = .next (select s) := tick_select hc hp

/-- Settles O20: OPC_TX is the one step its phase takes (R103), for every latched command. -/
theorem opcTxSendsOpcodeByte : Obligations.OpcTxSendsOpcodeByte := by
  intro s hp hc
  have hne : s.phase ≠ .idle := by simp [hp]
  calc step s = tick s := step_eq_tick hne
    _ = .next (opcTx s) := tick_opcTx hc hp

/-- In PAY_TX the engine requests whatever byte `payByte` reads from the state it is in (R105). -/
theorem step_payTx {s : State} {tx : Byte} (hp : s.phase = .payTx) (hc : calm s.agenda = true)
    (hb : s.payByte = some tx) :
    step s = .next { s with xreq := some tx, phase := .payRx, trace := s.trace ++ [.xreq tx] } := by
  have hne : s.phase ≠ .idle := by simp [hp]
  calc step s = tick s := step_eq_tick hne
    _ = payTx s := tick_payTx hc hp
    _ = _ := payTx_eq hb

/-- Settles O22: the byte requested is `payByte`, which is `BUF[IDX]` or the key as the source says (R105). -/
theorem payloadByteSent : Obligations.PayloadByteSent := by
  intro s hp hc
  refine ⟨fun hs hi => step_payTx hp hc ?buffer, fun hs => step_payTx hp hc ?key⟩
  case buffer =>
    have h : s.payByte = some (sentByte s s.src s.idx) := payByte_eq fun _ => hi
    simpa [hs, sentByte] using h
  case key =>
    have h : s.payByte = some (sentByte s s.src s.idx) := payByte_eq (by simp [hs])
    simpa [hs, sentByte, activateKey] using h

end Sys2Proof.Machine

namespace Sys2Proof.Machine

/-! ## The bit field codec, R172, R173 and R175 -/

/-- A value of the field replaces the field's bits (R175). -/
theorem Field.encode_of_le_max {f : Field} {v : Nat} (h : v ≤ f.max) (current : Byte) :
    f.encode current v = .ok ((current &&& ~~~f.mask) ||| (BitVec.ofNat 8 v <<< f.shift)) :=
  if_neg (Nat.not_lt.mpr h)

/-- A value above the field's largest is a RangeError, whatever the byte holds (R175). -/
theorem Field.encode_of_max_lt {f : Field} {v : Nat} (h : f.max < v) (current : Byte) :
    f.encode current v = .error .outOfRange :=
  if_pos h

theorem powerLevelField_max : powerLevelField.max = 3 := by decide

theorem powerLevelField_mask : powerLevelField.mask = 0b00000110 := by decide

theorem powerLevelField_not_mask : ~~~powerLevelField.mask = 0b11111001 := by decide

/-- Settles O56: the codec of R175 with the Power Level's mask, its complement and its largest value written out
(R172, R173). -/
theorem powerLevelFormulas : Obligations.PowerLevelFormulas := by
  intro b l
  refine ⟨?decode, fun hl => ?inRange, fun hl => ?outOfRange⟩
  case decode => rw [Field.decode, powerLevelField_mask]; rfl
  case inRange =>
    have hmax : l ≤ powerLevelField.max := powerLevelField_max ▸ hl
    rw [Field.encode_of_le_max hmax, powerLevelField_not_mask]; rfl
  case outOfRange =>
    have hmax : powerLevelField.max < l := powerLevelField_max ▸ hl
    exact Field.encode_of_max_lt hmax b

/-! ## Reading a pipe after a `set`, R179, R180 and R182 -/

/-- A `set` of a full pipe replaces that pipe's address and no other's (R179). -/
theorem Pipes.getFull_setFull (p : Pipes) (f f' : FullPipe) (a : List Byte) :
    (p.setFull f a).getFull f' = if f' = f then a else p.getFull f' := by
  cases f <;> cases f' <;> rfl

@[simp] theorem Pipes.own_setFull (p : Pipes) (f : FullPipe) (a : List Byte) (q : PartialPipe) :
    (p.setFull f a).own q = p.own q := by
  cases f <;> cases q <;> rfl

@[simp] theorem Pipes.getFull_setOwn (p : Pipes) (q : PartialPipe) (b : Byte) (f : FullPipe) :
    (p.setOwn q b).getFull f = p.getFull f := by
  cases q <;> cases f <;> rfl

/-- A `set` of a partial pipe "mutates only that byte" (R180). -/
theorem Pipes.own_setOwn (p : Pipes) (q q' : PartialPipe) (b : Byte) :
    (p.setOwn q b).own q' = if q' = q then b else p.own q' := by
  cases q <;> cases q' <;> rfl

theorem Pipes.getFull_p1 (p : Pipes) : p.getFull .p1 = p.full1 := rfl

/-- What a partial pipe reads depends on pipe 1 and its own byte, and on nothing else (R180). -/
theorem Pipes.getPartial_eq (p : Pipes) (q : PartialPipe) : p.getPartial q = (p.getFull .p1).drop 1 ++ [p.own q] := rfl

/-- Settles O58: a partial pipe reads pipe 1 and its own byte, and each `set` writes one of these and keeps the others
(R180, R182). -/
theorem partialPipesFollowBase : Obligations.PartialPipesFollowBase := by
  intro p q q' b a
  refine ⟨?newBase, ?ownByte, fun hq => ?otherOwn, p.getFull_setOwn q b .p0, p.getFull_setOwn q b .p1, ?pipe0,
    p.getFull_setFull .p0 .p1 a, p.getFull_setFull .p1 .p0 a, fun f => ?full⟩
  case newBase => simp [Pipes.getPartial_eq, Pipes.getFull_setFull]
  case ownByte => rw [Pipes.getPartial_eq, Pipes.getFull_setOwn, Pipes.own_setOwn, if_pos rfl, Pipes.getFull_p1]
  case otherOwn => simp [Pipes.getPartial_eq, Pipes.own_setOwn, hq]
  case pipe0 => simp [Pipes.getPartial_eq, Pipes.getFull_setFull]
  case full => simp [Pipes.getFull_setFull]

end Sys2Proof.Machine

namespace Sys2Proof.Machine

/-! ## The host on its turn, R40, R41, R65 and R178 -/

/-- An act of the host is a step of its own in every phase, IDLE included: no command is on turn then. -/
theorem step_host {s : State} {a : HostAct} {r : List EnvEvent} (h : HostTurn s a r) :
    step s = hostStep a { s with agenda := r } := by
  rcases h with ha | ⟨ha, hn⟩
  · simp [step, turn, ha, envStep]
  · simp [step, turn, ha, hn, envStep]

section
variable {s : State} {i : Nat} {act : Out}

theorem hostBuf_beyond (hi : s.cfg.bufDepth ≤ i) : hostBuf i s act = .fault (.bufIndexOutOfRange i) := if_pos hi

theorem hostBuf_owned (hi : i < s.cfg.bufDepth) (ho : s.owns i = true) :
    hostBuf i s act = .refused (.hostTouchedOwnedBuffer i) := by
  simp [hostBuf, Nat.not_le.mpr hi, ho]

theorem hostBuf_free (hi : i < s.cfg.bufDepth) (ho : s.owns i = false) : hostBuf i s act = act := by
  simp [hostBuf, Nat.not_le.mpr hi, ho]

/-- A host write to a cell the engine does not own changes that cell and nothing else (R41). -/
theorem hostWrite_free (hi : i < s.cfg.bufDepth) (ho : s.owns i = false) (v : Byte) :
    ∃ t, hostWrite i v s = .next t ∧ t = { s with buf := t.buf } ∧
      ∀ j, t.bufByte j = if j = i then v else s.bufByte j :=
  ⟨{ s with buf := Memory.store s.buf i v }, hostBuf_free hi ho, rfl, fun j => s.bufByte_store i j v⟩

end

section
variable {s : State} {i : Nat} {f : Field} {cur : Byte} {level : Nat}

/-- Encoding comes first: a level the field can hold leaves the write of the encoded byte (R178). -/
theorem hostEncode_inRange (hf : f.WellFormed = true) (hl : level ≤ f.max) :
    ∃ b, f.encode cur level = .ok b ∧ hostEncode i f cur level s = hostWrite i b s :=
  ⟨_, Field.encode_of_le_max hl cur, by simp [hostEncode, hf, Field.encode_of_le_max hl]⟩

/-- RangeError comes before any write, whoever owns the cell (R202; log 30). -/
theorem hostEncode_rangeError (hf : f.WellFormed = true) (hl : f.max < level) :
    hostEncode i f cur level s = .next (s.emit .rangeError) := by
  simp [hostEncode, hf, Field.encode_of_max_lt hl]

theorem hostEncode_outsideByte (hf : f.WellFormed = false) :
    hostEncode i f cur level s = .refused (.fieldOutsideByte f) := by
  simp [hostEncode, hf]

/-- What an encode act writes to a cell the engine does not own, and that it changes nothing else. -/
theorem hostEncode_free (hf : f.WellFormed = true) (hl : level ≤ f.max) (hi : i < s.cfg.bufDepth)
    (ho : s.owns i = false) :
    ∃ t b, hostEncode i f cur level s = .next t ∧ f.encode cur level = .ok b ∧ t = { s with buf := t.buf } ∧
      ∀ j, t.bufByte j = if j = i then b else s.bufByte j := by
  obtain ⟨b, hb, hwrite⟩ := hostEncode_inRange (s := s) (i := i) (cur := cur) hf hl
  obtain ⟨t, ht, hframe, hcells⟩ := hostWrite_free hi ho b
  exact ⟨t, b, hwrite.trans ht, hb, hframe, hcells⟩

/-- The write of an encoded byte to a cell the engine owns is refused (R65; log 12). -/
theorem hostEncode_owned (hf : f.WellFormed = true) (hl : level ≤ f.max) (hi : i < s.cfg.bufDepth)
    (ho : s.owns i = true) : hostEncode i f cur level s = .refused (.hostTouchedOwnedBuffer i) := by
  obtain ⟨b, -, hwrite⟩ := hostEncode_inRange (s := s) (i := i) (cur := cur) hf hl
  exact hwrite.trans (hostBuf_owned hi ho)

end

section
variable {s : State} {a : HostAct} {i k : Nat} {v : Byte} {f : Field} {level : Nat}

/-- The three acts that name a cell go through its access check first (R41, R178; log 30). -/
theorem hostStep_throughPort (h : a = .readBuf i ∨ a = .writeBuf i v ∨ a = .encodeBuf i f level) :
    ∃ act, hostStep a s = hostBuf i s act := by
  rcases h with rfl | rfl | rfl <;> exact ⟨_, rfl⟩

/-- The read inside `encodeBuf` is let through where the engine does not own the cell (R178; log 30). -/
theorem hostStep_encodeBuf (hi : i < s.cfg.bufDepth) (ho : s.owns i = false) :
    hostStep (.encodeBuf i f level) s = hostEncode i f (s.bufByte i) level s := hostBuf_free hi ho

/-- The form of R178 that starts from the shadow encodes into the shadow's first byte. -/
theorem hostStep_encodeReg {d : RegDesc} {cur : Byte} (hd : s.host.regs[k]? = some d) (hc : d.raw.head? = some cur) :
    hostStep (.encodeReg k f level) s = hostEncode 0 f cur level s := by
  obtain ⟨addr, raw⟩ := d
  obtain ⟨tail, rfl⟩ : ∃ tail, raw = cur :: tail := List.head?_eq_some_iff.mp hc
  simp [hostStep, hd]

/-- Where there is no descriptor, or one of no byte, there is nothing to encode into. -/
theorem hostStep_encodeReg_noByte (h : ∀ d, s.host.regs[k]? = some d → d.raw = []) :
    hostStep (.encodeReg k f level) s = .next s := by
  rcases hd : s.host.regs[k]? with _ | ⟨addr, raw⟩
  · simp [hostStep, hd]
  · obtain rfl : raw = [] := h _ hd
    simp [hostStep, hd]

theorem RegDesc.wellFormed_iff {d : RegDesc} : d.WellFormed = true ↔ 1 ≤ d.raw.length ∧ d.raw.length ≤ 5 := by
  simp [RegDesc.WellFormed]

end

/-- Settles O55: the host's turn is its act (`step_host`), and each act does what its own rule says: the cell's access
check (`hostBuf`), the write of one cell (`hostWrite_free`), and encoding before the write (`hostEncode_inRange`). -/
theorem hostPorts : Obligations.HostPorts := by
  intro s a r h
  rw [step_host h]
  clear h
  set u : State := { s with agenda := r }
  refine ⟨?readStatus, ?readBuf, ?writeBuf, ?owned, ?beyond, ?encodeBuf, ?encodeReg, ?noByte, ?offer, ?setFull, ?setOwn,
    ?getFull, ?getPartial, ?newReg⟩
  case readStatus => rintro rfl; rfl
  case readBuf => rintro i rfl hi ho; exact hostBuf_free hi ho
  case writeBuf => rintro i v rfl hi ho; exact hostWrite_free (s := u) hi ho v
  case owned =>
    intro i v f l ha hi ho
    obtain ⟨act, hact⟩ := hostStep_throughPort (s := u) ha
    exact hact.trans (hostBuf_owned hi ho)
  case beyond =>
    intro i v f l ha hi
    obtain ⟨act, hact⟩ := hostStep_throughPort (s := u) ha
    exact hact.trans (hostBuf_beyond hi)
  case encodeBuf =>
    rintro i f l rfl hi ho
    rw [hostStep_encodeBuf (s := u) hi ho]
    exact ⟨fun hf hl => hostEncode_free (s := u) hf hl hi ho, hostEncode_rangeError,
      hostEncode_outsideByte⟩
  case encodeReg =>
    rintro k f l d cur rfl hd hc
    rw [hostStep_encodeReg (s := u) hd hc]
    exact ⟨fun hf hl hi ho => hostEncode_free (s := u) hf hl hi ho,
      fun hf hl hi ho => hostEncode_owned (s := u) hf hl hi ho, hostEncode_rangeError, hostEncode_outsideByte⟩
  case noByte => rintro k f l rfl hnone; exact hostStep_encodeReg_noByte hnone
  case offer => rintro d rfl; rfl
  case setFull => rintro p bytes rfl; exact ⟨fun hlen => if_pos hlen, fun hlen => if_neg hlen⟩
  case setOwn => rintro p b rfl; rfl
  case getFull => rintro p rfl; rfl
  case getPartial => rintro p rfl; rfl
  case newReg =>
    rintro d rfl
    exact ⟨fun hd => if_pos (RegDesc.wellFormed_iff.mpr hd),
      fun hd => if_neg fun hw => by have := RegDesc.wellFormed_iff.mp hw; omega⟩

end Sys2Proof.Machine

namespace Sys2Proof

/-! ## The message, R70 and R74 -/

/-- The three fields of a packed message stand in bits of their own, so each is read back (R74). -/
theorem unpackDescriptor_packDescriptor {d : Descriptor} (hop : d.op < 8) (haddr : d.addr < 32) :
    unpackDescriptor (packDescriptor d) = d := by
  obtain ⟨op, addr, len⟩ := d
  dsimp only at hop haddr
  simp only [unpackDescriptor, packDescriptor, Descriptor.mk.injEq]
  omega

/-- Every command whose length fits is rebuilt from its code and its two fields (R70). -/
theorem commandOf_op_addr_len (i : Instr) : Laws.Rebuilt.Statement i := by
  cases i with
  | rdreg addr len => exact Laws.Rebuilt.rdreg addr len
  | wrreg addr len => exact Laws.Rebuilt.wrreg addr len
  | rdpay len => exact Laws.Rebuilt.rdpay len
  | wrpay len => exact Laws.Rebuilt.wrpay len
  | flushtx => exact Laws.Rebuilt.flushtx
  | flushrx => exact Laws.Rebuilt.flushrx
  | nop => exact Laws.Rebuilt.nop
  | activate => exact Laws.Rebuilt.activate

/-- Settles O6: the fields of the packed message are read back (`unpackDescriptor_packDescriptor`), the code names the
command again, and the command is rebuilt from them (`commandOf_op_addr_len`). -/
theorem messageRoundTrip : Obligations.MessageRoundTrip := by
  intro c i hi
  have hfields : unpackDescriptor (encode i) = encodeDescriptor i :=
    unpackDescriptor_packDescriptor i.op.code_lt i.addr.isLt
  rw [decodeWord, hfields]
  simp only [decodeDescriptor, encodeDescriptor, Op.ofCode_code]
  exact commandOf_op_addr_len i c hi

/-! ## The wire, R8, R72, R73, R78 and R80 -/

/-- A command code that takes a register address (R72). -/
def Op.isRegister : Op → Bool
  | .rdreg | .wrreg => true
  | .rdpay | .wrpay | .flushtx | .flushrx | .nop | .activate => false

/-- A command's address is 0 where its code takes none (R81). -/
theorem Instr.addr_of_not_isRegister {i : Instr} (h : i.op.isRegister = false) : i.addr = 0 := by
  cases i with
  | rdreg | wrreg => cases h
  | rdpay | wrpay | flushtx | flushrx | nop | activate => rfl

/-- Some command has this code and this address, which is 0 where the code takes none. -/
theorem exists_instr_of_op_addr (op : Op) {a : RegAddr} (h : op.isRegister = false → a = 0) :
    ∃ i : Instr, i.op = op ∧ i.addr = a := by
  cases op with
  | rdreg => exact ⟨.rdreg a 0, rfl, rfl⟩
  | wrreg => exact ⟨.wrreg a 0, rfl, rfl⟩
  | rdpay => exact ⟨.rdpay 0, rfl, (h rfl).symm⟩
  | wrpay => exact ⟨.wrpay 0, rfl, (h rfl).symm⟩
  | flushtx => exact ⟨.flushtx, rfl, (h rfl).symm⟩
  | flushrx => exact ⟨.flushrx, rfl, (h rfl).symm⟩
  | nop => exact ⟨.nop, rfl, (h rfl).symm⟩
  | activate => exact ⟨.activate, rfl, (h rfl).symm⟩

section
variable {c : Config}

/-- R8 for the register bases: the low five bits are zero, and the two differ. -/
theorem Config.bases_of_wellFormed (h : c.WellFormed = true) :
    c.opcRRegister &&& 0x1F = 0 ∧ c.opcWRegister &&& 0x1F = 0 ∧ c.opcRRegister ≠ c.opcWRegister := by
  obtain ⟨haligned, hdistinct, -⟩ := Config.wellFormed_parts h
  simp only [Config.basesAligned, Bool.and_eq_true, beq_iff_eq] at haligned
  simp only [Config.basesDistinct, bne_iff_ne] at hdistinct
  exact ⟨haligned.1, haligned.2, hdistinct⟩

/-- R8: a fixed opcode lies in neither set of register opcodes. -/
theorem Config.fixed_outside_bases (h : c.WellFormed = true) {b : Byte} (hb : b ∈ c.fixedOpcodes) :
    b &&& 0xE0 ≠ c.opcRRegister ∧ b &&& 0xE0 ≠ c.opcWRegister := by
  obtain ⟨-, -, houtside, -⟩ := Config.wellFormed_parts h
  simpa using List.all_eq_true.mp houtside b hb

/-- R8: the six fixed opcodes are pairwise distinct. -/
theorem Config.fixed_nodup (h : c.WellFormed = true) : c.fixedOpcodes.Nodup := by
  obtain ⟨-, -, -, hdistinct, -⟩ := Config.wellFormed_parts h
  simpa [Config.fixedDistinct] using hdistinct

/-- The opcode byte of a code that takes no address is a fixed opcode (R73). -/
theorem opcodeOf_mem_fixedOpcodes {op : Op} (h : op.isRegister = false) (a : RegAddr) :
    opcodeOf c op a ∈ c.fixedOpcodes := by
  cases op with
  | rdreg | wrreg => cases h
  | rdpay | wrpay | flushtx | flushrx | nop | activate => simp [opcodeOf, Config.fixedOpcodes]

/-- The opcode byte spells the code and the address it is made from (R78). -/
theorem decodeOpcode_opcodeOf (h : c.WellFormed = true) {op : Op} {a : RegAddr} (ha : op.isRegister = false → a = 0) :
    decodeOpcode c (opcodeOf c op a) = some (op, a) := by
  obtain ⟨hR, hW, hRW⟩ := Config.bases_of_wellFormed h
  cases hreg : op.isRegister with
  | true =>
    cases op with
    | rdreg => simp only [decodeOpcode, opcodeOf, or_zext8_and_high hR, or_zext8_low hR, if_true]
    | wrreg =>
      simp only [decodeOpcode, opcodeOf, or_zext8_and_high hW, or_zext8_low hW, if_neg hRW.symm, if_true]
    | rdpay | wrpay | flushtx | flushrx | nop | activate => cases hreg
  | false =>
    obtain rfl := ha hreg
    obtain ⟨hr, hw⟩ := Config.fixed_outside_bases h (opcodeOf_mem_fixedOpcodes hreg 0)
    have hearlier := List.nodup_reverse.mpr (Config.fixed_nodup h)
    simp [Config.fixedOpcodes] at hearlier
    cases op with
    | rdreg | wrreg => cases hreg
    | rdpay | wrpay | flushtx | flushrx | nop | activate =>
      simp only [decodeOpcode, if_neg hr, if_neg hw]
      simp [opcodeOf, hearlier]

/-- A byte that spells a code and an address is their opcode byte (R78). -/
theorem opcodeOf_of_decodeOpcode {b : Byte} {op : Op} {a : RegAddr} (h : decodeOpcode c b = some (op, a)) :
    opcodeOf c op a = b ∧ (op.isRegister = false → a = 0) := by
  unfold decodeOpcode at h
  split_ifs at h with hr hw <;> cases h
  · exact ⟨base_or_low hr, nofun⟩
  · exact ⟨base_or_low hw, nofun⟩
  all_goals exact ⟨Eq.symm ‹_›, fun _ => rfl⟩

end

/-- Settles O7: the low byte of the table word is the opcode byte, which spells the code and the address
(`decodeOpcode_opcodeOf`); the length stands above it, and the command is rebuilt from the three. -/
theorem wireRoundTrip : Obligations.WireRoundTrip := by
  intro c i hc hi
  have hlt : (i.opcode c).toNat < 256 := (i.opcode c).isLt
  have hbyte : BitVec.ofNat 8 (encodeTable c i) = i.opcode c := by
    apply BitVec.eq_of_toNat_eq
    simp only [encodeTable, BitVec.toNat_ofNat]
    omega
  have hlen : encodeTable c i / 256 = i.len := by
    simp only [encodeTable]
    omega
  have hspells : decodeOpcode c (i.opcode c) = some (i.op, i.addr) :=
    decodeOpcode_opcodeOf hc Instr.addr_of_not_isRegister
  rw [decodeTable, hbyte, hlen]
  simp only [decodeWire, hspells]
  exact commandOf_op_addr_len i c hi

/-- The codes and addresses whose opcode bytes R80 lists: every address for the two register commands, 0 for the six
others. -/
def opcodeOperands : List (Op × RegAddr) :=
  (List.range 32).map (fun a => (Op.rdreg, BitVec.ofNat 5 a)) ++
  (List.range 32).map (fun a => (Op.wrreg, BitVec.ofNat 5 a)) ++
  [(.rdpay, 0), (.wrpay, 0), (.flushtx, 0), (.flushrx, 0), (.nop, 0), (.activate, 0)]

theorem opcodeOperands_nodup : opcodeOperands.Nodup := by decide

theorem mem_opcodeOperands {op : Op} {a : RegAddr} : (op, a) ∈ opcodeOperands ↔ (op.isRegister = false → a = 0) := by
  have hall : ∃ n < 32, BitVec.ofNat 5 n = a := ⟨a.toNat, a.isLt, by simp⟩
  cases op <;> simp [opcodeOperands, Op.isRegister, hall]

/-- The listed bytes are the opcode bytes of the listed operands. -/
theorem emittedOpcodes_eq_map (c : Config) : emittedOpcodes c = opcodeOperands.map fun x => opcodeOf c x.1 x.2 := by
  simp only [emittedOpcodes, opcodeOperands, List.map_append, List.map_map]
  rfl

theorem opcodeOf_mem_emittedOpcodes {c : Config} {op : Op} {a : RegAddr} (h : op.isRegister = false → a = 0) :
    opcodeOf c op a ∈ emittedOpcodes c := by
  rw [emittedOpcodes_eq_map]
  exact List.mem_map_of_mem (mem_opcodeOperands.mpr h)

/-- Settles O9: `decodeOpcode` reads back what `opcodeOf` made, and a byte it reads at all is one that `opcodeOf` made. -/
theorem opcodeByteSpellsItsCommand : Obligations.OpcodeByteSpellsItsCommand := by
  intro c hc
  refine ⟨fun i => decodeOpcode_opcodeOf hc Instr.addr_of_not_isRegister, fun b hb => ?_⟩
  rcases hspells : decodeOpcode c b with _ | ⟨op, a⟩
  · rfl
  · obtain ⟨rfl, ha⟩ := opcodeOf_of_decodeOpcode hspells
    exact absurd (opcodeOf_mem_emittedOpcodes ha) hb

/-- Settles O8: the opcode byte determines its operands (`decodeOpcode_opcodeOf`), so the 70 different operands have 70
different bytes; and each of the operands is a command's. -/
theorem seventyOpcodeBytes : Obligations.SeventyOpcodeBytes := by
  intro c hc
  refine ⟨?nodup, ?length, fun i => opcodeOf_mem_emittedOpcodes Instr.addr_of_not_isRegister, ?commands⟩
  case nodup =>
    rw [emittedOpcodes_eq_map]
    refine opcodeOperands_nodup.map_on fun x hx y hy hxy => ?_
    have hspells : ∀ z ∈ opcodeOperands, decodeOpcode c (opcodeOf c z.1 z.2) = some z := fun z hz =>
      decodeOpcode_opcodeOf hc (mem_opcodeOperands.mp hz)
    exact Option.some.inj ((hspells x hx).symm.trans ((congrArg _ hxy).trans (hspells y hy)))
  case length => rw [emittedOpcodes_eq_map, List.length_map]; rfl
  case commands =>
    intro b hb
    rw [emittedOpcodes_eq_map] at hb
    obtain ⟨⟨op, a⟩, hmem, rfl⟩ := List.mem_map.mp hb
    obtain ⟨i, rfl, rfl⟩ := exists_instr_of_op_addr op (mem_opcodeOperands.mp hmem)
    exact ⟨i, rfl⟩

/-- An aligned base is a multiple of 32. -/
theorem toNat_mod_of_aligned {base : Byte} (h : base &&& 0x1F = 0) : base.toNat % 32 = 0 := by
  have hlow : (base ||| zext8 0).setWidth 5 = 0 := or_zext8_low h 0
  simpa using congrArg BitVec.toNat hlow

/-- The `|` of R76 does not carry (R72). -/
theorem toNat_or_zext8 {base : Byte} (h : base &&& 0x1F = 0) (a : RegAddr) :
    (base ||| zext8 a).toNat = base.toNat + a.toNat := by
  have hbase := toNat_mod_of_aligned h
  have hb := base.isLt
  have ha := a.isLt
  rw [or_zext8_eq_add h, BitVec.toNat_add, BitVec.toNat_setWidth]
  omega

/-- Settles O10: both bases are aligned (R8), so the `|` is a sum that does not carry (`toNat_or_zext8`). -/
theorem registerOpcodeIsBaseAndAddress : Obligations.RegisterOpcodeIsBaseAndAddress := by
  intro c a hc
  obtain ⟨hR, hW, -⟩ := Config.bases_of_wellFormed hc
  have high : ∀ {base : Byte}, base &&& 0x1F = 0 → (base ||| zext8 a).toNat / 32 = base.toNat / 32 := by
    intro base h
    have hbase := toNat_mod_of_aligned h
    have ha := a.isLt
    rw [toNat_or_zext8 h]
    omega
  exact ⟨toNat_or_zext8 hR a, or_zext8_low hR a, high hR, toNat_or_zext8 hW a, or_zext8_low hW a, high hW⟩

/-- Settles O13: `LEN_W` is one more than the position of the depth's highest bit, which is what the depth itself needs. -/
theorem lengthFieldFitsDepthExactly : Obligations.LengthFieldFitsDepthExactly := by
  intro c hc
  obtain ⟨-, -, -, -, hdepth, -⟩ := Config.wellFormed_parts hc
  have hpos : c.bufDepth ≠ 0 := by
    have : 5 ≤ c.bufDepth := by simpa [Config.depthOk] using hdepth
    omega
  exact ⟨fun n hn => lt_of_le_of_lt hn Nat.lt_log2_self, fun w hw => (Nat.log2_lt hpos).mpr (hw _ le_rfl)⟩

end Sys2Proof

namespace Sys2Proof.Machine

/-! ## One atomic step, with the agenda set aside

`Ticked` says which event a step takes. What the step does to the registers is said here once more, as one record for each
kind of step, so that a statement that does not speak of the agenda is proved over a list of plain updates. -/

/-- Everything an atomic step can do to a state whose event has been taken off the agenda, but for a RESET and an act of the
host. -/
inductive Moved (u : State) : State → Prop where
  | hold : Moved u u
  | accept (i : Instr) : u.phase = .idle → admitted u.cfg i = true → Moved u (accept i u)
  | select : u.phase = .sel → Moved u { u with csn := .low, phase := .opcTx, trace := u.trace ++ [.csn .low] }
  | opcTx : u.phase = .opcTx →
      Moved u { u with xreq := some u.opc, phase := .opcRx, trace := u.trace ++ [.xreq u.opc] }
  | opcRxPayload (rx : Byte) : u.phase = .opcRx → 1 ≤ u.npay → Moved u { u with
      status := rx, idx := u.npay - 1, phase := .payTx, xreq := none, trace := u.trace ++ [.xrsp rx false] }
  | opcRxEmpty (rx : Byte) : u.phase = .opcRx → u.npay = 0 → Moved u { u with
      status := rx, phase := .desel, xreq := none, trace := u.trace ++ [.xrsp rx false] }
  | opcRxError (rx : Byte) : u.phase = .opcRx → Moved u { u with
      status := if u.cfg.storeOnError then rx else u.status, err := true, phase := .desel, xreq := none,
      trace := u.trace ++ [.xrsp rx true] }
  | payTx (tx : Byte) : u.phase = .payTx → u.payByte = some tx →
      Moved u { u with xreq := some tx, phase := .payRx, trace := u.trace ++ [.xreq tx] }
  | payRxNext (rx : Byte) : u.phase = .payRx → 1 ≤ u.idx → Moved u { u with
      buf := bufAfter u rx, idx := u.idx - 1, phase := .payTx, xreq := none, trace := u.trace ++ [.xrsp rx false] }
  | payRxLast (rx : Byte) : u.phase = .payRx → u.idx = 0 → Moved u { u with
      buf := bufAfter u rx, phase := .desel, xreq := none, trace := u.trace ++ [.xrsp rx false] }
  | payRxError (rx : Byte) : u.phase = .payRx → Moved u { u with
      buf := if u.cfg.storeOnError then bufAfter u rx else u.buf, err := true, phase := .desel, xreq := none,
      trace := u.trace ++ [.xrsp rx true] }
  | deselect : u.phase = .desel → Moved u { u with csn := .high, phase := .done, trace := u.trace ++ [.csn .high] }
  | respond : u.phase = .done → Moved u { u with
      rsp := some (u.status, u.err), phase := .idle, host := u.noteResult.host,
      trace := u.trace ++ [.rsp u.status u.err] }
  | settled : u.phase = .settle → Moved u { u with phase := .idle, trace := u.trace ++ [.settled] }

theorem moved_settled (us : Nat) (u : State) : Moved u (settled us u) := by
  unfold settled
  split
  · exact .settled (And.left ‹_›)
  · exact .hold

theorem moved_opcRx {u : State} (rx : Byte) (e : Bool) (hp : u.phase = .opcRx) : Moved u (opcRx rx e u) := by
  cases e with
  | true => rw [opcRx_failure]; exact .opcRxError rx hp
  | false =>
    rw [opcRx_success]
    by_cases hn : 1 ≤ u.npay
    · simp only [if_pos hn]; exact .opcRxPayload rx hp hn
    · simp only [if_neg hn]; exact .opcRxEmpty rx hp (by omega)

theorem moved_payRx {u t : State} {rx : Byte} {e : Bool} (hp : u.phase = .payRx) (h : payRx rx e u = .next t) :
    Moved u t := by
  rw [payRx_eq_next h]
  cases e with
  | true =>
    have hm := Moved.payRxError rx hp
    cases hs : u.cfg.storeOnError <;> simpa [hs] using hm
  | false =>
    by_cases hi : u.idx = 0
    · have hm := Moved.payRxLast rx hp hi
      simpa [hi] using hi ▸ hm
    · have hm := Moved.payRxNext rx hp (by omega)
      simpa [hi] using hm

/-- An atomic step takes at most the next event off the agenda; then it is one of the moves above, an act of the host on its
turn, or a RESET. -/
theorem moved_of_tick {s t : State} (h : tick s = .next t) :
    ∃ r, r <:+ s.agenda ∧ (Moved { s with agenda := r } t ∨ (∃ a, HostTurn s a r ∧ HostDid { s with agenda := r } t) ∨
      s.agenda = .reset :: r ∧ t = { s with agenda := r }.takeReset) := by
  have yields : ∀ {u : State}, Yields s u → ∃ r, r <:+ s.agenda ∧ u = { s with agenda := r } := by
    rintro u (rfl | ⟨r, hr, rfl⟩)
    · exact ⟨_, List.suffix_rfl, rfl⟩
    · exact ⟨r, hr ▸ List.suffix_cons _ _, rfl⟩
  have next : ∀ {e : EnvEvent} {r : List EnvEvent}, s.agenda = e :: r → r <:+ s.agenda :=
    fun ha => ha ▸ List.suffix_cons _ _
  cases tick_cases h with
  | hold u hy => obtain ⟨r, hr, rfl⟩ := yields hy; exact ⟨r, hr, .inl .hold⟩
  | accept i d u hy hp _ _ hadm => obtain ⟨r, hr, rfl⟩ := yields hy; exact ⟨r, hr, .inl (.accept i hp hadm)⟩
  | select u hy hp => obtain ⟨r, hr, rfl⟩ := yields hy; exact ⟨r, hr, .inl (.select hp)⟩
  | opcTx u hy hp => obtain ⟨r, hr, rfl⟩ := yields hy; exact ⟨r, hr, .inl (.opcTx hp)⟩
  | payTx u tx hy hp hb => obtain ⟨r, hr, rfl⟩ := yields hy; exact ⟨r, hr, .inl (.payTx tx hp hb)⟩
  | deselect u hy hp => obtain ⟨r, hr, rfl⟩ := yields hy; exact ⟨r, hr, .inl (.deselect hp)⟩
  | respond u hy hp => obtain ⟨r, hr, rfl⟩ := yields hy; exact ⟨r, hr, .inl (.respond hp)⟩
  | reset r ha => exact ⟨r, next ha, .inr (.inr ⟨ha, rfl⟩)⟩
  | settled us r ha => exact ⟨r, next ha, .inl (moved_settled us _)⟩
  | opcRx rx e r ha hp => exact ⟨r, next ha, .inl (moved_opcRx rx e hp)⟩
  | payRx rx e r t ha hp ht => exact ⟨r, next ha, .inl (moved_payRx hp ht)⟩
  | drop e r ha => exact ⟨r, next ha, .inl .hold⟩
  | host a r t hturn _ hdid =>
    exact ⟨r, hturn.elim next fun ha => next ha.1, .inr (.inl ⟨a, hturn, hdid⟩)⟩

/-- A move leaves the agenda as it is. -/
theorem Moved.agenda {u t : State} (h : Moved u t) : t.agenda = u.agenda := by cases h <;> rfl

theorem Moved.cfg {u t : State} (h : Moved u t) : t.cfg = u.cfg := by cases h <;> rfl

/-- The pattern of every invariant below: a property that does not look at the agenda, and that a RESET, every act of the
host and every move keep, is kept by `step`. -/
theorem step_keeps (P : State → Prop) (agenda : ∀ s r, P s → P { s with agenda := r })
    (reset : ∀ u, P u → P u.takeReset) (host : ∀ u t, P u → HostDid u t → P t) (move : ∀ u t, P u → Moved u t → P t)
    {s t : State} (hs : P s) (h : step s = .next t) : P t := by
  refine step_induction P (fun s t hs ht => ?_) hs h
  obtain ⟨r, -, hm | ⟨a, -, hdid⟩ | ⟨-, rfl⟩⟩ := moved_of_tick ht
  · exact move _ _ (agenda s r hs) hm
  · exact host _ _ (agenda s r hs) hdid
  · exact reset _ (agenda s r hs)

/-- Settles O47: a RESET and an act of the host keep the parameters, and so does every move (`Moved.cfg`). -/
theorem configurationFixed : Obligations.ConfigurationFixed := by
  intro s t h
  exact step_keeps (fun u => u.cfg = s.cfg) (fun _ _ hu => hu) (fun _ hu => hu) (fun _ _ hu hd => hd.frame.cfg.trans hu)
    (fun _ _ hu hm => hm.cfg.trans hu) rfl h

/-! ## The invariant of R43 -/

/-- What a payload plan promises the state that latches it (R43, R77). -/
theorem plan_bounds {c : Config} {i : Instr} (h : admitted c i = true) :
    ((plan i).1 = .buf → (plan i).2 ≤ c.bufDepth) ∧ ((plan i).1 = .key → (plan i).2 = 1) ∧
      ((plan i).1 = .none → (plan i).2 = 0) := by
  cases i <;> simp_all [plan, payloadOf, admitted, Instr.op, Instr.len]

theorem wf_bufAfter {s : State} {rx : Byte} (hbuf : Memory.wf s.cfg.bufDepth s.buf = true)
    (hidx : s.src = .buf → s.idx < s.cfg.bufDepth) : Memory.wf s.cfg.bufDepth (bufAfter s rx) = true := by
  unfold bufAfter
  split
  · exact Memory.wf_store hbuf (hidx ‹_›)
  · exact hbuf
  · exact hbuf

/-- With the invariant the payload index exists in BUF, where the payload is the buffer (R55). -/
theorem Inv.idx_lt {s : State} (h : Inv s) (hp : s.phase.payload = true) (hs : s.src = .buf) : s.idx < s.cfg.bufDepth := by
  obtain ⟨-, -, hidx⟩ := h.payload hp
  have := h.depth hs
  omega

theorem Inv.takeReset {s : State} : Inv s.takeReset := by
  constructor <;> simp [Phase.selected, Phase.waiting, Phase.payload]

theorem Inv.host {u t : State} (h : Inv u) (hdid : HostDid u t) : Inv t := by
  obtain ⟨hcfg, -, hcsn, hce, hphase, hidx, -, -, hnpay, hsrc, -, hxreq, -, -, -⟩ := hdid.frame
  constructor
  · rw [hcsn, hphase]; exact h.csn
  · rw [hxreq, hphase]; exact h.outstanding
  · rw [hphase, hsrc, hnpay, hidx]; exact h.payload
  · rw [hsrc, hnpay, hcfg]; exact h.depth
  · rw [hsrc, hnpay]; exact h.key
  · rw [hsrc, hnpay]; exact h.empty
  · rw [hce]; exact h.ce
  · rw [hcfg]
    rcases hdid.buf with hb | ⟨i, v, hi, -, hb⟩ <;> rw [hb]
    · exact h.buf
    · exact Memory.wf_store h.buf hi

/-- Every move keeps the invariant: chip-select and the outstanding exchange follow PHASE, and the payload index starts at
`NPAY - 1` and falls. -/
theorem Inv.move {u t : State} (h : Inv u) (hm : Moved u t) : Inv t := by
  have hcsn := h.csn
  have hpay := h.payload
  cases hm with
  | hold => exact h
  | accept i hp hadm =>
    obtain ⟨hbuf, hkey, hnone⟩ := plan_bounds hadm
    have hout := h.outstanding
    rw [hp] at hcsn hout
    exact ⟨by simpa [Phase.selected] using hcsn, by simpa [Phase.waiting] using hout, nofun, hbuf, hkey, hnone, h.ce, h.buf⟩
  | select hp | deselect hp | respond hp | settled hp =>
    have hout := h.outstanding
    rw [hp] at hcsn hout
    exact ⟨by simp_all [Phase.selected], by simpa [Phase.waiting] using hout, nofun, h.depth, h.key, h.empty, h.ce, h.buf⟩
  | opcTx hp | opcRxEmpty rx hp | opcRxError rx hp =>
    rw [hp] at hcsn
    exact ⟨by simpa [Phase.selected] using hcsn, by simp [Phase.waiting], nofun, h.depth, h.key, h.empty, h.ce, h.buf⟩
  | opcRxPayload rx hp hn =>
    rw [hp] at hcsn
    have hsrc : u.src ≠ .none := fun hs => by have := h.empty hs; omega
    exact ⟨by simpa [Phase.selected] using hcsn, by simp [Phase.waiting], fun _ => ⟨hsrc, hn, Nat.sub_one_lt_of_lt hn⟩,
      h.depth, h.key, h.empty, h.ce, h.buf⟩
  | payTx tx hp hb =>
    rw [hp] at hcsn hpay
    exact ⟨by simpa [Phase.selected] using hcsn, by simp [Phase.waiting], fun _ => hpay rfl, h.depth, h.key, h.empty, h.ce,
      h.buf⟩
  | payRxNext rx hp hi =>
    have hbuf := wf_bufAfter (rx := rx) h.buf (h.idx_lt (by simp [hp, Phase.payload]))
    rw [hp] at hcsn hpay
    obtain ⟨hsrc, hn, hidx⟩ := hpay rfl
    exact ⟨by simpa [Phase.selected] using hcsn, by simp [Phase.waiting], fun _ => ⟨hsrc, hn, by show u.idx - 1 < u.npay; omega⟩,
      h.depth, h.key, h.empty, h.ce, hbuf⟩
  | payRxLast rx hp hi =>
    have hbuf := wf_bufAfter (rx := rx) h.buf (h.idx_lt (by simp [hp, Phase.payload]))
    rw [hp] at hcsn
    exact ⟨by simpa [Phase.selected] using hcsn, by simp [Phase.waiting], nofun, h.depth, h.key, h.empty, h.ce, hbuf⟩
  | payRxError rx hp =>
    have hbuf := wf_bufAfter (rx := rx) h.buf (h.idx_lt (by simp [hp, Phase.payload]))
    rw [hp] at hcsn
    refine ⟨by simpa [Phase.selected] using hcsn, by simp [Phase.waiting], nofun, h.depth, h.key, h.empty, h.ce, ?_⟩
    show Memory.wf u.cfg.bufDepth (if u.cfg.storeOnError then bufAfter u rx else u.buf) = true
    split
    · exact hbuf
    · exact h.buf

/-- The invariant does not look at the agenda. -/
theorem Inv.withAgenda {s : State} (h : Inv s) (r : List EnvEvent) : Inv { s with agenda := r } :=
  ⟨h.csn, h.outstanding, h.payload, h.depth, h.key, h.empty, h.ce, h.buf⟩

/-- Settles O49: a RESET establishes the invariant (`Inv.takeReset`); the host (`Inv.host`) and every move keep it
(`Inv.move`). -/
theorem invariantKept : Obligations.InvariantKept := fun _ _ hs h =>
  step_keeps Inv (fun _ r hs => hs.withAgenda r) (fun _ _ => Inv.takeReset) (fun _ _ => Inv.host) (fun _ _ => Inv.move) hs h

end Sys2Proof.Machine

namespace Sys2Proof.Machine

/-- With the invariant PAY_TX sends the byte of its source (R105). -/
theorem Inv.payByte_eq {s : State} {tx : Byte} (h : Inv s) (hp : s.phase = .payTx) (hb : s.payByte = some tx) :
    tx = sentByte s s.src s.idx := by
  have hidx := h.idx_lt (by simp [hp, Phase.payload])
  exact Option.some.inj (hb.symm.trans (Machine.payByte_eq hidx))

/-! ## The wire protocol, R114, R118 and R201 -/

theorem watchAll_append (c : Config) (g : Stage) (os os' : List Obs) :
    watchAll c g (os ++ os') = (watchAll c g os).bind fun g' => watchAll c g' os' := by
  induction os generalizing g with
  | nil => rfl
  | cons o os ih =>
    simp only [List.cons_append, watchAll]
    cases watch c g o with
    | none => rfl
    | some g' => exact ih g'

/-- What the host reads changes nothing for the monitor (R40). -/
theorem watch_isHost {c : Config} {g : Stage} {o : Obs} (h : o.isHost = true) : watch c g o = some g := by
  cases o with
  | statusRead | bufRead | pipeAddr | rangeError => rfl
  | cmd | csn | xreq | xrsp | rsp | reset | settled => cases h

/-- The protocol goes on where the monitor takes the new events from the stage the registers tell to the stage the new
registers tell. -/
theorem OnProtocol.append {s t : State} {os : List Obs} (h : OnProtocol s) (hcfg : t.cfg = s.cfg)
    (htrace : t.trace = s.trace ++ os) (hwatch : watchAll s.cfg (stageOf s) os = some (stageOf t)) : OnProtocol t := by
  rw [OnProtocol, hcfg, htrace, watchAll_append, h]
  exact hwatch

/-- One event is one move of the monitor. -/
theorem OnProtocol.event {s t : State} {o : Obs} (h : OnProtocol s) (hcfg : t.cfg = s.cfg)
    (htrace : t.trace = s.trace ++ [o]) (hwatch : watch s.cfg (stageOf s) o = some (stageOf t)) : OnProtocol t :=
  h.append hcfg htrace (by simp [watchAll, hwatch])

/-- The stage does not change where the registers it is read off do not. -/
theorem stageOf_of_hostFrame {s t : State} (h : HostFrame s t) : stageOf t = stageOf s := by
  simp [stageOf, h.phase, h.opc, h.src, h.npay, h.idx, h.status, h.err]

/-- The three properties that keep the protocol up together. -/
structure Protocol (s : State) : Prop where
  inv : Inv s
  err : ErrOk s
  events : OnProtocol s

/-- A RESET raises chip-select at once where it is low, and by the invariant that is where a frame is open (R230). -/
theorem Protocol.takeReset {s : State} (h : Protocol s) : Protocol s.takeReset := by
  refine ⟨.takeReset, nofun, h.events.append rfl (List.append_assoc _ _ _) ?_⟩
  have hcsn := h.inv.csn
  cases hp : s.phase with
  | desel =>
    cases he : s.err <;>
      simp_all [Phase.selected, stageOf, watchAll, watch, Stage.onReset, Stage.onHigh]
  | _ => simp_all [Phase.selected, stageOf, watchAll, watch, Stage.onReset, Stage.onHigh]

theorem Protocol.host {u t : State} (h : Protocol u) (hdid : HostDid u t) : Protocol t := by
  have hframe := hdid.frame
  refine ⟨h.inv.host hdid, ?_, ?_⟩
  · have herr := h.err
    simpa only [ErrOk, hframe.phase, hframe.err] using herr
  · rcases hdid.trace with ht | ⟨o, ho, ht⟩
    · exact h.events.append hframe.cfg (os := []) (by simpa using ht) (by rw [stageOf_of_hostFrame hframe]; rfl)
    · exact h.events.event hframe.cfg ht (by rw [stageOf_of_hostFrame hframe]; exact watch_isHost ho)

/-- Every move adds one event, and the monitor takes it to where the registers then stand. -/
theorem Protocol.move {u t : State} (h : Protocol u) (hm : Moved u t) : Protocol t := by
  have hinv : Inv t := h.inv.move hm
  have herr := h.err
  have hpay := h.inv.payload
  cases hm with
  | hold => exact h
  | accept i hp hadm =>
    exact ⟨hinv, fun _ _ _ => rfl, h.events.event rfl rfl (by simp [stageOf, hp, watch, Stage.onCmd])⟩
  | select hp =>
    rw [ErrOk, hp] at herr
    refine ⟨hinv, fun _ _ _ => herr rfl nofun nofun, h.events.event rfl rfl ?_⟩
    simp [stageOf, hp, watch, Stage.onLow]
  | opcTx hp =>
    rw [ErrOk, hp] at herr
    refine ⟨hinv, fun _ _ _ => herr rfl nofun nofun, h.events.event rfl rfl ?_⟩
    simp [stageOf, hp, watch, Stage.onRequest]
  | opcRxPayload rx hp hn =>
    rw [ErrOk, hp] at herr
    refine ⟨hinv, fun _ _ _ => herr rfl nofun nofun, h.events.event rfl rfl ?_⟩
    have hfirst : u.npay - (u.npay - 1) = 1 := by omega
    simp [stageOf, hp, watch, Stage.onAnswer, hfirst]
  | opcRxEmpty rx hp hn =>
    rw [ErrOk, hp] at herr
    refine ⟨hinv, fun _ hne _ => absurd rfl hne, h.events.event rfl rfl ?_⟩
    simp [stageOf, hp, watch, Stage.onAnswer, hn, herr rfl nofun nofun]
  | opcRxError rx hp | payRxError rx hp =>
    refine ⟨hinv, fun _ hne _ => absurd rfl hne, h.events.event rfl rfl ?_⟩
    simp [stageOf, hp, watch, Stage.onAnswer]
  | payTx tx hp hb =>
    rw [ErrOk, hp] at herr
    refine ⟨hinv, fun _ _ _ => herr rfl nofun nofun, h.events.event rfl rfl ?_⟩
    have hkey : u.src = .key → tx = activateKey := fun hs => by
      rw [h.inv.payByte_eq hp hb, hs]; rfl
    have hcount : u.npay - u.idx ≤ u.npay := Nat.sub_le _ _
    simp only [stageOf, hp, watch, Stage.onRequest]
    exact if_pos ⟨hcount, hkey⟩
  | payRxNext rx hp hi =>
    rw [ErrOk, hp] at herr
    rw [hp] at hpay
    obtain ⟨-, -, hidx⟩ := hpay rfl
    refine ⟨hinv, fun _ _ _ => herr rfl nofun nofun, h.events.event rfl rfl ?_⟩
    have hcount : u.npay - u.idx + 1 = u.npay - (u.idx - 1) := by omega
    simp [stageOf, hp, watch, Stage.onAnswer, hcount]
  | payRxLast rx hp hi =>
    rw [ErrOk, hp] at herr
    refine ⟨hinv, fun _ hne _ => absurd rfl hne, h.events.event rfl rfl ?_⟩
    simp [stageOf, hp, watch, Stage.onAnswer, hi, herr rfl nofun nofun]
  | deselect hp =>
    refine ⟨hinv, fun _ _ hne => absurd rfl hne, h.events.event rfl rfl ?_⟩
    cases he : u.err <;> simp [stageOf, hp, watch, Stage.onHigh, he]
  | respond hp =>
    refine ⟨hinv, nofun, h.events.event rfl rfl ?_⟩
    cases he : u.err <;> simp [stageOf, hp, watch, Stage.onResult, he]
  | settled hp =>
    refine ⟨hinv, nofun, h.events.event rfl rfl ?_⟩
    simp [stageOf, hp, watch, Stage.onSettled]

/-- Settles O50: a RESET at any point and every move are moves of the monitor (`Protocol.takeReset`, `Protocol.move`), where
the invariant of R43 says that chip-select is low exactly in an open frame. -/
theorem wireProtocolKept : Obligations.WireProtocolKept := by
  intro s t hinv herr hevents h
  have ht : Protocol t := step_keeps Protocol (fun _ r hs => ⟨hs.inv.withAgenda r, hs.err, hs.events⟩)
    (fun _ => Protocol.takeReset) (fun _ _ => Protocol.host) (fun _ _ => Protocol.move) ⟨hinv, herr, hevents⟩ h
  exact ⟨ht.err, ht.events⟩

end Sys2Proof.Machine

namespace Sys2Proof.Machine

/-! ## The latest opcode answer, R61 (e) -/

theorem opcodeAnswer_append (os os' : List Obs) (a : Bool × Option Byte) :
    opcodeAnswer (os ++ os') a = opcodeAnswer os' (opcodeAnswer os a) := by
  fun_induction opcodeAnswer os a <;> simp_all [opcodeAnswer]

/-- What the host reads is no answer (R40). -/
theorem opcodeAnswer_isHost {o : Obs} (h : o.isHost = true) (a : Bool × Option Byte) : opcodeAnswer [o] a = a := by
  cases o with
  | statusRead | bufRead | pipeAddr | rangeError => simp [opcodeAnswer]
  | cmd | csn | xreq | xrsp | rsp | reset | settled => cases h

/-- The phases in which the answer to come, if any, is the one to an opcode byte. -/
def Phase.opcodeNext : Phase → Bool
  | .opcTx | .opcRx => true
  | .settle | .idle | .sel | .payTx | .payRx | .desel | .done => false

theorem Phase.opcodeNext_eq (p : Phase) : (p == .opcTx || p == .opcRx) = p.opcodeNext := by cases p <;> rfl

/-- STATUS stays current where the new events tell what the new STATUS and PHASE are. -/
theorem StatusCurrent.append {s t : State} {os : List Obs} (h : StatusCurrent s) (htrace : t.trace = s.trace ++ os)
    (hnew : ∀ l, (∀ b, l = some b → s.status = b) →
      (opcodeAnswer os (s.phase.opcodeNext, l)).1 = t.phase.opcodeNext ∧
      ∀ b, (opcodeAnswer os (s.phase.opcodeNext, l)).2 = some b → t.status = b) :
    StatusCurrent t := by
  obtain ⟨hopen, hlatest⟩ := h
  have happ : opcodeAnswer t.trace (false, none) = opcodeAnswer os (s.phase.opcodeNext, latestSnapshot s.trace) := by
    rw [htrace, opcodeAnswer_append, ← Phase.opcodeNext_eq, ← hopen]; rfl
  simpa only [StatusCurrent, latestSnapshot, Phase.opcodeNext_eq, happ] using hnew _ hlatest

theorem StatusCurrent.takeReset {s : State} (h : StatusCurrent s) : StatusCurrent s.takeReset := by
  refine h.append (List.append_assoc _ _ _) fun l _ => ?_
  cases s.csn <;> simp [opcodeAnswer, Phase.opcodeNext]

theorem StatusCurrent.host {u t : State} (h : StatusCurrent u) (hdid : HostDid u t) : StatusCurrent t := by
  have hframe := hdid.frame
  rcases hdid.trace with ht | ⟨o, ho, ht⟩
  · simpa only [StatusCurrent, ht, hframe.phase, hframe.status] using h
  · refine h.append ht fun l hl => ?_
    rw [opcodeAnswer_isHost ho, hframe.phase, hframe.status]
    exact ⟨rfl, hl⟩

/-- With `STORE_ON_ERROR` false STATUS is written where the answer to an opcode byte is read off the events, and nowhere
else. -/
theorem StatusCurrent.move {u t : State} (hstore : u.cfg.storeOnError = false) (h : StatusCurrent u) (hm : Moved u t) :
    StatusCurrent t := by
  cases hm with
  | hold => exact h
  | accept _ hp | select hp | opcTx hp | payTx _ hp | payRxNext _ hp | payRxLast _ hp | payRxError _ hp | deselect hp
    | respond hp | settled hp => exact h.append rfl fun l hl => by rw [hp]; exact ⟨rfl, hl⟩
  | opcRxPayload rx hp | opcRxEmpty rx hp =>
    exact h.append rfl fun l hl => by rw [hp]; exact ⟨rfl, fun b hb => Option.some.inj hb⟩
  | opcRxError rx hp =>
    refine h.append rfl fun l hl => ?_
    rw [hp, hstore]
    exact ⟨rfl, hl⟩

/-- Settles O52: a RESET forgets every answer, and every move reads or keeps the latest one (`StatusCurrent.move`). -/
theorem statusStaysCurrent : Obligations.StatusStaysCurrent := by
  intro s t hstore hs h
  exact (step_keeps (fun u => u.cfg.storeOnError = false ∧ StatusCurrent u) (fun _ _ hu => hu)
    (fun u hu => ⟨hu.1, hu.2.takeReset⟩) (fun u t hu hdid => ⟨hdid.frame.cfg ▸ hu.1, hu.2.host hdid⟩)
    (fun u t hu hm => ⟨hm.cfg ▸ hu.1, hu.2.move hu.1 hm⟩) ⟨hstore, hs⟩ h).2

/-! ## The order of the payload bytes, R52, R55 and R71 -/

theorem sentSinceCommand_append (os os' : List Obs) (bs : List Byte) :
    sentSinceCommand (os ++ os') bs = sentSinceCommand os' (sentSinceCommand os bs) := by
  fun_induction sentSinceCommand os bs <;> simp_all [sentSinceCommand]

theorem sentSinceCommand_isHost {o : Obs} (h : o.isHost = true) (bs : List Byte) : sentSinceCommand [o] bs = bs := by
  cases o with
  | statusRead | bufRead | pipeAddr | rangeError => simp [sentSinceCommand]
  | cmd | csn | xreq | xrsp | rsp | reset | settled => cases h

/-- The bytes sent do not change with an event that is neither a command nor a request. -/
theorem sentSinceCommand_quiet {o : Obs} (hcmd : ∀ i, o ≠ .cmd i) (hreq : ∀ tx, o ≠ .xreq tx) (bs : List Byte) :
    sentSinceCommand [o] bs = bs := by
  cases o with
  | cmd i => exact absurd rfl (hcmd i)
  | xreq tx => exact absurd rfl (hreq tx)
  | _ => rfl

/-- The byte after the first `k` on the wire, `k` at least 1 for the opcode byte: `BUF[NPAY - k]` as the host placed it, or
the key (R52, R77). -/
theorem State.frameBytes_getElem? {s : State} {k : Nat} (hplaced : s.src = .buf → s.host.copy.length = s.npay)
    (hkey : s.src = .key → s.npay = 1) (hsrc : s.src ≠ .none) (hk : 1 ≤ k) (hkn : k ≤ s.npay) :
    s.frameBytes[k]? = if s.src = .buf then s.host.copy[s.npay - k]? else some activateKey := by
  obtain ⟨m, rfl⟩ : ∃ m, k = m + 1 := ⟨k - 1, by omega⟩
  rw [State.frameBytes, List.getElem?_cons_succ]
  cases hs : s.src with
  | none => exact absurd hs hsrc
  | buf =>
    have hlen := hplaced hs
    have hidx : s.npay - 1 - m = s.npay - (m + 1) := by omega
    simp only [if_true]
    rw [List.getElem?_reverse (by omega), hlen, hidx]
  | key =>
    obtain rfl : m = 0 := by have := hkey hs; omega
    rfl

/-- An event that sends nothing leaves the bytes sent as they are. -/
theorem sentSinceCommand_append_quiet {os : List Obs} {o : Obs} {bs : List Byte} (h : sentSinceCommand os [] = bs)
    (hcmd : ∀ i, o ≠ .cmd i) (hreq : ∀ tx, o ≠ .xreq tx) : sentSinceCommand (os ++ [o]) [] = bs := by
  rw [sentSinceCommand_append, h, sentSinceCommand_quiet hcmd hreq]

/-- The cells after the store of a returned byte: `BUF[IDX]` where the payload is the buffer, and no other (R58). -/
theorem State.bufByte_withBufAfter (s : State) (rx : Byte) (j : Nat) :
    State.bufByte { s with buf := bufAfter s rx } j = if s.src = .buf ∧ j = s.idx then rx else s.bufByte j :=
  bufByte_bufAfter (t := { s with buf := bufAfter s rx }) rfl rfl j

theorem InOrder.takeReset {s : State} : InOrder s.takeReset := ⟨nofun, nofun, nofun⟩

/-- No act of the host reaches a cell of the payload of a command in progress: the engine owns them (R65; log 12). -/
theorem InOrder.host {u t : State} (h : InOrder u) (hdid : HostDid u t) : InOrder t := by
  have hframe := hdid.frame
  have hbytes : t.frameBytes = u.frameBytes := by
    simp only [State.frameBytes, hframe.opc, hframe.src, hdid.copy]
  have hsent : sentSinceCommand t.trace [] = sentSinceCommand u.trace [] := by
    rcases hdid.trace with ht | ⟨o, ho, ht⟩
    · rw [ht]
    · rw [ht, sentSinceCommand_append, sentSinceCommand_isHost ho]
  have hcell : u.phase.inFrame = true → u.src = .buf → ∀ j, j < u.npay → t.bufByte j = u.bufByte j := by
    intro hin hsrc j hj
    rcases hdid.buf with hb | ⟨i, v, -, ho, hb⟩
    · exact State.bufByte_congr (by rw [hb]) hframe.resets
    · have hji : j ≠ i := by
        rintro rfl
        simp [State.owns, hin, hsrc, hj] at ho
      exact State.bufByte_congr (by rw [hb, Memory.lookup_store_other _ _ hji]) hframe.resets
  constructor
  · rw [hframe.phase, hframe.src, hframe.npay, hdid.copy]; exact h.placed
  · rw [hframe.phase, hframe.src, hframe.npay, hframe.idx, hdid.copy]
    intro hin hdesel hdone hsrc j hj hpay
    rw [hcell hin hsrc j hj]
    exact h.unsent hin hdesel hdone hsrc j hj hpay
  · rw [hframe.phase, hframe.npay, hframe.idx, hframe.err, hsent, hbytes]; exact h.sent

theorem InOrder.accept {u : State} (i : Instr) : InOrder (accept i u) := by
  refine ⟨fun _ hs => ?_, fun _ _ _ hs j hj _ => ?_, fun _ => ⟨0, Nat.zero_le _, ?_, by simp⟩⟩
  · have hs' : (plan i).1 = .buf := hs
    simp [hs', State.placed, State.bufPrefix]
  · have hs' : (plan i).1 = .buf := hs
    have hj' : j < (plan i).2 := hj
    simp [hs', State.placed, State.bufPrefix, hj']
    rfl
  · rw [accept_trace, sentSinceCommand_append]; rfl

/-- OPC_TX and PAY_TX send the next byte of the frame; `k + IDX` says where the payload loop stands. -/
theorem InOrder.move {u t : State} (hinv : Inv u) (h : InOrder u) (hm : Moved u t) : InOrder t := by
  obtain ⟨hplaced, hunsent, hsent⟩ := h
  cases hm with
  | hold => exact ⟨hplaced, hunsent, hsent⟩
  | accept i => exact .accept i
  | respond | settled => exact ⟨nofun, nofun, nofun⟩
  | select hp =>
    rw [hp] at hplaced hunsent hsent
    obtain ⟨k, hk, hbytes, hsel, -⟩ := hsent rfl
    refine ⟨fun _ => hplaced rfl, fun _ _ _ hs j hj _ => hunsent rfl nofun nofun hs j hj nofun, fun _ => ⟨k, hk, ?_, ?_⟩⟩
    · exact sentSinceCommand_append_quiet hbytes nofun nofun
    · simp [hsel (.inl rfl)]
  | opcTx hp =>
    rw [hp] at hplaced hunsent hsent
    obtain ⟨k, hk, hbytes, hsel, -⟩ := hsent rfl
    obtain rfl := hsel (.inr rfl)
    refine ⟨fun _ => hplaced rfl, fun _ _ _ hs j hj _ => hunsent rfl nofun nofun hs j hj nofun,
      fun _ => ⟨1, by omega, ?_, by simp⟩⟩
    simp only [sentSinceCommand_append, hbytes]
    rfl
  | opcRxPayload rx hp hn =>
    rw [hp] at hplaced hunsent hsent
    obtain ⟨k, hk, hbytes, -, hopc, -⟩ := hsent rfl
    obtain rfl := hopc rfl
    refine ⟨fun _ => hplaced rfl, fun _ _ _ hs j hj _ => hunsent rfl nofun nofun hs j hj nofun,
      fun _ => ⟨1, hk, sentSinceCommand_append_quiet hbytes nofun nofun, ?_⟩⟩
    have : 1 + (u.npay - 1) = u.npay := by omega
    simpa using this
  | opcRxEmpty rx hp hn =>
    rw [hp] at hplaced hsent
    obtain ⟨k, hk, hbytes, -, hopc, -⟩ := hsent rfl
    obtain rfl := hopc rfl
    refine ⟨fun _ => hplaced rfl, fun _ hne => absurd rfl hne,
      fun _ => ⟨1, hk, sentSinceCommand_append_quiet hbytes nofun nofun, ?_⟩⟩
    simp [hn]
  | opcRxError rx hp | payRxError rx hp =>
    rw [hp] at hplaced hsent
    obtain ⟨k, hk, hbytes, -⟩ := hsent rfl
    exact ⟨fun _ => hplaced rfl, fun _ hne => absurd rfl hne,
      fun _ => ⟨k, hk, sentSinceCommand_append_quiet hbytes nofun nofun, by simp⟩⟩
  | payTx tx hp hb =>
    have hpay := hinv.payload (by rw [hp]; rfl)
    obtain ⟨hsrc, -, hidx⟩ := hpay
    have htx := hinv.payByte_eq hp hb
    rw [hp] at hplaced hunsent hsent
    obtain ⟨k, hk, hbytes, -, -, hptx, -⟩ := hsent rfl
    have hplace := hptx rfl
    refine ⟨fun _ => hplaced rfl, fun _ _ _ hs j hj hji => hunsent rfl nofun nofun hs j hj hji,
      fun _ => ⟨k + 1, by show k + 1 ≤ u.npay + 1; omega, ?_, ?_⟩⟩
    · have hnext : u.frameBytes[k]? = some tx := by
        rw [u.frameBytes_getElem? (hplaced rfl) hinv.key hsrc (by omega) (by omega), htx]
        split
        · next hs =>
          rw [show u.npay - k = u.idx by omega, hunsent rfl nofun nofun hs _ hidx (fun _ => le_rfl), hs]; rfl
        · next hs => cases hs' : u.src <;> simp_all [sentByte]
      simp only [sentSinceCommand_append, hbytes]
      show sentSinceCommand [.xreq tx] _ = List.take (k + 1) u.frameBytes
      rw [List.take_add_one, hnext]; rfl
    · have : k + 1 + u.idx = u.npay + 1 := by omega
      simpa using this
  | payRxNext rx hp hi =>
    rw [hp] at hplaced hunsent hsent
    obtain ⟨k, hk, hbytes, -, -, -, hprx, -⟩ := hsent rfl
    have hplace := hprx rfl
    refine ⟨fun _ => hplaced rfl, fun _ _ _ hs j hj hji => ?_,
      fun _ => ⟨k, hk, sentSinceCommand_append_quiet hbytes nofun nofun, ?_⟩⟩
    · have hlt : j ≤ u.idx - 1 := hji rfl
      have hcell : State.bufByte { u with buf := bufAfter u rx } j = u.bufByte j :=
        (u.bufByte_withBufAfter rx j).trans (if_neg (by omega))
      exact (hunsent rfl nofun nofun hs j hj (fun _ => by omega)).trans (congrArg some hcell.symm)
    · have : k + (u.idx - 1) = u.npay := by omega
      simpa using this
  | payRxLast rx hp hi =>
    rw [hp] at hplaced hsent
    obtain ⟨k, hk, hbytes, -, -, -, hprx, -⟩ := hsent rfl
    have hplace := hprx rfl
    refine ⟨fun _ => hplaced rfl, fun _ hne => absurd rfl hne,
      fun _ => ⟨k, hk, sentSinceCommand_append_quiet hbytes nofun nofun, ?_⟩⟩
    have : k = u.npay + 1 := by omega
    simp [this]
  | deselect hp =>
    rw [hp] at hplaced hsent
    obtain ⟨k, hk, hbytes, -, -, -, -, hend⟩ := hsent rfl
    exact ⟨fun _ => hplaced rfl, fun _ _ hne => absurd rfl hne,
      fun _ => ⟨k, hk, sentSinceCommand_append_quiet hbytes nofun nofun, by simpa using hend⟩⟩

/-- Settles O51: ACCEPT starts an empty frame with the host's bytes kept (`InOrder.accept`), the two sending steps send the
next byte of it, and no other move sends one or touches a cell that is not out yet (`InOrder.move`). -/
theorem payloadOrderKept : Obligations.PayloadOrderKept := by
  intro s t hinv hs h
  have agenda : ∀ s r, Inv s ∧ InOrder s → Inv { s with agenda := r } ∧ InOrder { s with agenda := r } :=
    fun s r ⟨hinv, hs⟩ => ⟨hinv.withAgenda r, hs.placed, hs.unsent, hs.sent⟩
  exact (step_keeps (fun u => Inv u ∧ InOrder u) agenda (fun _ _ => ⟨.takeReset, .takeReset⟩)
    (fun _ _ ⟨hinv, hu⟩ hdid => ⟨hinv.host hdid, hu.host hdid⟩)
    (fun _ _ ⟨hinv, hu⟩ hm => ⟨hinv.move hm, hu.move hinv hm⟩) ⟨hinv, hs⟩ h).2

end Sys2Proof.Machine

namespace Sys2Proof.Machine

/-! ## The widths of the companion data, R176 and R177 -/

theorem RegDesc.result_wellFormed {c : Config} {op : Op} {opc : Byte} {e : Bool} {l p : List Byte} {r : RegDesc}
    (h : r.WellFormed = true) : (r.result c op opc e l p).WellFormed = true := by
  simpa only [RegDesc.WellFormed, RegDesc.result_length] using h

/-- Only the host sets a pipe address, to `N_ADDR` bytes. -/
theorem PipesOk.move {u t : State} (h : PipesOk u) (hm : Moved u t) : PipesOk t := by cases hm <;> exact h

/-- A descriptor is made with 1 to 5 bytes. -/
theorem RegsOk.host {u t : State} (h : RegsOk u) (hdid : HostDid u t) : RegsOk t := by
  rcases hdid.regs with hr | ⟨new, hnew, hr⟩ <;> intro d hd <;> rw [hr] at hd
  · exact h d hd
  · rcases List.mem_append.mp hd with hd | hd
    · exact h d hd
    · exact List.mem_singleton.mp hd ▸ hnew

/-- A result keeps the width of a descriptor. -/
theorem RegsOk.move {u t : State} (h : RegsOk u) (hm : Moved u t) : RegsOk t := by
  cases hm with
  | respond hp =>
    intro d hd
    obtain ⟨old, hold, rfl⟩ := List.mem_map.mp hd
    exact RegDesc.result_wellFormed (h old hold)
  | _ => exact h

/-- Settles O53: a RESET sets both as initialisation does; the host and every move keep them (`PipesOk.move`, `RegsOk.host`,
`RegsOk.move`). -/
theorem pipeWidthsKept : Obligations.PipeWidthsKept := by
  intro s t h
  constructor
  · intro hs
    refine step_keeps PipesOk (fun _ _ hs => hs) (fun u _ => ?_) (fun _ _ hs hdid => hdid.pipes hs) (fun _ _ => PipesOk.move)
      hs h
    simp [PipesOk, HostData.initial]
  · intro hs
    exact step_keeps RegsOk (fun _ _ hs => hs) (fun u _ => nofun) (fun _ _ => RegsOk.host) (fun _ _ => RegsOk.move) hs h

/-! ## Who writes what, over all atomic steps -/

/-- The engine moves from the state as it is, but for the agenda. -/
theorem Yields.withAgenda {s u : State} (h : Yields s u) : ∃ r, u = { s with agenda := r } := by
  obtain rfl | ⟨r, -, rfl⟩ := h
  · exact ⟨u.agenda, rfl⟩
  · exact ⟨r, rfl⟩

/-- SETTLED changes PHASE and the events only. -/
theorem settled_eq (us : Nat) (s : State) :
    settled us s = { s with phase := (settled us s).phase, trace := (settled us s).trace } := by
  unfold settled
  split <;> rfl

/-- Settles O44: of the steps that are not a RESET only OPC_RX writes STATUS, and on a failed answer only with
`STORE_ON_ERROR`. -/
theorem statusWrittenByOpcodeAnswerOnly : Obligations.StatusWrittenByOpcodeAnswerOnly := by
  intro s t h hstore hne
  cases tick_cases h with
  | reset r ha => exact .inl ⟨r, ha⟩
  | opcRx rx e r ha hp =>
    cases e with
    | false => rw [opcRx_success]; exact .inr ⟨hp, r, ha⟩
    | true => rw [opcRx_failure] at hne; simp [hstore] at hne
  | payRx rx e r t ha hp ht => rw [payRx_eq_next ht] at hne; exact absurd rfl hne
  | settled us r => rw [settled_eq] at hne; exact absurd rfl hne
  | host a r t _ _ hdid => exact absurd hdid.frame.status hne
  | drop => exact absurd rfl hne
  | hold u hy | accept _ _ u hy | select u hy | opcTx u hy | payTx u _ hy | deselect u hy | respond u hy =>
    obtain ⟨r, rfl⟩ := hy.withAgenda
    exact absurd rfl hne

/-- The host writes a cell by naming it and its byte, or by encoding into the byte it has read from it, or from a shadow
into cell 0 (R41, R178); it does not own the cell then. -/
theorem hostStep_bufByte {a : HostAct} {s t : State} {j : Nat} (h : hostStep a s = .next t)
    (hne : t.bufByte j ≠ s.bufByte j) :
    s.owns j = false ∧ (a = .writeBuf j (t.bufByte j) ∨
      (∃ f l, a = .encodeBuf j f l ∧ f.encode (s.bufByte j) l = .ok (t.bufByte j)) ∨
      (j = 0 ∧ ∃ k f l d cur, a = .encodeReg k f l ∧ s.host.regs[k]? = some d ∧ d.raw.head? = some cur ∧
        f.encode cur l = .ok (t.bufByte j))) := by
  have written : ∀ {i : Nat} {v : Byte}, t = { s with buf := Memory.store s.buf i v } → j = i ∧ t.bufByte j = v := by
    rintro i v rfl
    rw [State.bufByte_store] at hne ⊢
    split at hne
    · next hji => simp [hji]
    · exact absurd rfl hne
  have encoded : ∀ {i : Nat} {f : Field} {cur : Byte} {l : Nat}, hostEncode i f cur l s = .next t →
      j = i ∧ s.owns i = false ∧ f.encode cur l = .ok (t.bufByte j) := by
    intro i f cur l h
    obtain ⟨-, ⟨-, rfl⟩ | ⟨b, hb, -, ho, ht⟩⟩ := hostEncode_eq_next h
    · exact absurd rfl hne
    · obtain ⟨rfl, hv⟩ := written ht
      exact ⟨rfl, ho, hv ▸ hb⟩
  cases a with
  | writeBuf i v =>
    obtain ⟨-, ho, ht⟩ := hostBuf_eq_next h
    cases ht
    obtain ⟨rfl, hv⟩ := written rfl
    exact ⟨ho, .inl (by rw [hv])⟩
  | encodeBuf i f l =>
    obtain ⟨rfl, ho, henc⟩ := encoded (hostBuf_eq_next h).2.2
    exact ⟨ho, .inr (.inl ⟨f, l, rfl, henc⟩)⟩
  | encodeReg k f l =>
    simp only [hostStep] at h
    split at h
    · next addr cur rest hd =>
      obtain ⟨rfl, ho, henc⟩ := encoded h
      exact ⟨ho, .inr (.inr ⟨rfl, k, f, l, _, cur, rfl, hd, rfl, henc⟩)⟩
    · cases h; exact absurd rfl hne
  | readBuf i =>
    obtain ⟨-, -, ht⟩ := hostBuf_eq_next h
    cases ht; exact absurd rfl hne
  | setFull | newReg =>
    simp only [hostStep] at h
    split at h <;> cases h
    exact absurd rfl hne
  | offer | readStatus | setOwn | getFull | getPartial => cases h; exact absurd rfl hne

/-- PAY_RX writes the one cell of its index, and there the byte returned (R58, R106). -/
theorem payRx_bufByte {s t : State} {rx : Byte} {e : Bool} {j : Nat} (h : payRx rx e s = .next t)
    (hne : t.bufByte j ≠ s.bufByte j) : j = s.idx ∧ s.src = .buf ∧ t.bufByte j = rx := by
  have ht := payRx_eq_next h
  have hresets : t.resets = s.resets := by rw [ht]
  cases hkept : e && !s.cfg.storeOnError with
  | true =>
    have hbuf : t.buf = s.buf := by rw [ht, hkept]; rfl
    exact absurd (State.bufByte_congr (by rw [hbuf]) hresets) hne
  | false =>
    have hbuf : t.buf = bufAfter s rx := by rw [ht, hkept]; rfl
    rw [bufByte_bufAfter hbuf hresets] at hne ⊢
    split at hne
    · next hc => exact ⟨hc.2, hc.1, if_pos hc⟩
    · exact absurd rfl hne

/-- Settles O45: a cell changes by a RESET, by PAY_RX at its index (`bufByte_bufAfter`), or by an act of the host that writes
it (`hostStep_bufByte`). -/
theorem bufWrittenInPlaceOnly : Obligations.BufWrittenInPlaceOnly := by
  intro s t j h hne
  cases tick_cases h with
  | reset r ha => exact .inl ⟨r, ha⟩
  | payRx rx e r t ha hp ht =>
    obtain ⟨rfl, hcell⟩ := payRx_bufByte ht hne
    exact .inr (.inl ⟨hp, hcell.1, rfl, rx, e, r, ha, hcell.2⟩)
  | host a r t hturn hact _ =>
    obtain ⟨ho, hact⟩ := hostStep_bufByte hact hne
    exact .inr (.inr ⟨ho, a, r, hturn, hact⟩)
  | opcRx rx e r ha hp =>
    cases e with
    | false => rw [opcRx_success] at hne; exact absurd rfl hne
    | true => rw [opcRx_failure] at hne; exact absurd rfl hne
  | settled us r => rw [settled_eq] at hne; exact absurd rfl hne
  | drop => exact absurd rfl hne
  | hold u hy | accept _ _ u hy | select u hy | opcTx u hy | payTx u _ hy | deselect u hy | respond u hy =>
    obtain ⟨r, rfl⟩ := hy.withAgenda
    exact absurd rfl hne

/-- Settles O46: of the steps that are not a RESET only ACCEPT writes the latch; ERR is cleared there and set by a failed
answer. -/
theorem latchAndErrorWriters : Obligations.LatchAndErrorWriters := by
  intro s t h
  cases tick_cases h with
  | reset r ha => exact ⟨fun _ => .inl ⟨r, ha⟩, fun _ => .inl ⟨rfl, r, ha⟩⟩
  | accept i d u hy hp hd hi hadm =>
    obtain ⟨r, rfl⟩ := hy.withAgenda
    exact ⟨fun _ => .inr ⟨hp, rfl, d, i, hd, hi, hadm, rfl, rfl, rfl⟩, fun _ => .inr (.inl ⟨rfl, hp, rfl⟩)⟩
  | opcRx rx e r ha hp =>
    cases e with
    | false => rw [opcRx_success]; exact ⟨fun hne => absurd rfl hne, fun hne => absurd rfl hne⟩
    | true =>
      rw [opcRx_failure]
      exact ⟨fun hne => absurd rfl hne, fun _ => .inr (.inr ⟨rfl, by rw [hp]; rfl, rx, r, ha⟩)⟩
  | payRx rx e r t ha hp ht =>
    rw [payRx_eq_next ht]
    refine ⟨fun hne => absurd rfl hne, fun hne => ?_⟩
    cases e with
    | false => simp at hne
    | true => exact .inr (.inr ⟨by simp, by rw [hp]; rfl, rx, r, ha⟩)
  | host a r t _ _ hdid =>
    obtain ⟨-, -, -, -, -, -, hop, hopc, hnpay, hsrc, herr, -, -, -, -⟩ := hdid.frame
    exact ⟨fun hne => absurd (by rw [hop, hopc, hnpay, hsrc]) hne, fun hne => absurd herr hne⟩
  | settled us r => rw [settled_eq]; exact ⟨fun hne => absurd rfl hne, fun hne => absurd rfl hne⟩
  | drop => exact ⟨fun hne => absurd rfl hne, fun hne => absurd rfl hne⟩
  | hold u hy | select u hy | opcTx u hy | payTx u _ hy | deselect u hy | respond u hy =>
    obtain ⟨r, rfl⟩ := hy.withAgenda
    exact ⟨fun hne => absurd rfl hne, fun hne => absurd rfl hne⟩

/-- A move keeps a descriptor; RESPOND alone may change its shadow. -/
theorem Moved.reg {u t : State} {k : Nat} {d : RegDesc} (hm : Moved u t) (hd : u.host.regs[k]? = some d) :
    t.host.regs[k]? = some d ∨
      u.phase = .done ∧ t.phase = .idle ∧
        t.host.regs[k]? = some (d.result u.cfg u.op u.opc u.err (u.bufPrefix u.npay) u.host.copy) := by
  cases hm with
  | respond hp => exact .inr ⟨hp, rfl, by simp [State.noteResult, hd]⟩
  | _ => exact .inl hd

/-- The host only adds descriptors. -/
theorem HostDid.reg {u t : State} {k : Nat} {d : RegDesc} (hdid : HostDid u t) (hd : u.host.regs[k]? = some d) :
    t.host.regs[k]? = some d := by
  rcases hdid.regs with hr | ⟨new, -, hr⟩ <;> rw [hr]
  · exact hd
  · rw [List.getElem?_append_left (List.getElem?_eq_some_iff.mp hd).1, hd]

/-- Settles O60: only RESPOND maps the descriptors (`Moved.reg`), and what it can make of one is said by
`RegDesc.result_changed`. -/
theorem shadowChangesWithResultOnly : Obligations.ShadowChangesWithResultOnly := by
  intro s t k d h hd
  obtain ⟨r, -, hm | ⟨a, -, hdid⟩ | ⟨ha, -⟩⟩ := moved_of_tick h
  · rcases hm.reg hd with hsame | ⟨hp, hidle, hres⟩
    · exact .inr ⟨d, hsame, rfl, rfl, fun hne => absurd rfl hne⟩
    · refine .inr ⟨_, hres, RegDesc.result_addr .., RegDesc.result_length .., fun hne => ?_⟩
      obtain ⟨herr, hcase⟩ := RegDesc.result_changed hne
      exact ⟨hp, hidle, herr, hcase⟩
  · exact .inr ⟨d, hdid.reg hd, rfl, rfl, fun hne => absurd rfl hne⟩
  · exact .inl ⟨r, ha⟩

/-- Settles O28: each kind of step is a line of the table, or leaves PHASE as it is. -/
theorem onlyTableTransitions : Obligations.OnlyTableTransitions := by
  intro s t h
  cases tick_cases h with
  | reset r ha => exact .inr (.reset _ r ha)
  | hold u hy => exact .inl hy.phase
  | drop => exact .inl rfl
  | host a r t _ _ hdid => exact .inl hdid.frame.phase
  | accept i d u hy hp hd hi hadm => rw [hp]; exact .inr (.accept d i hd hi hadm)
  | select u hy hp => rw [hp]; exact .inr .select
  | opcTx u hy hp => rw [hp]; exact .inr .opcTx
  | payTx u tx hy hp => rw [hp]; exact .inr .payTx
  | deselect u hy hp => rw [hp]; exact .inr .deselect
  | respond u hy hp => rw [hp]; exact .inr .respond
  | settled us r ha =>
    unfold settled
    split
    · next hc =>
      obtain ⟨hp, hus⟩ := hc
      rw [show s.phase = .settle from hp]
      exact .inr (.settled us r ha hus)
    · exact .inl rfl
  | opcRx rx e r ha hp =>
    rw [hp]
    cases e with
    | true => rw [opcRx_failure]; exact .inr (.opcRxError rx r ha)
    | false =>
      rw [opcRx_success]
      by_cases hn : 1 ≤ s.npay
      · simp only [if_pos hn]; exact .inr (.opcRxPayload rx r ha hn)
      · simp only [if_neg hn]; exact .inr (.opcRxEmpty rx r ha (by omega))
  | payRx rx e r t ha hp ht =>
    rw [hp, payRx_eq_next ht]
    cases e with
    | true => simpa using Transition.payRxError rx r ha
    | false =>
      by_cases hi : s.idx = 0
      · simpa [hi] using Transition.payRxLast rx r ha hi
      · simpa [hi] using Transition.payRxNext rx r ha (by omega)

/-- Of the acts of the host only an offer touches the command port. -/
theorem hostStep_cmd {a : HostAct} {s t : State} (h : hostStep a s = .next t) (ha : ∀ d, a ≠ .offer d) :
    t.cmd = s.cmd := by
  cases a with
  | offer d => exact absurd rfl (ha d)
  | writeBuf | readBuf =>
    obtain ⟨-, -, ht⟩ := hostBuf_eq_next h
    cases ht; rfl
  | encodeBuf =>
    obtain ⟨-, ⟨-, rfl⟩ | ⟨b, -, -, -, rfl⟩⟩ := hostEncode_eq_next (hostBuf_eq_next h).2.2 <;> rfl
  | encodeReg =>
    simp only [hostStep] at h
    split at h
    · obtain ⟨-, ⟨-, rfl⟩ | ⟨b, -, -, -, rfl⟩⟩ := hostEncode_eq_next h <;> rfl
    · cases h; rfl
  | setFull | newReg =>
    simp only [hostStep] at h
    split at h <;> cases h
    rfl
  | readStatus | setOwn | getFull | getPartial => cases h; rfl

/-- Settles O18: ACCEPT consumes a message in IDLE only, a RESET keeps it, and of the host's acts only an offer writes the
port (`hostStep_cmd`). -/
theorem offeredMessageKeptWhileBusy : Obligations.OfferedMessageKeptWhileBusy := by
  intro s t hbusy hoffer h
  rw [step_eq_tick hbusy] at h
  cases tick_cases h with
  | accept i d u hy hp => exact absurd hp hbusy
  | reset r ha => rfl
  | drop => rfl
  | settled us r => rw [settled_eq]
  | opcRx rx e r => cases e <;> simp [opcRx_success, opcRx_failure]
  | payRx rx e r t ha hp ht => rw [payRx_eq_next ht]
  | host a r t hturn hact _ =>
    have hnot : ∀ d, a ≠ .offer d := by
      rintro d rfl
      rcases hturn with ha | ⟨ha, -⟩
      · exact (hoffer d r).2 ha
      · exact (hoffer d r).1 ha
    exact (hostStep_cmd hact hnot :)
  | hold u hy | select u hy | opcTx u hy | payTx u _ hy | deselect u hy | respond u hy =>
    obtain ⟨r, rfl⟩ := hy.withAgenda
    rfl

/-- An engine that waits for an answer holds where nothing is to come (R115). -/
theorem step_waiting_silent {s : State} (hp : s.phase = .opcRx ∨ s.phase = .payRx) (ha : s.agenda = []) :
    step s = .next s := by
  have hnone : engineTurn s = none := by rcases hp with hp | hp <;> simp [engineTurn, hp]
  simp [step, turn, ha, engineMove, hnone]

/-- Settles O27: one step leaves the waiting engine as it is (`step_waiting_silent`), so any number does. -/
theorem hangHoldsForever : Obligations.HangHoldsForever := by
  intro s n hp ha
  induction n with
  | zero => rfl
  | succ n ih =>
    have hstep : core.step s = .next s := step_waiting_silent hp ha
    simp only [Host.Core.run, hstep]
    exact ih

end Sys2Proof.Machine

namespace Sys2Proof.Machine

/-! ## One command against the pump, R100, R111 to R113 and R115 -/

/-- What a command leaves that XPORT answers as the pump `p` was answered: the end of its frame, with the events of `p`
between the two edges, or the wait for the answer that does not come; and in both cases the bytes `p` has stored. -/
structure PumpsAs (s t : State) (i : Instr) (p : Pumped) (rest : List EnvEvent) : Prop where
  ended : p.ended = true → ∃ events, p.events = .csn .low :: events ++ [.csn .high, .rsp p.status p.err] ∧
    endsAs s t i (i.opcode s.cfg) (plan i).1 (plan i).2 p.status p.err events (answers p.left ++ rest)
  hung : p.ended = false → t.phase.waiting = true ∧ t.csn = .low ∧ t.xreq.isSome = true ∧ t.rsp = s.rsp ∧
    t.status = p.status ∧ t.err = p.err ∧ t.agenda = answers p.left ++ rest ∧ t.trace = s.trace ++ .cmd i :: p.events
  buf : (plan i).1 = .buf → ∀ j, t.bufByte j = (p.stored.lookup j).getD (s.bufByte j)
  other : (plan i).1 ≠ .buf → t.buf = s.buf

/-- The pump from its successful opcode exchange on, `p` its payload loop (R100). -/
def pumpAfterOpcode (opc rx : Byte) (p : Pumped) : Pumped :=
  { p with events := [.csn .low, .xreq opc, .xrsp rx false] ++ p.events ++
      (if p.ended then [.csn .high, .rsp p.status p.err] else []) }

/-- The state in which the opcode byte of an accepted command is out (R101 to R103). -/
def opened (i : Instr) (s : State) : State :=
  { s with
    op := i.op, opc := i.opcode s.cfg, src := (plan i).1, npay := (plan i).2, err := false, cmd := none, csn := .low,
    xreq := some (i.opcode s.cfg), phase := .opcRx, host := { s.host with copy := s.placed (plan i).1 (plan i).2 },
    trace := s.trace ++ [.cmd i, .csn .low, .xreq (i.opcode s.cfg)] }

section
variable {i : Instr} {s : State} {rest : List EnvEvent}

theorem runCommand_opened (hp : s.phase = .idle) (hadm : admitted s.cfg i = true) (hc : calm s.agenda = true) :
    runCommand i s = runFrame (s.agenda.length + 2 * (plan i).2 + 3) (opened i s) :=
  runCommand_start hp hadm hc

/-- XPORT never answers the opcode exchange: the engine waits (R115). -/
theorem runCommand_unanswered (hp : s.phase = .idle) (hadm : admitted s.cfg i = true) (hr : silent rest = true)
    (ha : s.agenda = rest) :
    ∃ t, runCommand i s = .next t ∧
      PumpsAs s t i (pump (i.opcode s.cfg) (sentByte s (plan i).1) (plan i).2 s.status []) rest := by
  subst ha
  have hstalled : (opened i s).stalled = true := by simp [State.stalled, opened, Phase.waiting, hr]
  refine ⟨opened i s, ?_, nofun, fun _ => ⟨rfl, rfl, rfl, rfl, rfl, rfl, rfl, rfl⟩, fun _ _ => rfl, fun _ => rfl⟩
  rw [runCommand_opened hp hadm (calm_of_silent hr), runFrame_stop (.inr hstalled)]

/-- DESELECT and RESPOND end the frame of an opened command, on every path (R107, R108). -/
theorem runFrame_endsAs {k : Nat} {v : State} {st : Byte} {e : Bool} {events : List Obs}
    (hv : v = { opened i s with
      status := st, err := e, xreq := none, phase := .desel, idx := v.idx, buf := v.buf, agenda := rest,
      trace := s.trace ++ [.cmd i, .csn .low] ++ events })
    (hc : calm rest = true) :
    ∃ t, runFrame (k + 2) v = .next t ∧ t.buf = v.buf ∧ t.resets = s.resets ∧
      endsAs s t i (i.opcode s.cfg) (plan i).1 (plan i).2 st e events rest := by
  generalize v.idx = idx at hv
  generalize v.buf = buf at hv ⊢
  subst hv
  refine ⟨_, runFrame_close rfl hc, rfl, rfl, ?_⟩
  simp only [endsAs, opened, List.append_assoc]
  rfl

/-- The opcode exchange fails: chip-select is released and the error reported (R112). -/
theorem runCommand_opcode_fails {rx : Byte} {as : List (Byte × Bool)} (hp : s.phase = .idle)
    (hadm : admitted s.cfg i = true) (hc : calm rest = true) (hstore : s.cfg.storeOnError = false)
    (ha : s.agenda = answers ((rx, true) :: as) ++ rest) :
    ∃ t, runCommand i s = .next t ∧ t.buf = s.buf ∧
      PumpsAs s t i (pump (i.opcode s.cfg) (sentByte s (plan i).1) (plan i).2 s.status ((rx, true) :: as)) rest := by
  have ha' : s.agenda = .xrsp rx true :: (answers as ++ rest) := ha
  have hopen := (runCommand_opened hp hadm (by rw [ha']; rfl)).trans (runFrame_opcRx_failure (s := opened i s) rfl ha')
  rw [show (opened i s).cfg.storeOnError = false from hstore] at hopen
  obtain ⟨t, hclose, hbuf, hresets, hends⟩ := runFrame_endsAs (i := i) (s := s) (st := s.status) (e := true)
    (rest := answers as ++ rest) (events := [.xreq (i.opcode s.cfg), .xrsp rx true])
    (k := s.agenda.length + 2 * (plan i).2) (v := { opened i s with
      status := s.status, xreq := none, agenda := answers as ++ rest, trace := (opened i s).trace ++ [.xrsp rx true],
      err := true, phase := .desel }) (by simp [opened]) (calm_answers hc)
  exact ⟨t, hopen.trans hclose, hbuf, fun _ => ⟨_, rfl, hends⟩, nofun,
    fun _ j => State.bufByte_congr (by rw [hbuf]; rfl) hresets, fun _ => hbuf⟩

/-- The opcode exchange succeeds and there is no payload (R116). -/
theorem runCommand_no_payload {rx : Byte} {as : List (Byte × Bool)} (hp : s.phase = .idle)
    (hadm : admitted s.cfg i = true) (hc : calm rest = true) (hn : (plan i).2 = 0)
    (ha : s.agenda = answers ((rx, false) :: as) ++ rest) :
    ∃ t, runCommand i s = .next t ∧ t.buf = s.buf ∧
      PumpsAs s t i (pump (i.opcode s.cfg) (sentByte s (plan i).1) (plan i).2 s.status ((rx, false) :: as)) rest := by
  have ha' : s.agenda = .xrsp rx false :: (answers as ++ rest) := ha
  have hopen := (runCommand_opened hp hadm (by rw [ha']; rfl)).trans (runFrame_opcRx_success (s := opened i s) rfl ha')
  have hnpay : ¬ 1 ≤ (opened i s).npay := by simp [opened, hn]
  simp only [if_neg hnpay] at hopen
  obtain ⟨t, hclose, hbuf, hresets, hends⟩ := runFrame_endsAs (i := i) (s := s) (st := rx) (e := false)
    (rest := answers as ++ rest) (events := [.xreq (i.opcode s.cfg), .xrsp rx false])
    (k := s.agenda.length + 2 * (plan i).2) (v := { opened i s with
      status := rx, xreq := none, agenda := answers as ++ rest, trace := (opened i s).trace ++ [.xrsp rx false],
      phase := .desel }) (by simp [opened]) (calm_answers hc)
  have hpump : pump (i.opcode s.cfg) (sentByte s (plan i).1) (plan i).2 s.status ((rx, false) :: as) =
      { events := [.csn .low, .xreq (i.opcode s.cfg), .xrsp rx false, .csn .high, .rsp rx false], stored := [],
        status := rx, err := false, ended := true, left := as } := by
    simp [pump, pumpLoop, hn]
  rw [hpump]
  exact ⟨t, hopen.trans hclose, hbuf, fun _ => ⟨_, rfl, hends⟩, nofun,
    fun _ j => State.bufByte_congr (by rw [hbuf]; rfl) hresets, fun _ => hbuf⟩

/-- The state in which the payload loop of an opened command begins, its opcode answered with `rx` (R104). -/
def loopStart (i : Instr) (s : State) (rx : Byte) (r : List EnvEvent) : State :=
  { opened i s with
    status := rx, xreq := none, agenda := r, trace := (opened i s).trace ++ [.xrsp rx false], phase := .payTx,
    idx := (plan i).2 - 1 }

/-- The opcode exchange succeeds and the payload loop runs to its end, or to the exchange that is not answered (R106). -/
theorem runCommand_loop {rx : Byte} {as : List (Byte × Bool)} (hp : s.phase = .idle)
    (hadm : admitted s.cfg i = true) (hc : calm rest = true) (hn : 1 ≤ (plan i).2)
    (ha : s.agenda = answers ((rx, false) :: as) ++ rest)
    (herr : (pumpLoop (sentByte s (plan i).1) rx (plan i).2 as).err = true → s.cfg.storeOnError = false)
    (hend : (pumpLoop (sentByte s (plan i).1) rx (plan i).2 as).ended = false → silent rest = true) :
    ∃ v k, runCommand i s = runFrame (k + 2) v ∧
      LoopEnds (loopStart i s rx (answers as ++ rest)) v (pumpLoop (sentByte s (plan i).1) rx (plan i).2 as) rest := by
  have ha' : s.agenda = .xrsp rx false :: (answers as ++ rest) := ha
  have hopen : runCommand i s =
      runFrame (s.agenda.length + 2 * (plan i).2 + 2) (loopStart i s rx (answers as ++ rest)) := by
    rw [runCommand_opened hp hadm (by rw [ha']; rfl), runFrame_opcRx_success (s := opened i s) rfl ha']
    have hnpay : 1 ≤ (opened i s).npay := hn
    simp only [if_pos hnpay]
    rfl
  obtain ⟨n, hn'⟩ : ∃ n, (plan i).2 = n + 1 := ⟨(plan i).2 - 1, by omega⟩
  have hdepth : (plan i).1 = .buf → n < s.cfg.bufDepth := fun hs => by have := (plan_bounds hadm).1 hs; omega
  have hidx : (loopStart i s rx (answers as ++ rest)).idx = n := by simp [loopStart, hn']
  rw [hn'] at herr hend ⊢
  obtain ⟨v, k, hk, hloop, hv⟩ := runFrame_loop hc n as (loopStart i s rx (answers as ++ rest)) (s.agenda.length + 2)
    rfl hidx rfl rfl hdepth herr hend
  obtain ⟨m, rfl⟩ : ∃ m, k = m + 2 := ⟨k - 2, by omega⟩
  refine ⟨v, m, ?_, hv⟩
  rw [hopen, hn', show s.agenda.length + 2 * (n + 1) + 2 = 2 * (n + 1) + (s.agenda.length + 2) by omega, hloop]

/-- The payload loop has ended: chip-select is released and the result reported. -/
theorem loopEnds_ended {rx : Byte} {r : List EnvEvent} {v : State} {p : Pumped} {k : Nat}
    (hv : LoopEnds (loopStart i s rx r) v p rest) (hst : p.status = rx) (hended : p.ended = true) (hc : calm rest = true) :
    ∃ t, runFrame (k + 2) v = .next t ∧ PumpsAs s t i (pumpAfterOpcode (i.opcode s.cfg) rx p) rest := by
  obtain ⟨hframe, hphase, -, hcells, hother⟩ := hv
  obtain ⟨hphase, hxreq⟩ := hphase hended
  rw [hphase, hxreq] at hframe
  have hclosing : v = { opened i s with
      status := rx, err := p.err, xreq := none, phase := .desel, idx := v.idx, buf := v.buf,
      agenda := answers p.left ++ rest,
      trace := s.trace ++ [.cmd i, .csn .low] ++ (.xreq (i.opcode s.cfg) :: .xrsp rx false :: p.events) } := by
    simpa [loopStart, opened] using hframe
  obtain ⟨t, hrun, hbuf, hresets, hends⟩ := runFrame_endsAs hclosing (calm_answers hc)
  refine ⟨t, hrun, fun _ => ⟨.xreq (i.opcode s.cfg) :: .xrsp rx false :: p.events, ?_, ?_⟩, ?_, ?_, ?_⟩
  · simp [pumpAfterOpcode, hended]
  · simpa only [pumpAfterOpcode, hst] using hends
  · simp [pumpAfterOpcode, hended]
  · intro hs j
    have htv : t.bufByte j = v.bufByte j := State.bufByte_congr (by rw [hbuf]) (by rw [hresets, hframe]; rfl)
    exact htv.trans (hcells hs j)
  · exact fun hs => hbuf.trans (hother hs)

/-- The payload loop hangs: the engine waits with chip-select low (R115). -/
theorem loopEnds_hung {rx : Byte} {r : List EnvEvent} {v : State} {p : Pumped} {k : Nat}
    (hv : LoopEnds (loopStart i s rx r) v p rest) (hst : p.status = rx) (hended : p.ended = false) (hleft : p.left = [])
    (hr : silent rest = true) :
    ∃ t, runFrame k v = .next t ∧ PumpsAs s t i (pumpAfterOpcode (i.opcode s.cfg) rx p) rest := by
  obtain ⟨hframe, -, hphase, hcells, hother⟩ := hv
  obtain ⟨hphase, hxreq⟩ := hphase hended
  have hagenda : v.agenda = answers p.left ++ rest := by rw [hframe]
  have hstalled : v.stalled = true := by
    simp [State.stalled, hphase, Phase.waiting, hagenda, hleft, answers, hr]
  refine ⟨v, runFrame_stop (.inr hstalled), ?_, fun _ => ⟨by rw [hphase]; rfl, ?_, hxreq, ?_, ?_, ?_, hagenda, ?_⟩, hcells,
    hother⟩
  · simp [pumpAfterOpcode, hended]
  · rw [hframe]; rfl
  · rw [hframe]; rfl
  · rw [hframe]; exact hst.symm
  · rw [hframe]; rfl
  · rw [hframe]; simp [pumpAfterOpcode, hended, loopStart, opened]

/-- THE PUMP: whatever XPORT answers, a command does what the procedure of R100 does. The two premises are D9 and D10, and
that a pump that does not end waits for an XPORT that stays silent. -/
theorem exec_pumpsAs {as : List (Byte × Bool)} (hp : s.phase = .idle) (hadm : admitted s.cfg i = true)
    (hc : calm rest = true) (ha : s.agenda = answers as ++ rest)
    (herr : (pump (i.opcode s.cfg) (sentByte s (plan i).1) (plan i).2 s.status as).err = true → s.cfg.storeOnError = false)
    (hend : (pump (i.opcode s.cfg) (sentByte s (plan i).1) (plan i).2 s.status as).ended = false → silent rest = true) :
    ∃ t, exec i s = .next t ∧
      PumpsAs s t i (pump (i.opcode s.cfg) (sentByte s (plan i).1) (plan i).2 s.status as) rest := by
  rw [exec_eq_runCommand]
  match as, ha, herr, hend with
  | [], ha, _, hend => exact runCommand_unanswered hp hadm (hend rfl) ha
  | (rx, true) :: as, ha, herr, _ =>
    obtain ⟨t, hrun, -, hpumps⟩ := runCommand_opcode_fails hp hadm hc (herr rfl) ha
    exact ⟨t, hrun, hpumps⟩
  | (rx, false) :: as, ha, herr, hend =>
    by_cases hn : 1 ≤ (plan i).2
    · obtain ⟨v, k, hrun, hv⟩ := runCommand_loop hp hadm hc hn ha herr hend
      have hst := pumpLoop_status (sentByte s (plan i).1) rx (plan i).2 as
      rw [hrun]
      cases hended : (pumpLoop (sentByte s (plan i).1) rx (plan i).2 as).ended with
      | true => exact loopEnds_ended hv hst hended hc
      | false => exact loopEnds_hung hv hst hended (pumpLoop_hung _ _ hended).1 (hend hended)
    · obtain ⟨t, hrun, -, hpumps⟩ := runCommand_no_payload hp hadm hc (by omega) ha
      exact ⟨t, hrun, hpumps⟩

end

/-! ## What the end state of a frame holds -/

section
variable {s t : State} {i : Instr} {opc st : Byte} {src : Src} {n : Nat} {e : Bool} {events : List Obs}
  {rest : List EnvEvent} (h : endsAs s t i opc src n st e events rest)
include h

theorem endsAs.status : t.status = st := by rw [endsAs] at h; rw [h]

theorem endsAs.err : t.err = e := by rw [endsAs] at h; rw [h]

theorem endsAs.phase : t.phase = .idle := by rw [endsAs] at h; rw [h]

theorem endsAs.csn : t.csn = .high := by rw [endsAs] at h; rw [h]

theorem endsAs.xreq : t.xreq = none := by rw [endsAs] at h; rw [h]

theorem endsAs.rsp : t.rsp = some (st, e) := by rw [endsAs] at h; rw [h]

theorem endsAs.agenda : t.agenda = rest := by rw [endsAs] at h; rw [h]

theorem endsAs.trace : t.trace = s.trace ++ [.cmd i, .csn .low] ++ events ++ [.csn .high, .rsp st e] := by
  rw [endsAs] at h; rw [h]

theorem endsAs.regs : t.host.regs =
    s.host.regs.map (RegDesc.result s.cfg i.op opc e (t.bufPrefix n) (s.placed src n)) := by
  rw [endsAs] at h
  exact congrArg (fun u : State => u.host.regs) h

end

/-- The pump `p`, field by field, as the end state and the waiting state show it. -/
theorem PumpsAs.refines {s t : State} {i : Instr} {p : Pumped} {rest : List EnvEvent} (h : PumpsAs s t i p rest) :
    t.trace = s.trace ++ .cmd i :: p.events ∧ t.status = p.status ∧ t.err = p.err ∧ t.agenda = answers p.left ++ rest ∧
      (p.ended = true → t.phase = .idle ∧ t.csn = .high ∧ t.xreq = none ∧ t.rsp = some (p.status, p.err)) ∧
      (p.ended = false → t.phase.waiting = true ∧ t.csn = .low ∧ t.xreq.isSome = true ∧ t.rsp = s.rsp) ∧
      ((plan i).1 = .buf → ∀ j, t.bufByte j = (p.stored.lookup j).getD (s.bufByte j)) ∧
      ((plan i).1 ≠ .buf → t.buf = s.buf) := by
  cases hp : p.ended with
  | true =>
    obtain ⟨events, hevents, hends⟩ := h.ended hp
    refine ⟨?_, hends.status, hends.err, hends.agenda, fun _ => ⟨hends.phase, hends.csn, hends.xreq, hends.rsp⟩, nofun,
      h.buf, h.other⟩
    rw [hends.trace, hevents]; simp
  | false =>
    obtain ⟨hwait, hcsn, hxreq, hrsp, hst, herr, hagenda, htrace⟩ := h.hung hp
    exact ⟨htrace, hst, herr, hagenda, nofun, fun _ => ⟨hwait, hcsn, hxreq, hrsp⟩, h.buf, h.other⟩

/-- Settles O32: the frame is the procedure (`exec_pumpsAs`), read field by field (`PumpsAs.refines`). -/
theorem frameRefinesPump : Obligations.FrameRefinesPump := by
  intro i s as rest hp hadm hstore hr ha
  obtain ⟨t, hrun, hpumps⟩ := exec_pumpsAs hp hadm (calm_of_silent hr) ha (fun _ => hstore) (fun _ => hr)
  exact ⟨t, hrun, hpumps.refines⟩

/-- A pump that ends, its events given: the end of the frame and the bytes stored. -/
theorem PumpsAs.endsAs {s t : State} {i : Instr} {p : Pumped} {rest : List EnvEvent} {events : List Obs}
    (h : PumpsAs s t i p rest) (hended : p.ended = true)
    (hevents : p.events = .csn .low :: events ++ [.csn .high, .rsp p.status p.err]) :
    Machine.endsAs s t i (i.opcode s.cfg) (plan i).1 (plan i).2 p.status p.err events (answers p.left ++ rest) := by
  obtain ⟨events', hevents', hends⟩ := h.ended hended
  have hsame : events' = events := by
    rw [hevents'] at hevents
    exact (List.cons_inj_right _).mp (List.append_cancel_right hevents)
  exact hsame ▸ hends

/-! ## Pumps that succeed, and pumps that fail -/

theorem answers_append (as bs : List (Byte × Bool)) : answers (as ++ bs) = answers as ++ answers bs := List.map_append

/-- XPORT's successes as answers. -/
def succeeding (rs : List Byte) : List (Byte × Bool) := rs.map fun r => (r, false)

theorem answers_succeeding (rs : List Byte) : answers (succeeding rs) = successes rs := by
  simp [answers, succeeding, successes]

/-- The bytes of successful exchanges from index `n - 1` down, as `pumpLoop` stores them. -/
def storedFrom : Nat → List Byte → List (Nat × Byte)
  | n + 1, r :: rs => (n, r) :: storedFrom n rs
  | _, _ => []

/-- The payload loop goes on after the successes with the index they leave. -/
theorem pumpLoop_succeeding (tx : Nat → Byte) (st : Byte) (as : List (Byte × Bool)) : ∀ (n : Nat) (rs : List Byte),
    rs.length ≤ n →
    pumpLoop tx st n (succeeding rs ++ as) =
      { pumpLoop tx st (n - rs.length) as with
        events := exchanges tx n rs ++ (pumpLoop tx st (n - rs.length) as).events,
        stored := storedFrom n rs ++ (pumpLoop tx st (n - rs.length) as).stored }
  | 0, [], _ => rfl
  | n + 1, [], _ => rfl
  | n + 1, r :: rs, h => by
    have ih := pumpLoop_succeeding tx st as n rs (Nat.le_of_succ_le_succ h)
    have hloop : pumpLoop tx st (n + 1) (succeeding (r :: rs) ++ as) =
        { pumpLoop tx st n (succeeding rs ++ as) with
          events := .xreq (tx n) :: .xrsp r false :: (pumpLoop tx st n (succeeding rs ++ as)).events,
          stored := (n, r) :: (pumpLoop tx st n (succeeding rs ++ as)).stored } := rfl
    rw [hloop, ih]
    simp [exchanges, storedFrom]

/-- The first byte returned is stored at the highest index (R52, R58). -/
theorem storedFrom_lookup : ∀ (n : Nat) (rs : List Byte) (j : Nat), rs.length ≤ n →
    (storedFrom n rs).lookup j = if n - rs.length ≤ j then rs.reverse[j - (n - rs.length)]? else none
  | 0, [], _, _ => by simp [storedFrom]
  | n + 1, [], _, _ => by simp [storedFrom]
  | n + 1, r :: rs, j, h => by
    have hle : rs.length ≤ n := Nat.le_of_succ_le_succ h
    have ih := storedFrom_lookup n rs j hle
    have hd : n + 1 - (r :: rs).length = n - rs.length := by simp
    rw [storedFrom, List.lookup_cons, ih, hd, List.reverse_cons]
    by_cases hj : j = n
    · subst hj
      have hi : j - (j - rs.length) = rs.length := by omega
      simp [hi]
    · simp only [beq_false_of_ne hj]
      split
      · rcases Nat.lt_or_ge (j - (n - rs.length)) rs.length with hlt | hge
        · rw [List.getElem?_append_left (by simpa using hlt)]
        · rw [List.getElem?_eq_none (by simpa using hge), List.getElem?_eq_none (by simp; omega)]
      · rfl

/-- The pump whose exchanges all succeed (R111). -/
theorem pump_succeeds (opc : Byte) (tx : Nat → Byte) (st r0 : Byte) {n : Nat} {rs : List Byte} (h : rs.length = n) :
    pump opc tx n st (succeeding (r0 :: rs)) =
      { events := .csn .low :: (.xreq opc :: .xrsp r0 false :: exchanges tx n rs) ++ [.csn .high, .rsp r0 false],
        stored := storedFrom n rs, status := r0, err := false, ended := true, left := [] } := by
  have hloop := pumpLoop_succeeding tx r0 [] n rs h.le
  have hpump : pump opc tx n st (succeeding (r0 :: rs)) = pumpAfterOpcode opc r0 (pumpLoop tx r0 n (succeeding rs)) := rfl
  rw [List.append_nil, h, Nat.sub_self] at hloop
  rw [hpump, hloop]
  simp [pumpAfterOpcode, pumpLoop]

/-- The pump whose payload exchange fails after `rs` have succeeded (R113). -/
theorem pump_payload_fails (opc : Byte) (tx : Nat → Byte) (st r0 rx : Byte) {n : Nat} {rs : List Byte} (h : rs.length < n) :
    pump opc tx n st (succeeding (r0 :: rs) ++ [(rx, true)]) =
      { events := .csn .low :: (.xreq opc :: .xrsp r0 false :: exchanges tx n rs ++
          [.xreq (tx (n - 1 - rs.length)), .xrsp rx true]) ++ [.csn .high, .rsp r0 true],
        stored := storedFrom n rs, status := r0, err := true, ended := true, left := [] } := by
  have hloop := pumpLoop_succeeding tx r0 [(rx, true)] n rs h.le
  have hpump : pump opc tx n st (succeeding (r0 :: rs) ++ [(rx, true)]) =
      pumpAfterOpcode opc r0 (pumpLoop tx r0 n (succeeding rs ++ [(rx, true)])) := rfl
  rw [show n - rs.length = n - 1 - rs.length + 1 by omega] at hloop
  rw [hpump, hloop]
  simp [pumpAfterOpcode, pumpLoop]

/-- Settles O29: a pump all of whose exchanges succeed (`pump_succeeds`), and where its bytes are stored
(`storedFrom_lookup`). -/
theorem frameSucceeds : Obligations.FrameSucceeds := by
  intro i s r0 rs rest hp hadm hlen hc ha
  have hpump := pump_succeeds (i.opcode s.cfg) (sentByte s (plan i).1) s.status r0 hlen
  have ha' : s.agenda = answers (succeeding (r0 :: rs)) ++ rest := by rw [answers_succeeding, ha]
  obtain ⟨t, hrun, hpumps⟩ := exec_pumpsAs hp hadm hc ha' (by rw [hpump]; nofun) (by rw [hpump]; nofun)
  rw [hpump] at hpumps
  refine ⟨t, hrun, hpumps.endsAs rfl rfl, fun hs j => ?_, hpumps.other⟩
  rw [hpumps.buf hs j, storedFrom_lookup _ _ _ hlen.le, hlen]
  simp

/-- Settles O30: the pump ends with the opcode's failed answer (`runCommand_opcode_fails`). -/
theorem opcodeExchangeFails : Obligations.OpcodeExchangeFails := by
  intro i s rx rest hp hadm hstore hc ha
  obtain ⟨t, hrun, hbuf, hpumps⟩ := runCommand_opcode_fails (as := []) hp hadm hc hstore ha
  exact ⟨t, (exec_eq_runCommand i s).trans hrun, hbuf, hpumps.endsAs rfl rfl⟩

/-- Settles O31: the pump ends with the payload's first failed answer (`pump_payload_fails`); the cells stored before are
those of `storedFrom_lookup`. -/
theorem payloadExchangeFails : Obligations.PayloadExchangeFails := by
  intro i s r0 rs rx rest hp hadm hstore hc hlen ha
  have hpump := pump_payload_fails (i.opcode s.cfg) (sentByte s (plan i).1) s.status r0 rx hlen
  have ha' : s.agenda = answers (succeeding (r0 :: rs) ++ [(rx, true)]) ++ rest := by
    rw [answers_append, answers_succeeding, ha, List.append_assoc]; rfl
  obtain ⟨t, hrun, hpumps⟩ := exec_pumpsAs hp hadm hc ha' (fun _ => hstore) (by rw [hpump]; nofun)
  rw [hpump] at hpumps
  refine ⟨t, hrun, hpumps.endsAs rfl rfl, fun hs j => ?_, hpumps.other⟩
  rw [hpumps.buf hs j, storedFrom_lookup _ _ _ hlen.le]
  by_cases hlow : (plan i).2 - rs.length ≤ j
  · by_cases hhigh : j < (plan i).2
    · have hin : j - ((plan i).2 - rs.length) < rs.reverse.length := by rw [List.length_reverse]; omega
      rw [if_pos hlow, if_pos ⟨hlow, hhigh⟩, List.getElem?_eq_getElem hin]; rfl
    · have hout : rs.reverse.length ≤ j - ((plan i).2 - rs.length) := by rw [List.length_reverse]; omega
      rw [if_pos hlow, if_neg (fun h => hhigh h.2), List.getElem?_eq_none hout]; rfl
  · rw [if_neg hlow, if_neg (fun h => hlow h.1)]; rfl

/-- Settles O41: with no payload the one exchange is the whole frame, whatever the source (`runCommand_no_payload`). -/
theorem emptyPayloadIsNoPayload : Obligations.EmptyPayloadIsNoPayload := by
  intro i s r0 rest hp hc ha hn
  have hadm : admitted s.cfg i = true := by
    cases i <;> simp_all [plan, payloadOf, admitted, Instr.op, Instr.len]
  obtain ⟨t, hrun, hbuf, hpumps⟩ := runCommand_no_payload (as := []) hp hadm hc hn ha
  rw [hn] at hpumps
  have hends := hpumps.endsAs (events := [.xreq (i.opcode s.cfg), .xrsp r0 false]) rfl rfl
  rw [hn] at hends
  exact ⟨t, (exec_eq_runCommand i s).trans hrun, hbuf, hends⟩

/-- Settles O42: the end state of a frame that succeeds has ERR clear and reports so, whatever ERR was (R27). -/
theorem errorNotSticky : Obligations.ErrorNotSticky := by
  intro i s t r0 rs rest hp _ hadm hlen hc ha h
  obtain ⟨u, hu, hends, -⟩ := frameSucceeds i s r0 rs rest hp hadm hlen hc ha
  obtain rfl : u = t := by rw [hu] at h; exact Host.Outcome.next.inj h
  exact ⟨hends.err, hends.rsp⟩

/-! ## The commands, one by one -/

/-- Settles O35: the opcode and the plan of RDREG in `frameSucceeds`. -/
theorem rdregReadsRegister : Obligations.RdregReadsRegister := fun addr len s r0 rs rest hp hlen hrs hc ha =>
  frameSucceeds (.rdreg addr len) s r0 rs rest hp (decide_eq_true hlen) hrs hc ha

/-- Settles O36: the opcode and the plan of WRREG in `frameSucceeds`. -/
theorem wrregWritesRegister : Obligations.WrregWritesRegister := fun addr len s r0 rs rest hp hlen hrs hc ha =>
  frameSucceeds (.wrreg addr len) s r0 rs rest hp (decide_eq_true hlen) hrs hc ha

/-- Settles O37: the opcodes and the plans of RDPAY and WRPAY in `frameSucceeds`. -/
theorem payloadCommandsMovePayload : Obligations.PayloadCommandsMovePayload := fun len s r0 rs rest hp hlen hrs hc ha =>
  ⟨frameSucceeds (.rdpay len) s r0 rs rest hp (decide_eq_true hlen) hrs hc ha,
    frameSucceeds (.wrpay len) s r0 rs rest hp (decide_eq_true hlen) hrs hc ha⟩

/-- Settles O38: the three commands whose plan is empty, by `emptyPayloadIsNoPayload`. -/
theorem bareCommandsRefreshStatus : Obligations.BareCommandsRefreshStatus := fun s r0 rest hp hc ha =>
  ⟨emptyPayloadIsNoPayload .flushtx s r0 rest hp hc ha rfl, emptyPayloadIsNoPayload .flushrx s r0 rest hp hc ha rfl,
    emptyPayloadIsNoPayload .nop s r0 rest hp hc ha rfl⟩

/-- Settles O39: the plan of ACTIVATE, one byte of the key, in `frameSucceeds`; its source is not BUF. -/
theorem activateSendsKey : Obligations.ActivateSendsKey := by
  intro s r0 r1 rest hp hc ha
  obtain ⟨t, hrun, hends, -, hbuf⟩ := frameSucceeds .activate s r0 [r1] rest hp rfl rfl hc ha
  exact ⟨t, hrun, hbuf nofun, hends⟩

/-! ## The length of a frame -/

/-- In the payload exchanges only requests and answers are counted, `n` of each. -/
theorem exchanges_countP {f : Obs → Bool} {b : Bool} (tx : Nat → Byte) (hreq : ∀ v, f (.xreq v) = b)
    (hrsp : ∀ v e, f (.xrsp v e) = false) : ∀ (n : Nat) (rs : List Byte), rs.length = n →
    (exchanges tx n rs).countP f = if b then n else 0
  | 0, [], _ => by cases b <;> rfl
  | n + 1, r :: rs, h => by
    have ih := exchanges_countP tx hreq hrsp n rs (by simpa using h)
    rw [exchanges, List.countP_cons, List.countP_cons, ih, hreq, hrsp]
    cases b <;> simp

/-- The events a successful frame adds, counted: the two edges, the opcode exchange, the payload exchanges, the result. -/
theorem succeedsAs.countP {s t : State} {i : Instr} {opc r0 : Byte} {src : Src} {n : Nat} {rs : List Byte}
    {rest : List EnvEvent} {f : Obs → Bool} {b : Bool} (h : succeedsAs s t i opc src n r0 rs rest) (hlen : rs.length = n)
    (hreq : ∀ v, f (.xreq v) = b) (hrsp : ∀ v e, f (.xrsp v e) = false) :
    (t.trace.drop s.trace.length).countP f =
      [Obs.cmd i, .csn .low, .csn .high, .rsp r0 false].countP f + if b then 1 + n else 0 := by
  have htrace := h.1.trace
  rw [htrace, List.append_assoc, List.append_assoc, List.drop_left]
  simp only [List.countP_append, List.countP_cons, List.countP_nil, exchanges_countP _ hreq hrsp n rs hlen, hreq, hrsp]
  cases b <;> simp <;> omega

/-- Settles O34: the events of a successful frame, counted kind by kind (`succeedsAs.countP`); the plan says how many
payload bytes there are. -/
theorem frameLength : Obligations.FrameLength := by
  intro i s t r0 rs rest hp hadm hlen hc ha h
  obtain ⟨u, hu, hs⟩ := frameSucceeds i s r0 rs rest hp hadm hlen hc ha
  obtain rfl : u = t := by rw [hu] at h; exact Host.Outcome.next.inj h
  refine ⟨?requests, ?falling, ?rising, ?results⟩
  case requests =>
    rw [hs.countP (b := true) hlen (fun _ => rfl) (fun _ _ => rfl)]
    cases i <;> simp [plan, payloadOf, Instr.op, Instr.len]
  case falling => rw [hs.countP (b := false) hlen (fun _ => rfl) (fun _ _ => rfl)]; rfl
  case rising => rw [hs.countP (b := false) hlen (fun _ => rfl) (fun _ _ => rfl)]; rfl
  case results => rw [hs.countP (b := false) hlen (fun _ => rfl) (fun _ _ => rfl)]; rfl

end Sys2Proof.Machine

namespace Sys2Proof.Machine

/-! ## Whose turn it is within a frame

PHASE and the agenda alone tell that; no act of the host is among the turns of a frame that is not stalled (log 1). -/

/-- What happens next in a frame in phase `p` with agenda `a`: a RESET, the engine's own step (after a `pass`, perhaps), the
answer it waits for, or an event that is only taken off. -/
inductive FrameTurn (p : Phase) (a : List EnvEvent) : Prop where
  | reset (r : List EnvEvent) : a = .reset :: r → FrameTurn p a
  | engine (r : List EnvEvent) : p.waiting = false → r <:+ a →
      (∀ (s : State) (o : Out), s.phase = p → s.agenda = a → engineTurn { s with agenda := r } = some (.atomic o) →
        tick s = o) → FrameTurn p a
  | answer (rx : Byte) (e : Bool) (r : List EnvEvent) : p.waiting = true → a = .xrsp rx e :: r → FrameTurn p a
  | drop (e : EnvEvent) (r : List EnvEvent) : p.waiting = true → a = e :: r →
      (∀ s : State, s.phase = p → s.agenda = a → tick s = .next { s with agenda := r }) → FrameTurn p a

theorem engineTurn_of_waiting {s : State} (h : s.phase.waiting = true) : engineTurn s = none := by
  cases hp : s.phase with
  | opcRx | payRx => simp [engineTurn, hp]
  | settle | idle | sel | opcTx | payTx | desel | done => simp [hp, Phase.waiting] at h

/-- A frame that is not stalled goes on. -/
theorem frameTurn {s : State} (hf : s.phase.inFrame = true) (hs : s.stalled = false) : FrameTurn s.phase s.agenda := by
  obtain ⟨hint, hsilent⟩ := Bool.or_eq_false_iff.mp hs
  cases hw : s.phase.waiting with
  | false =>
    by_cases hc : calm s.agenda = true
    · refine .engine s.agenda hw List.suffix_rfl fun u o _ ha hturn => ?_
      rw [← ha] at hc hturn
      exact tick_of_engineTurn hc hturn
    · rcases ha : s.agenda with _ | ⟨e, r⟩
      · simp [ha, calm] at hc
      cases e with
      | reset => exact .reset r rfl
      | pass =>
        refine .engine r hw (List.suffix_cons _ r) fun u o _ ha hturn => ?_
        simp [tick, turn, ha, engineMove, hturn]
      | hostNow a => simp [ha, interrupted] at hint
      | settled | xrsp | xrspLate | host => simp [ha, calm] at hc
  | true =>
    have hnone : ∀ u : State, u.phase = s.phase → ∀ r, engineTurn { u with agenda := r } = none :=
      fun u hu r => engineTurn_of_waiting (s := { u with agenda := r }) (by rw [← hw, ← hu])
    rcases ha : s.agenda with _ | ⟨e, r⟩
    · simp [hw, ha, silent] at hsilent
    cases e with
    | reset => exact .reset r rfl
    | xrsp rx e => exact .answer rx e r hw rfl
    | pass =>
      refine .drop _ r hw rfl fun u hu ha => ?_
      simp [tick, turn, ha, engineMove, hnone u hu]
    | xrspLate rx e =>
      refine .drop _ r hw rfl fun u hu ha => ?_
      have hu' : engineTurn u = none := hnone u hu u.agenda
      simp [tick, turn, ha, hu', envStep]
    | settled us =>
      refine .drop _ r hw rfl fun u hu ha => ?_
      have hu' : engineTurn u = none := hnone u hu u.agenda
      have hp : u.phase ≠ .settle := fun hp => by rw [← hu, hp] at hf; cases hf
      simp [tick, turn, ha, hu', envStep, settled, hp]
    | host a => simp [hw, ha, silent] at hsilent
    | hostNow a => simp [ha, interrupted] at hint

/-! ## Every command ends, hangs or pauses, R115, R118 and R230 -/

/-- What the steps of a frame rely on, from ACCEPT on; the part of `Inv` that ACCEPT establishes in any state. -/
structure FrameOk (s : State) : Prop where
  payload : s.phase.payload = true → s.idx < s.npay
  depth : s.src = .buf → s.npay ≤ s.cfg.bufDepth
  outstanding : s.phase.waiting = true → s.xreq.isSome = true

theorem FrameOk.idx_lt {s : State} (h : FrameOk s) (hp : s.phase.payload = true) (hs : s.src = .buf) :
    s.idx < s.cfg.bufDepth := lt_of_lt_of_le (h.payload hp) (h.depth hs)

theorem frameOk_accept {i : Instr} {s : State} (h : canAccept i s = true) : FrameOk (accept i s) := by
  obtain ⟨-, hadm⟩ := canAccept_iff.mp h
  exact ⟨nofun, (plan_bounds hadm).1, nofun⟩

/-- How many atomic steps a frame can still take, apart from the events of the agenda that it only takes off. -/
def stepsLeft (s : State) : Nat :=
  match s.phase with
  | .settle | .idle => 0
  | .done => 1
  | .desel => 2
  | .payRx => 2 * s.idx + 3
  | .payTx => 2 * s.idx + 4
  | .opcRx => 2 * s.npay + 3
  | .opcTx => 2 * s.npay + 4
  | .sel => 2 * s.npay + 5

/-- What one step of a frame leads to: on to a smaller rest of the frame, or to its report, or to a reset. -/
structure FrameStep (s t : State) (evs : List Obs) : Prop where
  ok : FrameOk t
  trace : t.trace = s.trace ++ evs
  fuel : t.agenda.length + stepsLeft t < s.agenda.length + stepsLeft s
  idle : t.phase = .idle → evs = [.rsp t.status t.err] ∧ t.rsp = some (t.status, t.err)
  settle : t.phase = .settle → .reset ∈ evs

/-- A phase of a frame in which the engine does not wait has a step of its own. -/
theorem exists_engineStep {u : State} (h : FrameOk u) (hf : u.phase.inFrame = true) (hw : u.phase.waiting = false) :
    ∃ t evs, engineTurn u = some (.atomic (.next t)) ∧ FrameStep u t evs := by
  cases hp : u.phase with
  | settle | idle => simp [hp, Phase.inFrame] at hf
  | opcRx | payRx => simp [hp, Phase.waiting] at hw
  | sel =>
    refine ⟨select u, [.csn .low], by simp [engineTurn, hp], ⟨nofun, h.depth, nofun⟩, rfl, ?_, nofun, nofun⟩
    simp [stepsLeft, hp, select]
  | opcTx =>
    refine ⟨opcTx u, [.xreq u.opc], by simp [engineTurn, hp], ⟨nofun, h.depth, fun _ => rfl⟩, rfl, ?_, nofun, nofun⟩
    simp [stepsLeft, hp, opcTx]
  | payTx =>
    have hidx := h.payload (by rw [hp]; rfl)
    have hb := payByte_eq (h.idx_lt (by rw [hp]; rfl))
    have hturn : engineTurn u = some (.atomic (payTx u)) := by simp [engineTurn, hp]
    rw [payTx_eq hb] at hturn
    refine ⟨_, [.xreq (sentByte u u.src u.idx)], hturn, ⟨fun _ => hidx, h.depth, fun _ => rfl⟩, rfl, ?_, nofun, nofun⟩
    simp [stepsLeft, hp]
  | desel =>
    refine ⟨deselect u, [.csn .high], by simp [engineTurn, hp], ⟨nofun, h.depth, nofun⟩, rfl, ?_, nofun, nofun⟩
    simp [stepsLeft, hp, deselect]
  | done =>
    refine ⟨respond u, [.rsp u.status u.err], by simp [engineTurn, hp], ⟨nofun, h.depth, nofun⟩, rfl, ?_,
      fun _ => ⟨rfl, rfl⟩, nofun⟩
    simp [stepsLeft, hp, respond]

/-- The answer to the outstanding request lets a waiting frame go on. -/
theorem exists_answerStep {s : State} {rx : Byte} {e : Bool} {r : List EnvEvent} (h : FrameOk s)
    (hw : s.phase.waiting = true) (ha : s.agenda = .xrsp rx e :: r) : ∃ t evs, tick s = .next t ∧ FrameStep s t evs := by
  cases hp : s.phase with
  | settle | idle | sel | opcTx | payTx | desel | done => simp [hp, Phase.waiting] at hw
  | opcRx =>
    refine ⟨_, [.xrsp rx e], tick_opcRx ha hp, ?_⟩
    cases e with
    | true =>
      rw [opcRx_failure]
      exact ⟨⟨nofun, h.depth, nofun⟩, rfl, by simp [stepsLeft, hp, ha]; omega, nofun, nofun⟩
    | false =>
      rw [opcRx_success]
      by_cases hn : 1 ≤ s.npay
      · simp only [if_pos hn]
        exact ⟨⟨fun _ => Nat.sub_one_lt_of_lt hn, h.depth, nofun⟩, rfl, by simp [stepsLeft, hp, ha]; omega, nofun, nofun⟩
      · simp only [if_neg hn]
        exact ⟨⟨nofun, h.depth, nofun⟩, rfl, by simp [stepsLeft, hp, ha]; omega, nofun, nofun⟩
  | payRx =>
    have hpay := h.payload (by rw [hp]; rfl)
    have hidx := h.idx_lt (by rw [hp]; rfl)
    cases e with
    | true =>
      refine ⟨_, [.xrsp rx true], (tick_payRx ha hp).trans (payRx_failure (s := { s with agenda := r }) rx fun _ => hidx), ?_⟩
      exact ⟨⟨nofun, h.depth, nofun⟩, rfl, by simp [stepsLeft, hp, ha]; omega, nofun, nofun⟩
    | false =>
      refine ⟨_, [.xrsp rx false], (tick_payRx ha hp).trans (payRx_success (s := { s with agenda := r }) rx hidx), ?_⟩
      by_cases hi : s.idx = 0
      · simp only [if_pos hi]
        exact ⟨⟨nofun, h.depth, nofun⟩, rfl, by simp [stepsLeft, hp, ha]; omega, nofun, nofun⟩
      · simp only [if_neg hi]
        exact ⟨⟨fun _ => by show s.idx - 1 < s.npay; omega, h.depth, nofun⟩, rfl, by simp [stepsLeft, hp, ha]; omega,
          nofun, nofun⟩

/-- An event is taken off the agenda and changes nothing else. -/
theorem frameStep_drop {s : State} {e : EnvEvent} {r : List EnvEvent} (h : FrameOk s) (hf : s.phase.inFrame = true)
    (ha : s.agenda = e :: r) : FrameStep s { s with agenda := r } [] := by
  refine ⟨⟨h.payload, h.depth, h.outstanding⟩, by simp, by simp [ha, stepsLeft], fun hp => ?_, fun hp => ?_⟩
  · rw [show s.phase = _ from hp] at hf; cases hf
  · rw [show s.phase = _ from hp] at hf; cases hf

theorem frameStep_reset {s : State} {r : List EnvEvent} (ha : s.agenda = .reset :: r) :
    FrameStep s { s with agenda := r }.takeReset (.reset :: if s.csn = .low then [.csn .high] else []) :=
  ⟨⟨nofun, nofun, nofun⟩, List.append_assoc _ _ _, by simp [stepsLeft, ha]; omega, nofun, fun _ => List.mem_cons_self⟩

/-- A frame that is not stalled takes a step. -/
theorem exists_frameStep {s : State} (h : FrameOk s) (hf : s.phase.inFrame = true) (hs : s.stalled = false) :
    ∃ t evs, tick s = .next t ∧ FrameStep s t evs := by
  cases frameTurn hf hs with
  | reset r ha => exact ⟨_, _, tick_reset ha, frameStep_reset ha⟩
  | answer rx e r hw ha => exact exists_answerStep h hw ha
  | drop e r hw ha htick => exact ⟨_, [], htick s rfl rfl, frameStep_drop h hf ha⟩
  | engine r hw hr htick =>
    obtain ⟨t, evs, hturn, hstep⟩ := exists_engineStep (u := { s with agenda := r })
      ⟨h.payload, h.depth, h.outstanding⟩ hf hw
    have hfuel : t.agenda.length + stepsLeft t < r.length + stepsLeft s := hstep.fuel
    have hle := hr.length_le
    exact ⟨t, evs, htick s _ rfl rfl hturn, hstep.ok, hstep.trace, by omega, hstep.idle, hstep.settle⟩

/-- How a command that has been accepted may stand when its frame goes no further, `evs` being the frame's events: reported,
cut by a reset, hung, or paused (R115, R118, R230; log 1). -/
def FrameOutcome (t : State) (evs : List Obs) : Prop :=
  t.phase = .idle ∧ evs.getLast? = some (.rsp t.status t.err) ∧ t.rsp = some (t.status, t.err) ∨
  t.phase = .settle ∧ .reset ∈ evs ∨
  t.phase.waiting = true ∧ t.xreq.isSome = true ∧ silent t.agenda = true ∨
  t.phase.inFrame = true ∧ interrupted t.agenda = true

/-- Earlier events of the frame do not change how it stands. -/
theorem FrameOutcome.prepend {t : State} {evs : List Obs} (h : FrameOutcome t evs) (before : List Obs) :
    FrameOutcome t (before ++ evs) := by
  rcases h with ⟨hp, hlast, hrsp⟩ | ⟨hp, hmem⟩ | hwait | hpause
  · exact .inl ⟨hp, by rw [List.getLast?_append, hlast]; rfl, hrsp⟩
  · exact .inr (.inl ⟨hp, List.mem_append_right _ hmem⟩)
  · exact .inr (.inr (.inl hwait))
  · exact .inr (.inr (.inr hpause))

/-- With fuel for all its steps a frame comes to one of its outcomes. -/
theorem runFrame_outcome : ∀ (k : Nat) (s : State), FrameOk s → s.phase.inFrame = true →
    s.agenda.length + stepsLeft s ≤ k → ∃ t evs, runFrame k s = .next t ∧ t.trace = s.trace ++ evs ∧ FrameOutcome t evs := by
  intro k
  induction k with
  | zero =>
    intro s h hf hk
    cases hp : s.phase <;> simp [stepsLeft, hp, Phase.inFrame] at hk hf
  | succ k ih =>
    intro s h hf hk
    cases hs : s.stalled with
    | true =>
      refine ⟨s, [], runFrame_stop (.inr hs), by simp, ?_⟩
      rcases Bool.or_eq_true_iff.mp hs with hpause | hwait
      · exact .inr (.inr (.inr ⟨hf, hpause⟩))
      · obtain ⟨hwait, hsilent⟩ := Bool.and_eq_true_iff.mp hwait
        exact .inr (.inr (.inl ⟨hwait, h.outstanding hwait, hsilent⟩))
    | false =>
      obtain ⟨t, evs, htick, hstep⟩ := exists_frameStep h hf hs
      rw [runFrame_tick hf hs htick]
      cases hft : t.phase.inFrame with
      | true =>
        have hfuel := hstep.fuel
        obtain ⟨v, evs', hrun, htrace, hout⟩ := ih t hstep.ok hft (by omega)
        exact ⟨v, evs ++ evs', hrun, by rw [htrace, hstep.trace, List.append_assoc], hout.prepend evs⟩
      | false =>
        refine ⟨t, evs, runFrame_stop (.inl hft), hstep.trace, ?_⟩
        cases hp : t.phase with
        | idle =>
          obtain ⟨rfl, hrsp⟩ := hstep.idle hp
          exact .inl ⟨hp, rfl, hrsp⟩
        | settle => exact .inr (.inl ⟨hp, hstep.settle hp⟩)
        | _ => simp [hp, Phase.inFrame] at hft

/-- Settles O33: ACCEPT gives the frame what its steps rely on and the fuel for all of them, so it comes to an outcome
(`runFrame_outcome`); a command that is not accepted is not run. -/
theorem commandEndsOrHangs : Obligations.CommandEndsOrHangs := by
  intro i s
  rw [exec_eq_runCommand]
  cases hacc : canAccept i s with
  | false => exact ⟨s, runCommand_of_not_canAccept hacc, nofun, fun _ => rfl⟩
  | true =>
    rw [runCommand_of_canAccept hacc]
    have hfuel : (accept i s).agenda.length + stepsLeft (accept i s) ≤ frameFuel (accept i s) := by
      simp [stepsLeft, frameFuel]; omega
    obtain ⟨t, evs, hrun, htrace, hout⟩ := runFrame_outcome _ _ (frameOk_accept hacc) rfl hfuel
    exact ⟨t, hrun, fun _ => ⟨evs, by rw [htrace, accept_trace]; simp, hout⟩, nofun⟩

end Sys2Proof.Machine

namespace Sys2Proof.Machine

/-! ## The engine never faults, R50, R55 and R119 -/

/-- With the invariant the engine's own step does not fault: PAY_TX finds its byte. -/
theorem engineTurn_ne_fault {u : State} (h : Inv u) (f : Fault) : engineTurn u ≠ some (.atomic (.fault f)) := by
  intro hturn
  cases hp : u.phase with
  | payTx =>
    have hb := payByte_eq (h.idx_lt (by rw [hp]; rfl))
    simp [engineTurn, hp, payTx_eq hb] at hturn
  | idle =>
    simp only [engineTurn, hp] at hturn
    split at hturn
    · cases hturn
    · split at hturn
      · split at hturn <;> cases hturn
      · cases hturn
  | settle | sel | opcTx | opcRx | payRx | desel | done => simp [engineTurn, hp] at hturn

theorem engineMove_ne_fault {u : State} (h : Inv u) (f : Fault) : engineMove u ≠ .atomic (.fault f) := by
  intro hmove
  unfold engineMove at hmove
  split at hmove
  · next hturn => exact engineTurn_ne_fault h f (hmove ▸ hturn)
  · cases hmove

/-- With the invariant an event that faults is an act of the host: PAY_RX finds its cell. -/
theorem envStep_fault {u : State} {e : EnvEvent} {f : Fault} (h : Inv u) (hf : envStep e u = .fault f) :
    ∃ a, (e = .host a ∨ e = .hostNow a) ∧ hostStep a u = .fault f := by
  cases e with
  | host a => exact ⟨a, .inl rfl, hf⟩
  | hostNow a => exact ⟨a, .inr rfl, hf⟩
  | xrsp rx e =>
    simp only [envStep] at hf
    split at hf
    · cases hf
    · next hp =>
      have hidx := h.idx_lt (by rw [hp]; rfl)
      cases e with
      | false => rw [payRx_success rx hidx] at hf; cases hf
      | true => rw [payRx_failure rx fun _ => hidx] at hf; cases hf
    all_goals cases hf
  | pass | reset | settled | xrspLate => cases hf

/-- Settles O54: no command faults (`commandEndsOrHangs`), nor does the engine's own step or any event but an act of the
host. -/
theorem engineNeverFaults : Obligations.EngineNeverFaults := by
  intro s f h hstep
  unfold step at hstep
  split at hstep
  · next i u _ =>
    obtain ⟨t, ht, -⟩ := commandEndsOrHangs i u
    rw [ht] at hstep; cases hstep
  · next hturn =>
    subst hstep
    unfold turn at hturn
    split at hturn
    · exact absurd hturn (engineMove_ne_fault h f)
    · cases hturn
    · next a r ha => exact ⟨a, r, .inl ha, by injection hturn⟩
    · next r ha => exact absurd hturn (engineMove_ne_fault (h.withAgenda r) f)
    · next e r _ hnow _ ha =>
      split at hturn
      · next hown => exact absurd (hturn ▸ hown) (engineTurn_ne_fault h f)
      · next hown =>
        injection hturn with hturn
        obtain ⟨a, rfl | rfl, hact⟩ := envStep_fault (h.withAgenda r) hturn
        · exact ⟨a, r, .inr ⟨ha, hown⟩, hact⟩
        · exact (hnow a rfl).elim

/-! ## A step is a number of atomic steps, R117 -/

/-- A run of a frame is at most as many atomic steps as it has fuel. -/
theorem runFrame_eq_ticks : ∀ (k : Nat) (s t : State), runFrame k s = .next t → ∃ n, n ≤ k ∧ ticks n s = .next t
  | 0, s, t, h => ⟨0, le_rfl, h⟩
  | k + 1, s, t, h => by
    unfold runFrame at h
    split at h
    · exact ⟨0, Nat.zero_le _, h⟩
    · split at h
      · next u hu =>
        obtain ⟨n, hn, hrun⟩ := runFrame_eq_ticks k u t h
        exact ⟨n + 1, Nat.succ_le_succ hn, by rw [ticks, hu]; exact hrun⟩
      · cases h
      · cases h

/-- A command moves no more bytes than BUF holds, or the one of the key. -/
theorem plan_le {c : Config} {i : Instr} (h : admitted c i = true) : (plan i).2 ≤ c.bufDepth + 1 := by
  obtain ⟨hbuf, hkey, hnone⟩ := plan_bounds h
  cases hs : (plan i).1 with
  | buf => have := hbuf hs; omega
  | key => have := hkey hs; omega
  | none => have := hnone hs; omega

/-- Settles O15: a step that accepts a command is ACCEPT and the run of its frame (`runFrame_eq_ticks`), whose fuel is
bounded by the plan; any other step is one atomic step. -/
theorem stepIsAtomicSteps : Obligations.StepIsAtomicSteps := by
  intro s t h
  unfold step at h
  split at h
  · next i u hturn =>
    have hacc := canAccept_of_turn hturn
    rw [exec_eq_runCommand, runCommand_of_canAccept hacc] at h
    obtain ⟨n, hn, hrun⟩ := runFrame_eq_ticks _ _ _ h
    have htick : tick s = .next (accept i u) := by simp [tick, hturn]
    refine ⟨n + 1, ?_, by rw [ticks, htick]; exact hrun⟩
    obtain ⟨hy, -, -, hadm⟩ := turn_command hturn
    have hplan := plan_le hadm
    have hagenda : u.agenda.length ≤ s.agenda.length := by
      rcases hy with rfl | ⟨r, hr, rfl⟩
      · exact le_rfl
      · simp [hr]
    have hfuel : frameFuel (accept i u) = u.agenda.length + 2 * (plan i).2 + 5 := rfl
    omega
  · next o hturn =>
    exact ⟨1, by omega, by simp [ticks, tick, hturn, h]⟩

/-! ## The offered command, R34, R74, R75, R76 and R81 -/

section
variable {s : State} {d : Descriptor} {i : Instr}

/-- An idle engine's turn is the admitted command on its port. -/
theorem engineTurn_offered (hp : s.phase = .idle) (hd : s.cmd = some d) (hi : decodeDescriptor s.cfg d = .ok i)
    (hadm : admitted s.cfg i = true) : engineTurn s = some (.command i s) := by
  simp [engineTurn, hp, hd, hi, hadm]

/-- An idle engine refuses a message that spells no command (R75; log 25). -/
theorem step_badCommand {e : DecodeError} (hp : s.phase = .idle) (hc : calm s.agenda = true) (hd : s.cmd = some d)
    (he : decodeDescriptor s.cfg d = .error e) : step s = .refused (.badCommand e) := by
  have hturn : engineTurn s = some (.atomic (.refused (.badCommand e))) := by simp [engineTurn, hp, hd, he]
  simp [step, turn_of_engineTurn hc hturn]

end

/-- Settles O14: the turn is the command, so the step is its meaning. -/
theorem stepRunsOfferedCommand : Obligations.StepRunsOfferedCommand := by
  intro s d i hp hc hd hi hadm
  simp [step, turn_of_engineTurn hc (engineTurn_offered hp hd hi hadm)]

/-- Settles O16: the turn is the command, so the atomic step is its ACCEPT. -/
theorem acceptLatchesCommand : Obligations.AcceptLatchesCommand := by
  intro s d i hp hc hd hi hadm
  have htick : tick s = .next (accept i s) := by
    simp [tick, turn_of_engineTurn hc (engineTurn_offered hp hd hi hadm)]
  rw [htick]; rfl

/-- A field the command ignores is not looked at (R81; log 14): the address by the codes from 2 on, the length by those from
4 on. -/
theorem decodeDescriptor_ignored (c : Config) {op a1 a2 n1 n2 : Nat} (hlow : 2 ≤ op) (hhigh : op ≤ 7)
    (hn : op = 2 ∨ op = 3 → n1 = n2) :
    decodeDescriptor c { op := op, addr := a1, len := n1 } = decodeDescriptor c { op := op, addr := a2, len := n2 } := by
  interval_cases op
  · rw [hn (.inl rfl)]; rfl
  · rw [hn (.inr rfl)]; rfl
  all_goals rfl

/-- A command does not look at the message it is accepted from: ACCEPT consumes it. -/
theorem exec_cmd_irrelevant (i : Instr) (s : State) (c c' : Option Descriptor) (h : canAccept i s = true) :
    exec i { s with cmd := c } = exec i { s with cmd := c' } := by
  rw [exec_eq_runCommand, exec_eq_runCommand, runCommand_of_canAccept (s := { s with cmd := c }) h,
    runCommand_of_canAccept (s := { s with cmd := c' }) h]
  rfl

/-- Settles O11: both messages decode to one command (`decodeDescriptor_ignored`), which runs the same from both states
(`exec_cmd_irrelevant`). -/
theorem ignoredFieldsChangeNothing : Obligations.IgnoredFieldsChangeNothing := by
  intro s op a1 a2 n1 n2 hp hc hn hop i hi hadm
  have runs : ∀ d : Descriptor, decodeDescriptor s.cfg d = .ok i →
      step { s with cmd := some d } = exec i { s with cmd := some d } := fun d hd =>
    stepRunsOfferedCommand { s with cmd := some d } d i hp hc rfl hd hadm
  have hsame := decodeDescriptor_ignored s.cfg (a1 := a1) (a2 := a2) hop.1 hop.2 hn
  rw [runs _ hi, runs _ (hsame ▸ hi)]
  exact exec_cmd_irrelevant i s _ _ (canAccept_iff.mpr ⟨hp, hadm⟩)

theorem len?_of_le {c : Config} {n : Nat} (h : 2 ^ c.lenW ≤ n) : len? c n = .error (.lenTooWide n) :=
  if_neg (Nat.not_lt.mpr h)

theorem regAddr?_of_lt {a : Nat} (h : 31 < a) : regAddr? a = .error (.addrAbove31 a) := if_neg (by omega)

/-- Settles O12: such a message decodes to an error that carries the value, and the idle engine refuses it with that
(`step_badCommand`). -/
theorem oversizedMessagesRefused : Obligations.OversizedMessagesRefused := by
  rintro s ⟨op, addr, len⟩ hp hc hd
  refine ⟨fun (hop : 7 < op) => step_badCommand hp hc hd ?code, fun hop haddr => step_badCommand hp hc hd ?addr,
    fun hop hlen => step_badCommand hp hc hd ?len⟩
  case code =>
    have hnone : Op.ofCode op = none := by
      obtain ⟨m, rfl⟩ : ∃ m, op = m + 8 := ⟨op - 8, by omega⟩
      rfl
    simp [decodeDescriptor, hnone]
  case addr =>
    have haddr' := regAddr?_of_lt haddr
    rcases hop with rfl | rfl <;> simp [decodeDescriptor, Op.ofCode, commandOf, regCommand, haddr']
  case len =>
    have hlen' := len?_of_le hlen
    have hreg : addr ≤ 31 → regAddr? addr = .ok (BitVec.ofNat 5 addr) := fun h => if_pos (by omega)
    rcases hop with ⟨rfl | rfl, haddr⟩ | rfl | rfl
    · simp [decodeDescriptor, Op.ofCode, commandOf, regCommand, hreg haddr, hlen']
    · simp [decodeDescriptor, Op.ofCode, commandOf, regCommand, hreg haddr, hlen']
    · simp [decodeDescriptor, Op.ofCode, commandOf, payCommand, hlen']
    · simp [decodeDescriptor, Op.ofCode, commandOf, payCommand, hlen']

/-- Settles O17: the guard of ACCEPT is false, and then a command's meaning leaves the state as it is (log 24); an idle
engine that is offered such a command has no step of its own. -/
theorem unadmittedCommandWaits : Obligations.UnadmittedCommandWaits := by
  intro s i
  constructor
  · intro hp
    rw [exec_eq_runCommand]
    exact runCommand_of_not_canAccept (by simp [canAccept, hp])
  · intro hs hn
    have hadm : admitted s.cfg i = false := by
      cases h : admitted s.cfg i with
      | false => rfl
      | true => have := (plan_bounds h).1 hs; omega
    constructor
    · rw [exec_eq_runCommand]
      exact runCommand_of_not_canAccept (by simp [canAccept, hadm])
    · intro d hp ha hd hi
      have hnone : engineTurn s = none := by simp [engineTurn, hp, hd, hi, hadm]
      simp [step, turn, ha, engineMove, hnone]

end Sys2Proof.Machine

namespace Sys2Proof.Machine

/-! ## What a frame keeps when no reset cuts it, R50, R55, R58 and R181 -/

/-- No act of the host is on turn in a frame that is not stalled (log 1). -/
theorem not_hostTurn {s : State} (hf : s.phase.inFrame = true) (hs : s.stalled = false) (a : HostAct) (r : List EnvEvent) :
    ¬ HostTurn s a r := by
  obtain ⟨hint, hsilent⟩ := Bool.or_eq_false_iff.mp hs
  rintro (ha | ⟨ha, hnone⟩)
  · simp [ha, interrupted] at hint
  · cases hp : s.phase with
    | settle | idle => simp [hp, Phase.inFrame] at hf
    | opcRx | payRx => simp [hp, Phase.waiting, ha, silent] at hsilent
    | sel | opcTx | payTx | desel | done => simp [engineTurn, hp] at hnone

/-- The pattern of the two statements below: what every move of a frame keeps holds when the command goes no further, with
no reset to come. -/
theorem runFrame_keeps (P : State → Prop) (agenda : ∀ s r, P s → P { s with agenda := r })
    (move : ∀ u t, u.phase.inFrame = true → P u → Moved u t → P t) :
    ∀ (k : Nat) (s t : State), EnvEvent.reset ∉ s.agenda → P s → runFrame k s = .next t → P t
  | 0, s, t, _, hs, h => by cases h; exact hs
  | k + 1, s, t, hno, hs, h => by
    unfold runFrame at h
    split at h
    · cases h; exact hs
    · next hgo =>
      obtain ⟨hf, hstall⟩ : s.phase.inFrame = true ∧ s.stalled = false := by simpa using hgo
      split at h
      · next u hu =>
        obtain ⟨r, hr, hm | ⟨a, hturn, -⟩ | ⟨ha, -⟩⟩ := moved_of_tick hu
        · have hagenda : u.agenda = r := hm.agenda
          exact runFrame_keeps P agenda move k u t (fun hmem => hno (hr.subset (hagenda ▸ hmem)))
            (move { s with agenda := r } u hf (agenda s r hs) hm) h
        · exact absurd hturn (not_hostTurn hf hstall a r)
        · exact absurd (ha ▸ List.mem_cons_self) hno
      · cases h
      · cases h

/-- A command keeps what its ACCEPT establishes and every move of its frame keeps; one that is not accepted changes
nothing. -/
theorem exec_keeps (P : State → Prop) (agenda : ∀ s r, P s → P { s with agenda := r })
    (move : ∀ u t, u.phase.inFrame = true → P u → Moved u t → P t) {i : Instr} {s t : State}
    (hno : EnvEvent.reset ∉ s.agenda) (h : exec i s = .next t) (hs : canAccept i s = true → P (accept i s)) :
    canAccept i s = false ∧ t = s ∨ canAccept i s = true ∧ P t := by
  rw [exec_eq_runCommand] at h
  cases hacc : canAccept i s with
  | false =>
    rw [runCommand_of_not_canAccept hacc] at h
    exact .inl ⟨rfl, (Host.Outcome.next.inj h).symm⟩
  | true =>
    rw [runCommand_of_canAccept hacc] at h
    exact .inr ⟨rfl, runFrame_keeps P agenda move _ (accept i s) t hno (hs hacc) h⟩

/-- What a frame of the command `i` from `s` on leaves alone. -/
structure Framed (s : State) (i : Instr) (t : State) : Prop where
  src : t.src = (plan i).1
  npay : t.npay = (plan i).2
  payload : t.phase.payload = true → t.idx < t.npay
  cells : ∀ j, ((plan i).1 = .buf → (plan i).2 ≤ j) → t.bufByte j = s.bufByte j
  cfg : t.cfg = s.cfg
  ce : t.ce = s.ce
  resets : t.resets = s.resets
  pipes : t.host.pipes = s.host.pipes
  regs : t.host.regs.map (fun r => (r.addr, r.raw.length)) = s.host.regs.map (fun r => (r.addr, r.raw.length))

/-- PAY_RX stores below the payload length. -/
theorem Framed.bufAfter {s u : State} {i : Instr} {rx : Byte} (h : Framed s i u) (hp : u.phase.payload = true) (j : Nat)
    (hj : (plan i).1 = .buf → (plan i).2 ≤ j) : State.bufByte { u with buf := bufAfter u rx } j = s.bufByte j := by
  have hidx := h.payload hp
  have hnot : ¬ (u.src = .buf ∧ j = u.idx) := by
    rintro ⟨hsrc, rfl⟩
    have hle := hj (h.src ▸ hsrc)
    rw [h.npay] at hidx
    omega
  rw [u.bufByte_withBufAfter, if_neg hnot, h.cells j hj]

theorem Framed.move {s u t : State} {i : Instr} (hf : u.phase.inFrame = true) (h : Framed s i u) (hm : Moved u t) :
    Framed s i t := by
  have hcells := fun hp rx => h.bufAfter (rx := rx) hp
  obtain ⟨hsrc, hnpay, hpay, hkept, hcfg, hce, hresets, hpipes, hregs⟩ := h
  cases hm with
  | hold => exact ⟨hsrc, hnpay, hpay, hkept, hcfg, hce, hresets, hpipes, hregs⟩
  | accept i' hp | settled hp => rw [hp] at hf; cases hf
  | select hp | opcTx hp | opcRxEmpty rx hp | opcRxError rx hp | deselect hp =>
    exact ⟨hsrc, hnpay, nofun, hkept, hcfg, hce, hresets, hpipes, hregs⟩
  | opcRxPayload rx hp hn =>
    exact ⟨hsrc, hnpay, fun _ => Nat.sub_one_lt_of_lt hn, hkept, hcfg, hce, hresets, hpipes, hregs⟩
  | payTx tx hp hb => exact ⟨hsrc, hnpay, fun _ => hpay (by rw [hp]; rfl), hkept, hcfg, hce, hresets, hpipes, hregs⟩
  | payRxNext rx hp hi =>
    have hidx := hpay (by rw [hp]; rfl)
    exact ⟨hsrc, hnpay, fun _ => by show u.idx - 1 < u.npay; omega, hcells (by rw [hp]; rfl) rx, hcfg, hce, hresets, hpipes,
      hregs⟩
  | payRxLast rx hp hi => exact ⟨hsrc, hnpay, nofun, hcells (by rw [hp]; rfl) rx, hcfg, hce, hresets, hpipes, hregs⟩
  | payRxError rx hp =>
    refine ⟨hsrc, hnpay, nofun, ?_, hcfg, hce, hresets, hpipes, hregs⟩
    cases hstore : u.cfg.storeOnError with
    | true => exact hcells (by rw [hp]; rfl) rx
    | false => exact hkept
  | respond hp =>
    refine ⟨hsrc, hnpay, nofun, hkept, hcfg, hce, hresets, hpipes, ?_⟩
    rw [← hregs]
    simp [State.noteResult]

/-- Settles O43: ACCEPT changes none of it, and no move of the frame does (`Framed.move`). -/
theorem commandFrame : Obligations.CommandFrame := by
  intro i s t hno h
  have agenda : ∀ u r, Framed s i u → Framed s i { u with agenda := r } := fun u r hu =>
    ⟨hu.src, hu.npay, hu.payload, hu.cells, hu.cfg, hu.ce, hu.resets, hu.pipes, hu.regs⟩
  have start : Framed s i (accept i s) := ⟨rfl, rfl, nofun, fun _ _ => rfl, rfl, rfl, rfl, rfl, rfl⟩
  rcases exec_keeps (Framed s i) agenda (fun _ _ => Framed.move) hno h fun _ => start with ⟨-, rfl⟩ | ⟨-, ht⟩
  · exact ⟨fun _ _ => rfl, rfl, rfl, rfl, rfl, rfl⟩
  · exact ⟨ht.cells, ht.cfg, ht.ce, ht.resets, ht.pipes, ht.regs⟩

end Sys2Proof.Machine

namespace Sys2Proof.Machine

/-! ## The shadow of a descriptor, R181 -/

@[simp] theorem State.bufPrefix_length (s : State) (n : Nat) : (s.bufPrefix n).length = n := by simp [State.bufPrefix]

/-- Two register commands of one code with the same opcode byte have the same address (R72). -/
theorem opcodeOf_inj {c : Config} (hc : c.WellFormed = true) {op : Op} {a b : RegAddr} (hop : op.isRegister = true)
    (h : opcodeOf c op a = opcodeOf c op b) : a = b := by
  have spells : ∀ x, decodeOpcode c (opcodeOf c op x) = some (op, x) := fun x =>
    decodeOpcode_opcodeOf hc fun hfalse => by rw [hop] at hfalse; cases hfalse
  have hpair := (spells a).symm.trans ((congrArg _ h).trans (spells b))
  exact (Prod.mk.inj (Option.some.inj hpair)).2

/-- A command that is neither RDREG nor WRREG of the descriptor's address and width leaves the shadow as it is: the opcode
byte tells the address, and a value of another width is not taken. -/
theorem RegDesc.result_unmatched {c : Config} (hc : c.WellFormed = true) {i : Instr} {e : Bool} {left placed : List Byte}
    {d : RegDesc} (hleft : left.length = (plan i).2) (hplaced : (plan i).1 = .buf → placed.length = (plan i).2)
    (hr : i ≠ .rdreg d.addr d.raw.length) (hw : i ≠ .wrreg d.addr d.raw.length) :
    d.result c i.op (i.opcode c) e left placed = d := by
  cases e with
  | true => exact d.result_error ..
  | false =>
    cases i with
    | rdreg a n =>
      show (if opcodeOf c .rdreg a = opcodeOf c .rdreg d.addr then d.hold left else d) = d
      split
      · next hopc =>
        obtain rfl := opcodeOf_inj hc rfl hopc
        exact RegDesc.hold_of_length_ne fun hlen => hr (by rw [← hlen, hleft]; rfl)
      · rfl
    | wrreg a n =>
      show (if opcodeOf c .wrreg a = opcodeOf c .wrreg d.addr then d.hold placed else d) = d
      split
      · next hopc =>
        obtain rfl := opcodeOf_inj hc rfl hopc
        exact RegDesc.hold_of_length_ne fun hlen => hw (by rw [← hlen, hplaced rfl]; rfl)
      · rfl
    | rdpay | wrpay | flushtx | flushrx | nop | activate => rfl

/-- The command is a RDREG or a WRREG of the descriptor's address and width. -/
def Concerns (i : Instr) (d : RegDesc) : Prop := i = .rdreg d.addr d.raw.length ∨ i = .wrreg d.addr d.raw.length

/-- In a frame of the command `i` from `s` on a descriptor is as it was, until a successful result of a command that concerns
it. -/
structure Shadowed (s : State) (i : Instr) (k : Nat) (d : RegDesc) (t : State) : Prop where
  cfg : t.cfg = s.cfg
  op : t.op = i.op
  opc : t.opc = i.opcode s.cfg
  npay : t.npay = (plan i).2
  copy : t.host.copy = s.placed (plan i).1 (plan i).2
  reg : t.host.regs[k]? = some d ∨ t.phase = .idle ∧ t.err = false ∧ Concerns i d

theorem Shadowed.move {s u t : State} {i : Instr} {k : Nat} {d : RegDesc} (hc : s.cfg.WellFormed = true)
    (hf : u.phase.inFrame = true) (h : Shadowed s i k d u) (hm : Moved u t) : Shadowed s i k d t := by
  obtain ⟨hcfg, hop, hopc, hnpay, hcopy, hreg⟩ := h
  have hkept : u.host.regs[k]? = some d := by
    rcases hreg with hreg | ⟨hp, -⟩
    · exact hreg
    · rw [hp] at hf; cases hf
  cases hm with
  | accept _ hp | settled hp => rw [hp] at hf; cases hf
  | respond hp =>
    refine ⟨hcfg, hop, hopc, hnpay, hcopy, ?_⟩
    have hres : u.noteResult.host.regs[k]? =
        some (d.result s.cfg i.op (i.opcode s.cfg) u.err (u.bufPrefix (plan i).2) (s.placed (plan i).1 (plan i).2)) := by
      simp [State.noteResult, hkept, hcfg, hop, hopc, hnpay, hcopy]
    by_cases hconcerns : Concerns i d
    · rcases Bool.eq_false_or_eq_true u.err with herr | herr
      · exact .inl (by rw [hres, herr, RegDesc.result_error])
      · exact .inr ⟨rfl, herr, hconcerns⟩
    · obtain ⟨hr, hw⟩ := not_or.mp hconcerns
      have hplaced : (plan i).1 = .buf → (s.placed (plan i).1 (plan i).2).length = (plan i).2 := fun hs => by
        rw [hs]; exact State.bufPrefix_length s _
      exact .inl (by rw [hres, RegDesc.result_unmatched hc (State.bufPrefix_length u _) hplaced hr hw])
  | _ => exact ⟨hcfg, hop, hopc, hnpay, hcopy, .inl hkept⟩

/-- The cells of a payload as a successful command has left them: what the chip returned, first byte at the highest index. -/
theorem bufPrefix_of_bufTaken {s t : State} {rs : List Byte} (h : bufTaken s t .buf rs) :
    t.bufPrefix rs.length = rs.reverse := by
  refine List.ext_getElem (by simp) fun j hj hj' => ?_
  have hcell := h.1 rfl j
  rw [List.getElem?_eq_getElem hj', Option.getD_some] at hcell
  simpa [State.bufPrefix] using hcell

/-- The result of a successful RDREG or WRREG of the descriptor's address: the bytes left in BUF, or the bytes placed there,
where they are of its width (R181). -/
theorem RegDesc.result_matched (c : Config) (d : RegDesc) (left placed : List Byte) :
    d.result c .rdreg (opcodeOf c .rdreg d.addr) false left placed = d.hold left ∧
      d.result c .wrreg (opcodeOf c .wrreg d.addr) false left placed = d.hold placed :=
  ⟨if_pos rfl, if_pos rfl⟩

section
variable {s : State} {k : Nat} {d : RegDesc} {r0 : Byte} {rs : List Byte} {rest : List EnvEvent}

/-- After a successful RDREG the shadow is what the chip returned. -/
theorem shadow_of_rdreg (hd : s.host.regs[k]? = some d) (hp : s.phase = .idle) (hlen : d.raw.length ≤ s.cfg.bufDepth)
    (hrs : rs.length = d.raw.length) (hrest : calm rest = true) (ha : s.agenda = successes (r0 :: rs) ++ rest) :
    ∃ t, exec (.rdreg d.addr d.raw.length) s = .next t ∧ t.host.regs[k]? = some { d with raw := rs.reverse } ∧
      t.bufPrefix d.raw.length = rs.reverse := by
  obtain ⟨t, hrun, hends, htaken⟩ := rdregReadsRegister d.addr d.raw.length s r0 rs rest hp hlen hrs hrest ha
  have hleft : t.bufPrefix d.raw.length = rs.reverse := hrs ▸ bufPrefix_of_bufTaken htaken
  refine ⟨t, hrun, ?_, hleft⟩
  have hres := (RegDesc.result_matched s.cfg d (t.bufPrefix d.raw.length) (s.placed .buf d.raw.length)).1
  rw [RegDesc.hold_of_length (State.bufPrefix_length t _), hleft] at hres
  rw [hends.regs, List.getElem?_map, hd, Option.map_some, hleft]
  exact congrArg some hres

/-- After a successful WRREG the shadow is what the host had placed in BUF. -/
theorem shadow_of_wrreg (hd : s.host.regs[k]? = some d) (hp : s.phase = .idle) (hlen : d.raw.length ≤ s.cfg.bufDepth)
    (hrs : rs.length = d.raw.length) (hrest : calm rest = true) (ha : s.agenda = successes (r0 :: rs) ++ rest) :
    ∃ t, exec (.wrreg d.addr d.raw.length) s = .next t ∧
      t.host.regs[k]? = some { d with raw := s.bufPrefix d.raw.length } := by
  obtain ⟨t, hrun, hends, -⟩ := wrregWritesRegister d.addr d.raw.length s r0 rs rest hp hlen hrs hrest ha
  refine ⟨t, hrun, ?_⟩
  have hres := (RegDesc.result_matched s.cfg d (t.bufPrefix d.raw.length) (s.bufPrefix d.raw.length)).2
  rw [RegDesc.hold_of_length (State.bufPrefix_length s _)] at hres
  rw [hends.regs, List.getElem?_map, hd, Option.map_some]
  exact congrArg some hres

/-- In a frame that no reset cuts the shadow stays, until a successful result of a command that concerns it. -/
theorem shadow_kept {i : Instr} {t : State} (hd : s.host.regs[k]? = some d) (hc : s.cfg.WellFormed = true)
    (hno : EnvEvent.reset ∉ s.agenda) (h : exec i s = .next t) :
    t.host.regs[k]? = some d ∨ canAccept i s = true ∧ t.phase = .idle ∧ t.err = false ∧ Concerns i d := by
  have start : Shadowed s i k d (accept i s) := ⟨rfl, rfl, rfl, rfl, rfl, .inl hd⟩
  have agenda : ∀ u r, Shadowed s i k d u → Shadowed s i k d { u with agenda := r } := fun u r hu =>
    ⟨hu.cfg, hu.op, hu.opc, hu.npay, hu.copy, hu.reg⟩
  rcases exec_keeps (Shadowed s i k d) agenda (fun _ _ => Shadowed.move hc) hno h fun _ => start with ⟨-, rfl⟩ | ⟨hacc, ht⟩
  · exact .inl hd
  · exact ht.reg.imp_right fun hresult => ⟨hacc, hresult⟩

end

/-- Settles O59: the result of RDREG and WRREG in the end state of a frame that succeeds (`shadow_of_rdreg`,
`shadow_of_wrreg`); no move of a frame changes the shadow but the successful result of such a command (`shadow_kept`). -/
theorem shadowFollowsSuccessfulCommands : Obligations.ShadowFollowsSuccessfulCommands := by
  intro s k d hd hc
  constructor
  · intro r0 rs rest hp hlen hrs hrest ha
    exact ⟨shadow_of_rdreg hd hp hlen hrs hrest ha, shadow_of_wrreg hd hp hlen hrs hrest ha⟩
  · intro i t hno h hcase
    rcases shadow_kept hd hc hno h with hreg | ⟨hacc, hidle, herr, hconcerns⟩
    · exact hreg
    · rcases hcase with he | hp | hnot | hother
      · rw [herr] at he; cases he
      · exact absurd hidle hp
      · rw [hacc] at hnot; cases hnot
      · exact absurd hconcerns (not_or.mpr hother)

end Sys2Proof.Machine

namespace Sys2Proof.Machine

/-! ## A register read and a register write in lockstep, R132 -/

/-- The state of the register write that stands beside the state `t` of the register read: another code and opcode byte,
another request and other events, and other shadows. -/
def twin (t : State) (opc : Byte) (x : Option Byte) (tr : List Obs) (regs : List RegDesc) : State :=
  { t with op := .wrreg, opc := opc, xreq := x, trace := tr, host := { t.host with regs := regs } }

section
variable (c : Config) (tr₀ : List Obs) (addr : RegAddr) (len : Nat)

/-- What the read's state `t` and its twin have shown since the events `tr₀`: the command, the falling edge, the two opcode
bytes; and from then on one tail of events, with the same request outstanding. -/
inductive TwinShown (t : State) (x : Option Byte) (tr : List Obs) : Prop where
  | accepted : t.phase = .sel → t.trace = tr₀ ++ [Obs.cmd (.rdreg addr len)] → tr = tr₀ ++ [Obs.cmd (.wrreg addr len)] →
      x = t.xreq → TwinShown t x tr
  | selected : t.phase = .opcTx → t.trace = tr₀ ++ [Obs.cmd (.rdreg addr len), Obs.csn .low] →
      tr = tr₀ ++ [Obs.cmd (.wrreg addr len), Obs.csn .low] → x = t.xreq → TwinShown t x tr
  | opened : t.phase = .opcRx →
      t.trace = tr₀ ++ [Obs.cmd (.rdreg addr len), Obs.csn .low, Obs.xreq (opcodeOf c .rdreg addr)] →
      tr = tr₀ ++ [Obs.cmd (.wrreg addr len), Obs.csn .low, Obs.xreq (opcodeOf c .wrreg addr)] →
      t.xreq = some (opcodeOf c .rdreg addr) → x = some (opcodeOf c .wrreg addr) → TwinShown t x tr
  | followed (tail : List Obs) : t.phase ≠ .sel → t.phase ≠ .opcTx → t.phase ≠ .opcRx → tail ≠ [] →
      t.trace = tr₀ ++ [Obs.cmd (.rdreg addr len), Obs.csn .low, Obs.xreq (opcodeOf c .rdreg addr)] ++ tail →
      tr = tr₀ ++ [Obs.cmd (.wrreg addr len), Obs.csn .low, Obs.xreq (opcodeOf c .wrreg addr)] ++ tail →
      x = t.xreq → TwinShown t x tr

/-- `t` is a state in the frame of the register read, and `x` and `tr` are the request and the events of its twin. -/
structure Twins (t : State) (x : Option Byte) (tr : List Obs) : Prop where
  op : t.op = .rdreg
  opc : t.opc = opcodeOf c .rdreg addr
  ok : FrameOk t
  shown : TwinShown c tr₀ addr len t x tr

variable {c tr₀ addr len} {t : State} {x : Option Byte} {tr : List Obs}

theorem Twins.withAgenda (h : Twins c tr₀ addr len t x tr) (r : List EnvEvent) :
    Twins c tr₀ addr len { t with agenda := r } x tr := by
  refine ⟨h.op, h.opc, ⟨h.ok.payload, h.ok.depth, h.ok.outstanding⟩, ?_⟩
  cases h.shown with
  | accepted hp ht hu hx => exact .accepted hp ht hu hx
  | selected hp ht hu hx => exact .selected hp ht hu hx
  | opened hp ht hu hx hx' => exact .opened hp ht hu hx hx'
  | followed tail h1 h2 h3 hne ht hu hx => exact .followed tail h1 h2 h3 hne ht hu hx

/-- A tail of events gets longer by the same events for both. -/
theorem TwinShown.follow {t' : State} {x' : Option Byte} {os : List Obs} (h : TwinShown c tr₀ addr len t x tr)
    (h1 : t.phase ≠ .sel) (h2 : t.phase ≠ .opcTx) (h1' : t'.phase ≠ .sel) (h2' : t'.phase ≠ .opcTx) (h3' : t'.phase ≠ .opcRx)
    (hos : os ≠ []) (ht' : t'.trace = t.trace ++ os) (hx' : x' = t'.xreq) : TwinShown c tr₀ addr len t' x' (tr ++ os) := by
  cases h with
  | accepted hp => exact absurd hp h1
  | selected hp => exact absurd hp h2
  | opened _ ht hu => exact .followed os h1' h2' h3' hos (by rw [ht', ht]) (by rw [hu]) hx'
  | followed tail _ _ _ hne ht hu =>
    exact .followed (tail ++ os) h1' h2' h3' (by simp [hne]) (by rw [ht', ht, List.append_assoc _ tail])
      (by rw [hu, List.append_assoc _ tail]) hx'

/-- Past the opcode exchange the request outstanding is the same for both. -/
theorem TwinShown.request_eq (h : TwinShown c tr₀ addr len t x tr) (h3 : t.phase ≠ .opcRx) : x = t.xreq := by
  cases h with
  | accepted _ _ _ hx | selected _ _ _ hx | followed _ _ _ _ _ _ _ hx => exact hx
  | opened hp => exact absurd hp h3

/-- The engine's own step is the same for both. -/
theorem Twins.engineStep (h : Twins c tr₀ addr len t x tr) (hf : t.phase.inFrame = true) (hw : t.phase.waiting = false)
    (regs : List RegDesc) :
    ∃ t' x' tr' regs', engineTurn t = some (.atomic (.next t')) ∧
      engineTurn (twin t (opcodeOf c .wrreg addr) x tr regs) =
        some (.atomic (.next (twin t' (opcodeOf c .wrreg addr) x' tr' regs'))) ∧
      t'.agenda = t.agenda ∧ Twins c tr₀ addr len t' x' tr' := by
  obtain ⟨hop, hopc, hok, hshown⟩ := h
  have both : ∀ {o : State → Out}, (∀ s : State, s.phase = t.phase → engineTurn s = some (.atomic (o s))) →
      engineTurn t = some (.atomic (o t)) ∧ ∀ opc regs, engineTurn (twin t opc x tr regs) =
        some (.atomic (o (twin t opc x tr regs))) := fun ho => ⟨ho t rfl, fun _ _ => ho _ rfl⟩
  cases hp : t.phase with
  | settle | idle => simp [hp, Phase.inFrame] at hf
  | opcRx | payRx => simp [hp, Phase.waiting] at hw
  | sel =>
    obtain ⟨ht, hu⟩ := both (o := fun s => .next (select s)) fun s hs => by simp [engineTurn, hs, hp]
    refine ⟨select t, x, tr ++ [Obs.csn .low], regs, ht, hu _ _, rfl, hop, hopc, ⟨nofun, hok.depth, nofun⟩, ?_⟩
    cases hshown with
    | accepted _ htr htr' hx => exact .selected rfl (by simp [select, htr]) (by simp [htr']) hx
    | selected hp' => rw [hp] at hp'; cases hp'
    | opened hp' => rw [hp] at hp'; cases hp'
    | followed _ h1 => exact absurd hp h1
  | opcTx =>
    obtain ⟨ht, hu⟩ := both (o := fun s => .next (opcTx s)) fun s hs => by simp [engineTurn, hs, hp]
    refine ⟨opcTx t, some (opcodeOf c .wrreg addr), tr ++ [Obs.xreq (opcodeOf c .wrreg addr)], regs, ht, hu _ _, rfl, hop, hopc,
      ⟨nofun, hok.depth, fun _ => rfl⟩, ?_⟩
    cases hshown with
    | selected _ htr htr' hx =>
      exact .opened rfl (by simp [opcTx, htr, hopc]) (by simp [htr']) (by rw [← hopc]; rfl) rfl
    | accepted hp' => rw [hp] at hp'; cases hp'
    | opened hp' => rw [hp] at hp'; cases hp'
    | followed _ _ h2 => exact absurd hp h2
  | payTx =>
    have hb := payByte_eq (hok.idx_lt (by rw [hp]; rfl))
    have hidx := hok.payload (by rw [hp]; rfl)
    obtain ⟨ht, hu⟩ := both (o := payTx) fun s hs => by simp [engineTurn, hs, hp]
    have hu := hu (opcodeOf c .wrreg addr) regs
    rw [payTx_eq hb] at ht
    rw [payTx_eq (s := twin t _ x tr regs) hb] at hu
    refine ⟨_, some (sentByte t t.src t.idx), tr ++ [Obs.xreq (sentByte t t.src t.idx)], regs, ht, hu, rfl, hop, hopc,
      ⟨fun _ => hidx, hok.depth, fun _ => rfl⟩, ?_⟩
    exact hshown.follow (by rw [hp]; nofun) (by rw [hp]; nofun) nofun nofun nofun nofun rfl rfl
  | desel =>
    obtain ⟨ht, hu⟩ := both (o := fun s => .next (deselect s)) fun s hs => by simp [engineTurn, hs, hp]
    refine ⟨deselect t, x, tr ++ [Obs.csn .high], regs, ht, hu _ _, rfl, hop, hopc, ⟨nofun, hok.depth, nofun⟩, ?_⟩
    exact hshown.follow (by rw [hp]; nofun) (by rw [hp]; nofun) nofun nofun nofun nofun rfl
      (hshown.request_eq (by rw [hp]; nofun))
  | done =>
    obtain ⟨ht, hu⟩ := both (o := fun s => .next (respond s)) fun s hs => by simp [engineTurn, hs, hp]
    refine ⟨respond t, x, tr ++ [Obs.rsp t.status t.err], _, ht, hu _ _, rfl, hop, hopc, ⟨nofun, hok.depth, nofun⟩, ?_⟩
    exact hshown.follow (by rw [hp]; nofun) (by rw [hp]; nofun) nofun nofun nofun nofun rfl
      (hshown.request_eq (by rw [hp]; nofun))

/-- The answer to the outstanding request does the same to both. -/
theorem Twins.answerStep {rx : Byte} {e : Bool} {r : List EnvEvent} (h : Twins c tr₀ addr len t x tr)
    (hw : t.phase.waiting = true) (ha : t.agenda = .xrsp rx e :: r) (regs : List RegDesc) :
    ∃ t' x' tr', tick t = .next t' ∧
      tick (twin t (opcodeOf c .wrreg addr) x tr regs) = .next (twin t' (opcodeOf c .wrreg addr) x' tr' regs) ∧
      t'.agenda = r ∧ Twins c tr₀ addr len t' x' tr' := by
  obtain ⟨hop, hopc, hok, hshown⟩ := h
  have follow : ∀ {t' : State}, t'.phase = .payTx ∨ t'.phase = .desel → t'.trace = t.trace ++ [.xrsp rx e] → t'.xreq = none →
      TwinShown c tr₀ addr len t' none (tr ++ [Obs.xrsp rx e]) := by
    intro t' hp' htr' hx'
    have hne : t.phase ≠ .sel ∧ t.phase ≠ .opcTx := by
      constructor <;> intro hp <;> rw [hp] at hw <;> cases hw
    rcases hp' with hp' | hp' <;>
      exact hshown.follow hne.1 hne.2 (by rw [hp']; nofun) (by rw [hp']; nofun) (by rw [hp']; nofun) nofun htr' hx'.symm
  cases hp : t.phase with
  | settle | idle | sel | opcTx | payTx | desel | done => simp [hp, Phase.waiting] at hw
  | opcRx =>
    have ht := tick_opcRx ha hp
    have hu := tick_opcRx (s := twin t (opcodeOf c .wrreg addr) x tr regs) ha hp
    cases e with
    | true =>
      rw [opcRx_failure] at ht hu
      exact ⟨_, none, tr ++ [Obs.xrsp rx true], ht, hu, rfl, hop, hopc, ⟨nofun, hok.depth, nofun⟩, follow (.inr rfl) rfl rfl⟩
    | false =>
      rw [opcRx_success] at ht hu
      refine ⟨_, none, tr ++ [Obs.xrsp rx false], ht, hu, rfl, hop, hopc, ?_, ?_⟩
      all_goals by_cases hn : 1 ≤ t.npay
      · simp only [if_pos hn]; exact ⟨fun _ => Nat.sub_one_lt_of_lt hn, hok.depth, nofun⟩
      · simp only [if_neg hn]; exact ⟨nofun, hok.depth, nofun⟩
      · exact follow (.inl (if_pos hn)) rfl rfl
      · exact follow (.inr (if_neg hn)) rfl rfl
  | payRx =>
    have hpay := hok.payload (by rw [hp]; rfl)
    have hidx := hok.idx_lt (by rw [hp]; rfl)
    have ht := tick_payRx ha hp
    have hu := tick_payRx (s := twin t (opcodeOf c .wrreg addr) x tr regs) ha hp
    cases e with
    | true =>
      rw [payRx_failure (s := { t with agenda := r }) rx fun _ => hidx] at ht
      rw [payRx_failure (s := { twin t (opcodeOf c .wrreg addr) x tr regs with agenda := r }) rx fun _ => hidx] at hu
      exact ⟨_, none, tr ++ [Obs.xrsp rx true], ht, hu, rfl, hop, hopc, ⟨nofun, hok.depth, nofun⟩, follow (.inr rfl) rfl rfl⟩
    | false =>
      rw [payRx_success (s := { t with agenda := r }) rx hidx] at ht
      rw [payRx_success (s := { twin t (opcodeOf c .wrreg addr) x tr regs with agenda := r }) rx hidx] at hu
      refine ⟨_, none, tr ++ [Obs.xrsp rx false], ht, hu, rfl, hop, hopc, ?_, ?_⟩
      all_goals by_cases hi : t.idx = 0
      · simp only [if_pos hi]; exact ⟨nofun, hok.depth, nofun⟩
      · simp only [if_neg hi]; exact ⟨fun _ => by show t.idx - 1 < t.npay; omega, hok.depth, nofun⟩
      · exact follow (.inr (if_pos hi)) rfl rfl
      · exact follow (.inl (if_neg hi)) rfl rfl

/-- One step of the two frames: which event is on turn they tell alike, by PHASE and the agenda. -/
theorem Twins.tick (h : Twins c tr₀ addr len t x tr) (hf : t.phase.inFrame = true) (hs : t.stalled = false)
    (hno : EnvEvent.reset ∉ t.agenda) (regs : List RegDesc) :
    ∃ t' x' tr' regs', Machine.tick t = .next t' ∧
      Machine.tick (twin t (opcodeOf c .wrreg addr) x tr regs) = .next (twin t' (opcodeOf c .wrreg addr) x' tr' regs') ∧
      EnvEvent.reset ∉ t'.agenda ∧ Twins c tr₀ addr len t' x' tr' := by
  cases frameTurn hf hs with
  | reset r ha => exact absurd (ha ▸ List.mem_cons_self) hno
  | drop e r hw ha htick =>
    exact ⟨_, x, tr, regs, htick t rfl rfl, htick (twin t _ x tr regs) rfl rfl, fun hmem => hno (ha ▸ List.mem_cons_of_mem e hmem),
      h.withAgenda r⟩
  | answer rx e r hw ha =>
    obtain ⟨t', x', tr', ht, hu, hagenda, h'⟩ := h.answerStep hw ha regs
    exact ⟨t', x', tr', regs, ht, hu, fun hmem => hno (ha ▸ List.mem_cons_of_mem _ (hagenda ▸ hmem)), h'⟩
  | engine r hw hr htick =>
    obtain ⟨t', x', tr', regs', ht, hu, hagenda, h'⟩ := (h.withAgenda r).engineStep hf hw regs
    have hagenda : t'.agenda = r := hagenda
    exact ⟨t', x', tr', regs', htick t _ rfl rfl ht, htick (twin t _ x tr regs) _ rfl rfl hu,
      fun hmem => hno (hr.subset (hagenda ▸ hmem)), h'⟩

/-- The two frames in lockstep, to wherever they go. -/
theorem Twins.runFrame : ∀ (k : Nat) (t : State) (x : Option Byte) (tr : List Obs) (regs : List RegDesc),
    Twins c tr₀ addr len t x tr → EnvEvent.reset ∉ t.agenda →
    ∃ t' x' tr' regs', Machine.runFrame k t = .next t' ∧
      Machine.runFrame k (twin t (opcodeOf c .wrreg addr) x tr regs) =
        .next (twin t' (opcodeOf c .wrreg addr) x' tr' regs') ∧ Twins c tr₀ addr len t' x' tr' := by
  intro k
  induction k with
  | zero => exact fun t x tr regs h _ => ⟨t, x, tr, regs, rfl, rfl, h⟩
  | succ k ih =>
    intro t x tr regs h hno
    by_cases hstop : t.phase.inFrame = false ∨ t.stalled = true
    · exact ⟨t, x, tr, regs, runFrame_stop hstop, runFrame_stop (s := twin t (opcodeOf c .wrreg addr) x tr regs) hstop, h⟩
    · obtain ⟨hf, hs⟩ : t.phase.inFrame = true ∧ t.stalled = false := by simpa using hstop
      obtain ⟨t', x', tr', regs', ht, hu, hno', h'⟩ := h.tick hf hs hno regs
      rw [runFrame_tick hf hs ht, runFrame_tick (s := twin t (opcodeOf c .wrreg addr) x tr regs) hf hs hu]
      exact ih t' x' tr' regs' h' hno'

/-- The two commands accepted in one state are twins. -/
theorem twins_accept {s : State} (hacc : canAccept (.rdreg addr len) s = true) :
    Twins s.cfg s.trace addr len (accept (.rdreg addr len) s) s.xreq (s.trace ++ [.cmd (.wrreg addr len)]) :=
  ⟨rfl, rfl, frameOk_accept hacc, .accepted rfl rfl rfl rfl⟩

end

/-- Settles O40: the two commands start as twins and stay so (`Twins.runFrame`); what twins have shown is `TwinShown`. -/
theorem readAndWriteDifferInOpcodeOnly : Obligations.ReadAndWriteDifferInOpcodeOnly := by
  intro addr len s t u hp hc hlen hno ht hu
  have hacc : canAccept (.rdreg addr len) s = true := canAccept_iff.mpr ⟨hp, decide_eq_true hlen⟩
  have hacc' : canAccept (.wrreg addr len) s = true := canAccept_iff.mpr ⟨hp, decide_eq_true hlen⟩
  rw [exec_eq_runCommand, runCommand_of_canAccept hacc] at ht
  rw [exec_eq_runCommand, runCommand_of_canAccept hacc'] at hu
  obtain ⟨t', x, tr, regs, ht', hu', htwins⟩ :=
    (twins_accept hacc).runFrame (frameFuel (accept (.rdreg addr len) s)) _ _ _ s.host.regs hno
  obtain rfl : t' = t := Host.Outcome.next.inj (ht'.symm.trans ht)
  obtain rfl : twin t' (opcodeOf s.cfg .wrreg addr) x tr regs = u := Host.Outcome.next.inj (hu'.symm.trans hu)
  obtain ⟨hR, hW, -⟩ := Config.bases_of_wellFormed hc
  obtain ⟨hop, hopc, -, hshown⟩ := htwins
  have hlow : (opcodeOf s.cfg .wrreg addr).setWidth 5 = t'.opc.setWidth 5 := by
    rw [hopc]; exact (or_zext8_low hW addr).trans (or_zext8_low hR addr).symm
  refine ⟨rfl, hop, hopc, rfl, hlow, ?_⟩
  rw [hopc]
  cases hshown with
  | accepted hp htr htr' hx => exact .inr ⟨[], .inl ⟨hp, rfl⟩, htr, htr', hx⟩
  | selected hp htr htr' hx => exact .inr ⟨[.csn .low], .inr ⟨hp, rfl⟩, htr, htr', hx⟩
  | opened hp htr htr' hx hx' =>
    exact .inl ⟨[], by rw [htr, List.append_nil], by rw [List.append_nil]; exact htr', fun _ => ⟨hx, hx'⟩,
      fun hne => absurd rfl hne⟩
  | followed tail _ _ _ hne htr htr' hx => exact .inl ⟨tail, htr, htr', fun hnil => absurd hnil hne, fun _ => hx⟩

end Sys2Proof.Machine

namespace Sys2Proof.Machine

/-! ## The codec laws of every field inside the byte, R174 and R175 -/

section
variable {f : Field}

theorem Field.wellFormed_iff : f.WellFormed = true ↔ 1 ≤ f.width ∧ f.shift + f.width ≤ 8 := by simp [Field.WellFormed]

/-- The mask's bits are the `width` bits from `shift` up (R175; log 27). -/
theorem Field.getLsbD_mask (hf : f.WellFormed = true) (j : Nat) :
    f.mask.getLsbD j = decide (f.shift ≤ j ∧ j < f.shift + f.width) := by
  obtain ⟨-, hbyte⟩ := Field.wellFormed_iff.mp hf
  rw [Field.mask, Field.max, BitVec.getLsbD_shiftLeft, BitVec.getLsbD_ofNat, Nat.testBit_two_pow_sub_one]
  rw [Bool.eq_iff_iff]
  simp
  omega

/-- A value of the field fits its bits. -/
theorem Field.lt_of_le_max {v : Nat} (h : v ≤ f.max) : v < 2 ^ f.width := by
  have := Nat.two_pow_pos f.width
  rw [Field.max] at h
  omega

/-- The bits of a value of the field, moved to its place. -/
theorem Field.getLsbD_placed (hf : f.WellFormed = true) {v : Nat} (hv : v ≤ f.max) (j : Nat) :
    (BitVec.ofNat 8 v <<< f.shift).getLsbD j = (f.mask.getLsbD j && v.testBit (j - f.shift)) := by
  obtain ⟨-, hbyte⟩ := Field.wellFormed_iff.mp hf
  rw [Field.getLsbD_mask hf, BitVec.getLsbD_shiftLeft, BitVec.getLsbD_ofNat]
  have hhigh : f.width ≤ j - f.shift → v.testBit (j - f.shift) = false := fun h =>
    Nat.testBit_lt_two_pow ((Field.lt_of_le_max hv).trans_le (Nat.pow_le_pow_right (by omega) h))
  cases hbit : v.testBit (j - f.shift) with
  | false => simp
  | true =>
    have hlow : j - f.shift < f.width := Nat.not_le.mp fun h => by rw [hhigh h] at hbit; cases hbit
    rw [Bool.eq_iff_iff]
    simp
    omega

/-- What decoding reads, bit by bit: the field's bits, moved down. -/
theorem Field.getLsbD_decoded (hf : f.WellFormed = true) (raw : Byte) (j : Nat) :
    ((raw &&& f.mask) >>> f.shift).getLsbD j = (decide (j < f.width) && raw.getLsbD (f.shift + j)) := by
  rw [BitVec.getLsbD_ushiftRight, BitVec.getLsbD_and, Field.getLsbD_mask hf, Bool.and_comm]
  simp

theorem Field.decode_le_max (hf : f.WellFormed = true) (raw : Byte) : f.decode raw ≤ f.max := by
  have hlt : f.decode raw < 2 ^ f.width := by
    refine Nat.lt_pow_two_of_testBit _ fun j hj => ?_
    have hbit := Field.getLsbD_decoded hf raw j
    rw [decide_eq_false (by omega), Bool.false_and] at hbit
    exact hbit
  rw [Field.max]
  omega

/-- The encoded byte, bit by bit: the value in the field, the old byte around it (R173). -/
theorem Field.getLsbD_encoded (hf : f.WellFormed = true) {v : Nat} (hv : v ≤ f.max) (cur : Byte) {j : Nat} (hj : j < 8) :
    ((cur &&& ~~~f.mask) ||| (BitVec.ofNat 8 v <<< f.shift)).getLsbD j =
      if f.mask.getLsbD j then v.testBit (j - f.shift) else cur.getLsbD j := by
  rw [BitVec.getLsbD_or, BitVec.getLsbD_and, BitVec.getLsbD_not, Field.getLsbD_placed hf hv]
  cases f.mask.getLsbD j <;> simp [hj]

end

/-- Settles O57: each law compares two bytes bit by bit, inside the field and outside it (`Field.getLsbD_encoded`,
`Field.getLsbD_decoded`). -/
theorem codecLaws : Obligations.CodecLaws := by
  intro f b l hf
  obtain ⟨-, hbyte⟩ := Field.wellFormed_iff.mp hf
  refine ⟨fun hl => ⟨_, Field.encode_of_le_max hl b, ?back, ?around⟩, ?unchanged, fun hl => Field.encode_of_max_lt hl b⟩
  case back =>
    have hlt := Field.lt_of_le_max hl
    refine Nat.eq_of_testBit_eq fun j => ?_
    refine (Field.getLsbD_decoded hf _ j).trans ?_
    by_cases hj : j < f.width
    · rw [Field.getLsbD_encoded hf hl b (by omega), Field.getLsbD_mask hf]
      simp [hj]
    · rw [Nat.testBit_lt_two_pow (hlt.trans_le (Nat.pow_le_pow_right (by omega) (by omega)))]
      simp [hj]
  case around =>
    refine BitVec.eq_of_getLsbD_eq fun j hj => ?_
    rw [BitVec.getLsbD_and, BitVec.getLsbD_and, Field.getLsbD_encoded hf hl b hj, BitVec.getLsbD_not]
    cases f.mask.getLsbD j <;> simp
  case unchanged =>
    rw [Field.encode_of_le_max (Field.decode_le_max hf b)]
    congr 1
    refine BitVec.eq_of_getLsbD_eq fun j hj => ?_
    rw [Field.getLsbD_encoded hf (Field.decode_le_max hf b) b hj]
    split
    · next hmask =>
      rw [Field.getLsbD_mask hf, decide_eq_true_eq] at hmask
      have hbit := Field.getLsbD_decoded hf b (j - f.shift)
      rw [decide_eq_true (by omega), Bool.true_and, Nat.add_sub_cancel' hmask.1] at hbit
      exact hbit
    · rfl

end Sys2Proof.Machine

namespace Sys2Proof.Machine

/-! ## Reset and the settling delay, R42, R230 and R231 -/

/-- Settles O1: the values of R42 as `State.afterReset` sets them. -/
theorem resetLeavesLinesAndPhase : Obligations.ResetLeavesLinesAndPhase := ⟨rfl, rfl, rfl, rfl, rfl, rfl⟩

/-- Settles O2: each check evaluated on the suggested values. -/
theorem suggestedConfigAdmitted : Obligations.SuggestedConfigAdmitted := by
  unfold Obligations.SuggestedConfigAdmitted
  decide

/-- Settles O5: the eleven words, decoded. -/
theorem tableWordsDecode : Obligations.TableWordsDecode := by
  unfold Obligations.TableWordsDecode
  decide

/-- Settles O48: every register at its reset value, no event yet, and the companion data as initialisation leaves it. -/
theorem invariantAtReset : Obligations.InvariantAtReset := by
  refine ⟨⟨?_, ?_, nofun, nofun, nofun, fun _ => rfl, rfl, rfl⟩, nofun, rfl, ⟨nofun, nofun, nofun⟩, ⟨rfl, nofun⟩, ⟨rfl, rfl⟩,
    nofun⟩
  · exact ⟨nofun, nofun⟩
  · exact ⟨nofun, nofun⟩

section
variable {s : State} {r : List EnvEvent}

/-- A RESET that is due is the step, in any phase (R206). -/
theorem step_reset (ha : s.agenda = .reset :: r) : step s = .next { s with agenda := r }.takeReset := by
  simp [step, turn, ha, envStep]

/-- Where the engine holds, the next event that waited is the step. -/
theorem step_envStep {e : EnvEvent} (hnone : engineTurn s = none) (ha : s.agenda = e :: r)
    (hwaits : calm s.agenda = true) : step s = envStep e { s with agenda := r } := by
  cases e with
  | settled | xrsp | xrspLate | host => simp [step, turn, ha, hnone]
  | pass | reset | hostNow => simp [ha, calm] at hwaits

/-- With nothing to come an engine that holds stays as it is (R120). -/
theorem step_nil (hnone : engineTurn s = none) (ha : s.agenda = []) : step s = .next s := by
  simp [step, turn, ha, engineMove, hnone]

end

/-- Settles O3: a RESET that is due is taken whatever the phase (`step_reset`); the late answer comes where the engine holds
and is dropped. -/
theorem resetEventTakesAnyPhase : Obligations.ResetEventTakesAnyPhase := by
  constructor
  · intro s r ha
    exact ⟨_, step_reset ha, rfl, rfl, rfl, rfl, rfl, rfl, rfl, rfl⟩
  · intro s rx e r hnone ha
    exact step_envStep hnone ha (by rw [ha]; rfl)

/-- Settles O4: the engine has no step of its own in SETTLE, so a step is an event (`step_envStep`), and of the lines of the
table only SETTLED leaves the phase (`onlyTableTransitions`). -/
theorem settlingDelayHolds : Obligations.SettlingDelayHolds := by
  intro s hp
  have hnone : engineTurn s = none := by simp [engineTurn, hp]
  refine ⟨?due, ?early, step_nil hnone, ?offer, ?leaves⟩
  case due =>
    intro us r ha hus
    rw [step_envStep hnone ha (by rw [ha]; rfl)]
    simp [envStep, settled, hp, hus, State.emit, State.goto]
  case early =>
    intro us r ha hus
    rw [step_envStep hnone ha (by rw [ha]; rfl)]
    simp [envStep, settled, Nat.not_le.mpr hus]
  case offer => exact fun d r hturn => step_host hturn
  case leaves =>
    intro t h hne
    rw [step_eq_tick (by rw [hp]; nofun)] at h
    rcases onlyTableTransitions s t h with hsame | htrans
    · exact absurd (hsame.trans hp) hne
    · rw [hp] at htrans
      generalize t.phase = q at htrans hne
      cases htrans with
      | settled us r ha hus => exact ⟨rfl, us, r, ha, hus⟩
      | reset => exact absurd rfl hne

/-! ## The single steps, R104, R106, R107 and R108 -/

/-- Settles O25: DESELECT is the one step DESEL takes (R107), whatever ERR holds. -/
theorem deselectReleasesOnEveryPath : Obligations.DeselectReleasesOnEveryPath := by
  intro s hp hc
  calc step s = tick s := step_eq_tick (by rw [hp]; nofun)
    _ = .next (deselect s) := tick_deselect hc hp

/-- Settles O26: RESPOND is the one step DONE takes (R108). -/
theorem respondReportsStatusAndError : Obligations.RespondReportsStatusAndError := by
  intro s hp hc
  calc step s = tick s := step_eq_tick (by rw [hp]; nofun)
    _ = .next (respond s) := tick_respond hc hp

section
variable {s : State} {rx : Byte} {e : Bool} {r : List EnvEvent}

theorem step_opcRx (ha : s.agenda = .xrsp rx e :: r) (hp : s.phase = .opcRx) :
    step s = .next (opcRx rx e { s with agenda := r }) :=
  (step_eq_tick (by rw [hp]; nofun)).trans (tick_opcRx ha hp)

theorem step_payRx (ha : s.agenda = .xrsp rx e :: r) (hp : s.phase = .payRx) :
    step s = payRx rx e { s with agenda := r } :=
  (step_eq_tick (by rw [hp]; nofun)).trans (tick_payRx ha hp)

end

/-- Settles O21: OPC_RX on each answer (`opcRx_success`, `opcRx_failure`), with `STORE_ON_ERROR` false. -/
theorem opcodeAnswerBecomesStatus : Obligations.OpcodeAnswerBecomesStatus := by
  intro s rx e r hp ha hstore
  rw [step_opcRx ha hp]
  refine ⟨?payload, ?empty, ?failed⟩
  case payload => rintro rfl hn; rw [opcRx_success]; simp [hn]
  case empty => rintro rfl hn; rw [opcRx_success]; simp [hn]
  case failed => rintro rfl; rw [opcRx_failure]; simp [hstore]

/-- Settles O23: PAY_RX on each answer (`payRx_success`, `payRx_failure`), with `STORE_ON_ERROR` false; the cells are those
of `bufAfter`. -/
theorem payloadAnswerStoredInPlace : Obligations.PayloadAnswerStoredInPlace := by
  intro s rx e r hp ha hsrc hidx hstore
  rw [step_payRx ha hp]
  cases e with
  | true =>
    rw [payRx_failure (s := { s with agenda := r }) rx fun _ => hidx]
    refine ⟨_, rfl, nofun, nofun, fun _ => ?_, nofun, fun _ => ?_⟩ <;> simp [hstore]
  | false =>
    rw [payRx_success (s := { s with agenda := r }) rx hidx]
    refine ⟨_, rfl, fun _ hi => ?_, fun _ hi => ?_, nofun, fun _ hs j => ?_, fun hs => ?_⟩
    · simp [show s.idx ≠ 0 by omega]
    · simp [hi]
    · exact (s.bufByte_withBufAfter rx j).trans (by simp [hs])
    · exact bufAfter_other (by rw [hs]; nofun)

/-- Settles O24: with `STORE_ON_ERROR` true the failed answers of `opcRx_failure` and `payRx_failure` store their byte. -/
theorem storeOnErrorStoresReturnedByte : Obligations.StoreOnErrorStoresReturnedByte := by
  intro s rx r hstore ha
  constructor
  · intro hp
    rw [step_opcRx ha hp, opcRx_failure]
    simp [hstore]
  · intro hp hs hidx
    rw [step_payRx ha hp, payRx_failure (s := { s with agenda := r }) rx fun _ _ => hidx]
    refine ⟨_, rfl, rfl, fun j => ?_⟩
    simp only [hstore, if_true]
    exact (s.bufByte_withBufAfter rx j).trans (by simp [hs])

end Sys2Proof.Machine
